-- ==== Sys2Proof/Word.lean ====
section
/-! DEFINITION. The words of the machine (00_scope.md R6, R8): bytes of 8 bits, words of 16 bits. -/

namespace Sys2Proof

/-- A byte: 8 bits, bit 0 the least significant (R8). -/
abbrev Byte := BitVec 8

/-- A word: 16 bits. Addresses, `SP`, `PC` and the register pairs are words (R6, R8). -/
abbrev Word := BitVec 16

end Sys2Proof
end

