-- ==== Sys2Proof/Machine/Bits.lean ====
section
/-! DEFINITION. Bit fields, byte order and extension: the notation of 00_scope.md R9 that the decoder and the
meanings share. -/

namespace Sys2Proof

/-- `v[15:8]`, the high byte of a word (R9). -/
def hiByte (v : Word) : Byte := v.extractLsb' 8 8

/-- `v[7:0]`, the low byte of a word (R9). -/
def loByte (v : Word) : Byte := v.extractLsb' 0 8

/-- `hi ++ lo`, that is `hi * 256 + lo` (R9). -/
def joinBytes (hi lo : Byte) : Word := hi ++ lo

/-- `sext_16(v)`: the byte read as two's complement and widened to 16 bits (R9). -/
def sext16 (v : Byte) : Word := v.signExtend 16

/-- `zext_16(v)`: the byte widened with zeros (R9). -/
def zext16 (v : Byte) : Word := v.setWidth 16

/-- `v[hi:lo]` of a byte as a number, for the field of `width` bits at `lo` (R9). -/
def byteField (v : Byte) (lo width : Nat) : Nat := v.toNat / 2 ^ lo % 2 ^ width

end Sys2Proof
end

