-- ==== Sys2Proof/Config.lean ====
section
/-! DEFINITION. The parameters that 00_scope.md R7 leaves open: the types of their values, the default R7 offers for
each, and what no value can be given for: what a device behind `Bus` answers and changes. A machine carries the values it
has in its state (`State.bus`, `State.params`, `State.arrivals`), so that `step` takes each of them as an argument. -/

namespace Sys2Proof

/-! ## `Bus` and `IntArrival` -/

/-- What stands behind a range of addresses (20_memory.md R50, R51). -/
inductive Behind where
  /-- Plain memory: a read returns what was last written. -/
  | ram
  /-- A read returns a fixed content; a write is ignored. -/
  | rom
  /-- The same bytes as the range that starts at `base`: a write changes another location too. -/
  | echo (base : Word)
  /-- Nothing: a read returns `v`, a write is ignored. -/
  | absent (v : Byte)
  /-- Bytes that are not implemented whole: a write changes the bits of `writable` only, and the bits of `fixed` read as
  those of `value` whatever is stored. `[IF]` on the Game Boy is such a byte (10_state.md R35). -/
  | partly (writable fixed value : Byte)
  /-- A device: a read may have an effect and may return a value unrelated to earlier writes; an access may change other
  locations. -/
  | device
  deriving DecidableEq, Repr

/-- A range of addresses, both ends in it, and what is behind it. -/
structure Region where
  first : Word
  last : Word
  behind : Behind
  deriving DecidableEq, Repr

/-- How an address shows a byte of memory: the bits that a write changes, and the bits that read as those of `value`. -/
structure Wiring where
  writable : Byte
  fixed : Byte
  value : Byte
  deriving DecidableEq, Repr

/-- What one address is: a byte of memory (its own or another's) as the wiring shows it, or a device's. -/
inductive Place where
  | cell (a : Word) (k : Wiring)
  | device
  deriving DecidableEq, Repr

/-- `IntArrival` (00_scope.md R7, 60_exceptions.md R283): what the platform does between two steps. -/
structure Arrival where
  /-- The bits of `[IF]` it sets. -/
  requests : Byte
  /-- What it stores to memory besides, `[IE]` and `[IF]` excepted: "between two steps the platform may change `Bus`
  state" (60_exceptions.md R300). -/
  stores : List (Word × Byte)
  /-- Whether it ends a `STOP`; this counts only where `StopBehaviour` is `wakes`. -/
  endsStop : Bool
  deriving DecidableEq, Repr

/-- What the devices behind `Bus` get to see: the CPU's accesses to their addresses, `Bus.if_clear` where `[IF]` is one of
them, and the turns of the platform between two steps. -/
inductive Access where
  | read (a : Word)
  | write (a : Word) (v : Byte)
  | ack (i : Fin 8)
  | turn (t : Arrival)
  deriving DecidableEq, Repr

/-- What a read of an address behind a device returns, after all that the devices have seen, the latest first. The
spec "requires nothing" of it (20_memory.md R51, R61): a free value (log entry 27). -/
opaque Config.deviceRead : List Access → Word → Byte

/-- The bytes of memory that the devices store to at the latest of the accesses they have seen, the latest first. The
spec says only that an access "may change other locations" (20_memory.md R51): a free value (log entry 27). -/
opaque Config.deviceStores : List Access → List (Word × Byte)

/-! ## The other parameters -/

/-- `IllegalOpcode` (R7, 92_eei_decisions.md D3): the treatments of 93_implementation_defined.md that leave a byte
without meaning; "never a no-op, never a Z80 meaning" (U1). -/
inductive IllegalOpcode where
  /-- The default: `Fault(IllegalOpcode b)` (30_encoding.md R100). -/
  | fault
  /-- The CPU locks up and no further step changes anything (60_exceptions.md R300). -/
  | stuck
  /-- The model declines to state a result. -/
  | refuse
  deriving DecidableEq, Repr

/-- `StopBehaviour` (R7, 92_eei_decisions.md D13): what a CPU in mode `Stopped` does. -/
inductive StopBehaviour where
  /-- The default: the model declines to state a result. -/
  | refuse
  /-- No further step changes anything (93_implementation_defined.md U2). -/
  | stuck
  /-- The platform ends it, when an `Arrival` says so; nothing is presumed of when. -/
  | wakes
  deriving DecidableEq, Repr

/-- The parameters of the CPU (R7). -/
structure Params where
  /-- `NumIntSources`: how many low bits of `[IE]` and `[IF]` count, at most the eight they have. -/
  numIntSources : Fin 9
  /-- `IntVector(i)`: the handler address of source `i`. -/
  intVectors : Vector Word 8
  illegalOpcode : IllegalOpcode
  stopBehaviour : StopBehaviour
  deriving DecidableEq, Repr

namespace Config

/-! ## The defaults -/

/-- `IE_ADDR`, the address of the interrupt-enable byte `[IE]` (R7, 10_state.md R34). PRESUMED by the spec
(general knowledge, D9); unsafe: another platform may put it elsewhere (log entry 5). -/
def ieAddr : Word := 0xFFFF#16

/-- `IF_ADDR`, the address of the interrupt-request byte `[IF]` (R7, 10_state.md R35). PRESUMED by the spec
(general knowledge, D9); unsafe (log entry 5). -/
def ifAddr : Word := 0xFF0F#16

/-- The CPU's parameters at their defaults: five sources, `IntVector(i)` = $0040 + 8*i (R7, 60_exceptions.md R282;
PRESUMED by the spec, D9; unsafe, log entry 5), an illegal byte faults (D3; log entry 8), what follows a `STOP` is
refused (D13; log entry 9). -/
def params : Params where
  numIntSources := 5
  intVectors :=
    #v[0x0040#16, 0x0048#16, 0x0050#16, 0x0058#16, 0x0060#16, 0x0068#16, 0x0070#16, 0x0078#16]
  illegalOpcode := .fault
  stopBehaviour := .refuse

/-- `ResetState.pc`, where execution starts after reset (R7, 10_state.md R39). PRESUMED by the spec (D8);
unsafe (log entry 4). -/
def resetPc : Word := 0x0000#16

/-- `ResetState.ime` (R7, 10_state.md R39). PRESUMED by the spec (D8); unsafe (log entry 4). -/
def resetIme : Bool := false

/-- What a byte of memory that nothing has written reads as. The spec gives none (10_state.md R39,
93_implementation_defined.md U3): DESIGN CHOICE, unsafe, the background of the vectors of
95_test_vectors.md section 3 (log entry 2). -/
def unlistedByte : Byte := 0x00#8

end Config

end Sys2Proof
end

