-- ==== Sys2Proof/Syntax.lean ====
section
/-! DEFINITION. The instructions: one constructor for each of the 118 rows of spec/opcode_table.json (the 107
instruction forms of the sources and the eleven illegal first bytes), in the table's order, with the operands
as 30_encoding.md R84 to R90 name them. -/

namespace Sys2Proof

/-- The operand `r8`: "Any of the 8-bit registers (A, B, C, D, E, H, L)" (00_scope.md R12). -/
inductive Reg8 where
  | a | b | c | d | e | h | l
  deriving DecidableEq, Repr

/-- The operand `r16`: "Any of the general-purpose 16-bit registers (BC, DE, HL)" (00_scope.md R12). -/
inductive Reg16 where
  | bc | de | hl
  deriving DecidableEq, Repr

/-- The condition codes `cc` (00_scope.md R12, 30_encoding.md R86). -/
inductive Cond where
  | nz | z | nc | c
  deriving DecidableEq, Repr

/-- The instructions. `n8`, `e8` and `n16` are immediates (R88 to R90), `u3` a bit number (R87), `vec` the
target ADDRESS of a restart (R87, R109), `pad` the byte after `STOP`'s opcode, fetched and ignored (R101). -/
inductive Instr where
  -- 8-bit arithmetic and logic (40_alu8.md)
  | adcAR8 (r : Reg8)
  | adcAHl
  | adcAN8 (n : Byte)
  | addAR8 (r : Reg8)
  | addAHl
  | addAN8 (n : Byte)
  | andAR8 (r : Reg8)
  | andAHl
  | andAN8 (n : Byte)
  | cpAR8 (r : Reg8)
  | cpAHl
  | cpAN8 (n : Byte)
  | decR8 (r : Reg8)
  | decHlInd
  | incR8 (r : Reg8)
  | incHlInd
  | orAR8 (r : Reg8)
  | orAHl
  | orAN8 (n : Byte)
  | sbcAR8 (r : Reg8)
  | sbcAHl
  | sbcAN8 (n : Byte)
  | subAR8 (r : Reg8)
  | subAHl
  | subAN8 (n : Byte)
  | xorAR8 (r : Reg8)
  | xorAHl
  | xorAN8 (n : Byte)
  -- 16-bit arithmetic (41_alu16.md)
  | addHlR16 (r : Reg16)
  | decR16 (r : Reg16)
  | incR16 (r : Reg16)
  -- bit operations (42_bitops.md)
  | bitR8 (u : Fin 8) (r : Reg8)
  | bitHl (u : Fin 8)
  | resR8 (u : Fin 8) (r : Reg8)
  | resHl (u : Fin 8)
  | setR8 (u : Fin 8) (r : Reg8)
  | setHl (u : Fin 8)
  | swapR8 (r : Reg8)
  | swapHl
  -- shifts and rotates (43_shifts.md)
  | rlR8 (r : Reg8)
  | rlHl
  | rla
  | rlcR8 (r : Reg8)
  | rlcHl
  | rlca
  | rrR8 (r : Reg8)
  | rrHl
  | rra
  | rrcR8 (r : Reg8)
  | rrcHl
  | rrca
  | slaR8 (r : Reg8)
  | slaHl
  | sraR8 (r : Reg8)
  | sraHl
  | srlR8 (r : Reg8)
  | srlHl
  -- loads (44_loads.md)
  | ldR8R8 (dst src : Reg8)
  | ldR8N8 (dst : Reg8) (n : Byte)
  | ldR16N16 (dst : Reg16) (n : Word)
  | ldHlR8 (src : Reg8)
  | ldHlN8 (n : Byte)
  | ldR8Hl (dst : Reg8)
  | ldR16A (p : Reg16)
  | ldN16A (n : Word)
  | ldhN8A (n : Byte)
  | ldhCA
  | ldAR16 (p : Reg16)
  | ldAN16 (n : Word)
  | ldhAN8 (n : Byte)
  | ldhAC
  | ldHliA
  | ldHldA
  | ldAHli
  | ldAHld
  -- jumps and subroutines (45_jumps.md)
  | callN16 (n : Word)
  | callCcN16 (cc : Cond) (n : Word)
  | jpHl
  | jpN16 (n : Word)
  | jpCcN16 (cc : Cond) (n : Word)
  | jrE8 (e : Byte)
  | jrCcE8 (cc : Cond) (e : Byte)
  | retCc (cc : Cond)
  | ret
  | reti
  | rst (vec : Word)
  -- stack operations (46_stack.md)
  | addHlSp
  | addSpE8 (e : Byte)
  | decSp
  | incSp
  | ldSpN16 (n : Word)
  | ldN16Sp (n : Word)
  | ldHlSpE8 (e : Byte)
  | ldSpHl
  | popAf
  | popR16 (r : Reg16)
  | pushAf
  | pushR16 (r : Reg16)
  -- miscellaneous (47_misc.md)
  | ccf
  | cpl
  | daa
  | di
  | ei
  | halt
  | nop
  | scf
  | stop (pad : Byte)
  -- bytes that encode no instruction (30_encoding.md R100)
  | illegalD3
  | illegalDB
  | illegalDD
  | illegalE3
  | illegalE4
  | illegalEB
  | illegalEC
  | illegalED
  | illegalF4
  | illegalFC
  | illegalFD
  deriving DecidableEq, Repr

end Sys2Proof
end

