-- ==== Sys2Proof/Machine/State.lean ====
section
/-! DEFINITION. The state of the machine: all that 10_state.md R20 lists ("the complete architectural state of
the CPU is the following, and nothing else"), the address space behind `Bus` (R37) and the parameters of 00_scope.md
R7, as plain data. -/

namespace Sys2Proof.Machine

/-- The seven general registers (10_state.md R21). The pairs BC, DE, HL and AF are views of them (R22). -/
structure Regs where
  a : Byte
  b : Byte
  c : Byte
  d : Byte
  e : Byte
  h : Byte
  l : Byte
  deriving DecidableEq, Repr

/-- The four flags (10_state.md R23): zero, subtract, half carry, carry. Bits 3 to 0 of the flags byte are no
state (R23). -/
structure Flags where
  z : Bool
  n : Bool
  h : Bool
  c : Bool
  deriving DecidableEq, Repr

/-- The run state (10_state.md R32). -/
inductive Mode where
  /-- Instructions are fetched and executed. -/
  | running
  /-- "CPU low-power consumption mode", entered by HALT. -/
  | halted
  /-- "CPU very low power mode", entered by STOP. -/
  | stopped
  /-- The CPU has fetched a byte that is no instruction and executes nothing more. -/
  | faulted
  deriving DecidableEq, Repr

/-- The bytes of the address space (10_state.md R37): (address, byte) pairs in the canonical form `Memory.wf`. An
unlisted address reads as `Config.unlistedByte`. -/
abbrev Memory := List Host.Cell

/-- The parameter `Bus` (00_scope.md R7, 20_memory.md R51) with what it holds: what stands behind each address, and the
addresses of `[IE]` and `[IF]`, are fixed for a machine; the memory and what the devices have seen change. -/
structure Bus where
  /-- The bytes of memory, `[IE]` and `[IF]` among them unless `regions` puts something else there (10_state.md R34, R35,
  R37). -/
  mem : Memory
  /-- What stands behind an address, by the first range that covers it; plain memory where none does. No range at all
  is the reference instance `FlatRAM` (R51). -/
  regions : List Region
  /-- `IE_ADDR` (10_state.md R34). -/
  ieAddr : Word
  /-- `IF_ADDR` (10_state.md R35). -/
  ifAddr : Word
  /-- What the devices have seen, the latest first: the model's own field (log entry 27). -/
  past : List Access
  deriving DecidableEq, Repr

/-- The state of the machine (10_state.md R20), with the parameters it runs under (00_scope.md R7; log entry 28). -/
structure State where
  /-- `A, B, C, D, E, H, L` (R21). -/
  regs : Regs
  /-- `F.Z, F.N, F.H, F.C` (R23). -/
  f : Flags
  /-- The stack pointer (R28). -/
  sp : Word
  /-- The program counter (R29). -/
  pc : Word
  /-- The interrupt master enable (R30). -/
  ime : Bool
  /-- An `EI` has executed and its effect is due after the next instruction (R31). -/
  eiPending : Bool
  /-- The run state (R32). -/
  mode : Mode
  /-- The next opcode fetch does not advance `PC` (R33). -/
  haltBug : Bool
  /-- The address space and what is behind it (R37). -/
  bus : Bus
  /-- The parameters of the CPU (00_scope.md R7); no step changes them. -/
  params : Params
  /-- `IntArrival` (00_scope.md R7): what the platform will do between the coming steps, one entry before each step,
  nothing when the list is empty. An input, unconstrained. -/
  arrivals : List Arrival
  deriving DecidableEq, Repr

/-- What stops the machine for good (60_exceptions.md R281). -/
inductive Fault where
  /-- `Fault(IllegalOpcode b)`: the byte fetched encodes no instruction. Raised by the meaning of the byte, where the
  parameter `IllegalOpcode` is `fault` (its default): `final` is the state it leaves, in mode `Faulted` with `PC` past
  the byte (30_encoding.md R100, 60_exceptions.md R281). Safe: no later step exists (log entry 8). -/
  | illegalOpcode (b : Byte) (final : State)
  /-- A step in mode `Faulted`, where no step exists (R281, R300). Raised by `step` in a state that is already in that
  mode; no run enters one, as the step that would ends in `illegalOpcode`. Safe (log entry 8). -/
  | lockedUp
  deriving DecidableEq, Repr

/-- What the model gives no meaning to. -/
inductive Refusal where
  /-- An instruction without a meaning yet. Raised by `exec`; safe. -/
  | notModelled (mnemonic : String)
  /-- The byte `b` encodes no instruction and the parameter `IllegalOpcode` is `refuse` (00_scope.md R7). Raised by the
  meaning of the byte; safe (log entry 8). -/
  | illegalOpcode (b : Byte)
  /-- A step in mode `Faulted` where `IllegalOpcode` is `refuse`. Raised by `step`; safe (log entry 8). -/
  | lockedUp
  /-- The parameter `StopBehaviour` at its default, refuse (00_scope.md R7, 60_exceptions.md R300): what
  follows a `STOP`, and what ends it, is in no source. Raised by `step` in mode `Stopped`; safe (log entry 9). -/
  | stopBehaviour
  /-- `STOP` with a second byte other than $00 where `StopBehaviour` is `wakes`: "a model that supplies `StopBehaviour`
  should `refuse` a non-zero second byte" (93_implementation_defined.md U5). Raised by the meaning of `STOP`; safe (log
  entry 10). -/
  | stopSecondByte
  /-- The bytes fetched end before the instruction does. Raised by `step` if the decoder refuses; the fetch
  always supplies the bytes the decoder wants (`Laws.fetch_never_refuses`), so no state raises it; safe. -/
  | undecodable
  deriving DecidableEq, Repr

/-- The parameter `ResetState` (00_scope.md R7, 10_state.md R39): "value of every register, flag and mode after reset".
The hidden bits are no part of it: R39 fixes them. -/
structure ResetState where
  regs : Regs
  f : Flags
  sp : Word
  pc : Word
  ime : Bool
  mode : Mode
  deriving DecidableEq, Repr

/-- The machine right after reset, under any parameters (10_state.md R39, 70_reset_and_hazards.md R320): `eiPending`
and `haltBug` are the spec's choice (D8; log entry 4). -/
def State.afterReset (r : ResetState) (bus : Bus) (params : Params) (arrivals : List Arrival) : State where
  regs := r.regs
  f := r.f
  sp := r.sp
  pc := r.pc
  ime := r.ime
  eiPending := false
  mode := r.mode
  haltBug := false
  bus := bus
  params := params
  arrivals := arrivals

/-- `ResetState` at its default (00_scope.md R7): `pc`, `ime` and `mode` by the spec (log entry 4). The spec gives no
value for the registers, the flags and `SP`: zero, DESIGN CHOICE, unsafe (log entry 3). -/
def ResetState.default : ResetState where
  regs := { a := 0x00#8, b := 0x00#8, c := 0x00#8, d := 0x00#8, e := 0x00#8, h := 0x00#8, l := 0x00#8 }
  f := { z := false, n := false, h := false, c := false }
  sp := 0x0000#16
  pc := Config.resetPc
  ime := Config.resetIme
  mode := .running

/-- `Bus` at its default for tests, `FlatRAM` (00_scope.md R7, 20_memory.md R51), with nothing written (log entries 1
and 2). -/
def Bus.flat : Bus where
  mem := []
  regions := []
  ieAddr := Config.ieAddr
  ifAddr := Config.ifAddr
  past := []

/-- The machine right after reset with every parameter at its default, and a platform that does nothing between steps
(00_scope.md R7; log entry 7). -/
def State.reset : State := State.afterReset ResetState.default Bus.flat Config.params []

/-- What an instruction or a step answers. -/
abbrev Result := Host.Outcome State Fault Refusal

end Sys2Proof.Machine
end

