-- ==== Sys2Proof/Machine/Flags.lean ====
section
/-! DEFINITION. The arithmetic of the instructions with its flags: results computed on unbounded integers and
narrowed at the end, as the spec's pseudocode does (00_scope.md R8). -/

namespace Sys2Proof.Machine

/-- A result of 8 bits with its half carry and carry. -/
structure Result8 where
  res : Byte
  h : Bool
  c : Bool
  deriving DecidableEq, Repr

/-- A result of 16 bits with its half carry and carry. -/
structure Result16 where
  res : Word
  h : Bool
  c : Bool
  deriving DecidableEq, Repr

/-! ## 8-bit arithmetic (40_alu8.md) -/

/-- `Add8(a, x, cin)` (R120): carries out of bits 3 and 7; the carry-in takes part in both tests. -/
def add8 (a x : Byte) (cin : Bool) : Result8 where
  res := BitVec.ofNat 8 (a.toNat + x.toNat + cin.toNat)
  h := decide (a.toNat % 16 + x.toNat % 16 + cin.toNat > 15)
  c := decide (a.toNat + x.toNat + cin.toNat > 255)

/-- `Sub8(a, x, cin)` (R121): borrows from bit 4 and from beyond bit 7; set when there IS a borrow
(90_conflicts.md C1 to C3). -/
def sub8 (a x : Byte) (cin : Bool) : Result8 where
  res := BitVec.ofInt 8 ((a.toNat : Int) - x.toNat - cin.toNat)
  h := decide (a.toNat % 16 < x.toNat % 16 + cin.toNat)
  c := decide (a.toNat < x.toNat + cin.toNat)

/-- The flags after an addition: `Z` of the result, `N` 0, `H` and `C` computed (R122, R125). -/
def addFlags (q : Result8) : Flags where
  z := decide (q.res = 0)
  n := false
  h := q.h
  c := q.c

/-- The flags after a subtraction or comparison: `Z` of the result, `N` 1, `H` and `C` computed (R131, R141,
R144). -/
def subFlags (q : Result8) : Flags where
  z := decide (q.res = 0)
  n := true
  h := q.h
  c := q.c

/-- The flags after `AND`: `H` 1, `N` and `C` 0 (R128). -/
def andFlags (res : Byte) : Flags where
  z := decide (res = 0)
  n := false
  h := true
  c := false

/-- The flags after `OR`, `XOR` and `SWAP`: `N`, `H` and `C` 0 (R138, R147, R176). -/
def zeroOnlyFlags (res : Byte) : Flags where
  z := decide (res = 0)
  n := false
  h := false
  c := false

/-- `INC` of a byte (R136). -/
def inc8 (x : Byte) : Byte := BitVec.ofNat 8 (x.toNat + 1)

/-- `DEC` of a byte (R134). -/
def dec8 (x : Byte) : Byte := BitVec.ofInt 8 ((x.toNat : Int) - 1)

/-- The flags after `INC` of `x`: `H` on overflow from bit 3, `C` unaffected (R136). -/
def incFlags (x : Byte) (old : Flags) : Flags where
  z := decide (inc8 x = 0)
  n := false
  h := decide (x.toNat % 16 = 15)
  c := old.c

/-- The flags after `DEC` of `x`: `H` on borrow from bit 4, `C` unaffected (R134). -/
def decFlags (x : Byte) (old : Flags) : Flags where
  z := decide (dec8 x = 0)
  n := true
  h := decide (x.toNat % 16 = 0)
  c := old.c

/-! ## 16-bit arithmetic (41_alu16.md, 46_stack.md) -/

/-- `ADD HL,x`: carries out of bits 11 and 15 (R160, R242). -/
def addHl16 (hl x : Word) : Result16 where
  res := BitVec.ofNat 16 (hl.toNat + x.toNat)
  h := decide (hl.toNat % 4096 + x.toNat % 4096 > 4095)
  c := decide (hl.toNat + x.toNat > 65535)

/-- The flags after `ADD HL,x`: `Z` unaffected, `N` 0 (R160). -/
def addHlFlags (q : Result16) (old : Flags) : Flags where
  z := old.z
  n := false
  h := q.h
  c := q.c

/-- `SP + e8`: a signed 16-bit sum whose flags are those of the low byte and the unsigned immediate (R243,
R248; the flags' reading is the spec's from general knowledge, log entry 14). -/
def addSpOffset (sp : Word) (e : Byte) : Result16 where
  res := BitVec.ofNat 16 (sp.toNat + (sext16 e).toNat)
  h := decide (sp.toNat % 16 + e.toNat % 16 > 15)
  c := decide (sp.toNat % 256 + e.toNat > 255)

/-- The flags after `ADD SP,e8` and `LD HL,SP+e8`: `Z` and `N` 0 (R243, R248). -/
def spOffsetFlags (q : Result16) : Flags where
  z := false
  n := false
  h := q.h
  c := q.c

/-- A word plus one, modulo 65536 (R162, R245). -/
def inc16 (x : Word) : Word := BitVec.ofNat 16 (x.toNat + 1)

/-- A word minus one, modulo 65536 (R161, R244). -/
def dec16 (x : Word) : Word := BitVec.ofInt 16 ((x.toNat : Int) - 1)

/-! ## Bit operations (42_bitops.md) -/

/-- The flags after `BIT`: `Z` the complement of the bit, `N` 0, `H` 1, `C` unaffected (R170). -/
def bitFlags (u : Fin 8) (x : Byte) (old : Flags) : Flags where
  z := !x.getLsbD u.val
  n := false
  h := true
  c := old.c

/-- `x AND (255 - 2^u)` (R172). -/
def resetBit (u : Fin 8) (x : Byte) : Byte := x &&& BitVec.ofNat 8 (255 - 2 ^ u.val)

/-- `x OR 2^u` (R174). -/
def setBit (u : Fin 8) (x : Byte) : Byte := x ||| BitVec.ofNat 8 (2 ^ u.val)

/-- `x[3:0] ++ x[7:4]` (R176). -/
def swapNibbles (x : Byte) : Byte := BitVec.ofNat 8 (x.toNat % 16 * 16 + x.toNat / 16)

/-! ## Shifts and rotates (43_shifts.md R180) -/

/-- What a shift yields: the byte written and the bit shifted into `C`. -/
structure Shifted where
  res : Byte
  c : Bool
  deriving DecidableEq, Repr

/-- `C <- [7 <- 0] <- cin`: the left moves, by what enters bit 0 (R180). -/
def shiftLeft (x : Byte) (cin : Bool) : Shifted where
  res := BitVec.ofNat 8 (x.toNat * 2 + cin.toNat)
  c := x.getLsbD 7

/-- `cin -> [7 -> 0] -> C`: the right moves, by what enters bit 7 (R180). -/
def shiftRight (x : Byte) (cin : Bool) : Shifted where
  res := BitVec.ofNat 8 (cin.toNat * 128 + x.toNat / 2)
  c := x.getLsbD 0

/-- `RL`, `RLA`: `C <- [7 <- 0] <- C` (R180). -/
def rotLeftCarry (x : Byte) (c : Bool) : Shifted := shiftLeft x c

/-- `RLC`, `RLCA`: `C <- [7 <- 0] <- [7]` (R180). -/
def rotLeft (x : Byte) : Shifted := shiftLeft x (x.getLsbD 7)

/-- `RR`, `RRA`: `C -> [7 -> 0] -> C` (R180). -/
def rotRightCarry (x : Byte) (c : Bool) : Shifted := shiftRight x c

/-- `RRC`, `RRCA`: `[0] -> [7 -> 0] -> C` (R180). -/
def rotRight (x : Byte) : Shifted := shiftRight x (x.getLsbD 0)

/-- `SLA`: `C <- [7 <- 0] <- 0` (R180). -/
def shiftLeftArith (x : Byte) : Shifted := shiftLeft x false

/-- `SRA`: `[7] -> [7 -> 0] -> C` (R180). -/
def shiftRightArith (x : Byte) : Shifted := shiftRight x (x.getLsbD 7)

/-- `SRL`: `0 -> [7 -> 0] -> C` (R180). -/
def shiftRightLogic (x : Byte) : Shifted := shiftRight x false

/-- The flags after a `$CB`-prefixed shift: `Z` of the result, `N` and `H` 0, `C` the bit shifted out (R180). -/
def shiftFlags (q : Shifted) : Flags where
  z := decide (q.res = 0)
  n := false
  h := false
  c := q.c

/-- The flags after `RLA`, `RLCA`, `RRA`, `RRCA`: as `shiftFlags`, but `Z` is 0 whatever the result (R180). -/
def accShiftFlags (q : Shifted) : Flags where
  z := false
  n := false
  h := false
  c := q.c

/-! ## The flags byte (10_state.md R23) -/

/-- `Fbyte = F.Z*128 + F.N*64 + F.H*32 + F.C*16` (R23). -/
def flagsByte (f : Flags) : Byte :=
  BitVec.ofNat 8 (f.z.toNat * 128 + f.n.toNat * 64 + f.h.toNat * 32 + f.c.toNat * 16)

/-- The flags from a popped byte: bits 7 to 4; bits 3 to 0 are discarded (R23, R250). -/
def flagsOfByte (v : Byte) : Flags where
  z := v.getLsbD 7
  n := v.getLsbD 6
  h := v.getLsbD 5
  c := v.getLsbD 4

/-! ## Accumulator and flag operations (47_misc.md) -/

/-- `DAA`'s new `A` and `C` (R262; the algorithm is the spec's from general knowledge, D14, log entry 13). -/
def decimalAdjust (a : Byte) (f : Flags) : Byte × Bool :=
  if f.n then
    let a := if f.c then a - 0x60#8 else a
    (if f.h then a - 0x06#8 else a, f.c)
  else
    let high := f.c || decide (a.toNat > 0x99)
    let a := if high then a + 0x60#8 else a
    (if f.h || decide (a.toNat % 16 > 9) then a + 0x06#8 else a, high)

/-- The flags after `DAA`: `Z` of the new `A`, `N` unaffected, `H` 0, `C` by the operation (R262). -/
def daaFlags (q : Byte × Bool) (old : Flags) : Flags where
  z := decide (q.1 = 0)
  n := old.n
  h := false
  c := q.2

/-- The flags after `CCF`: `Z` unaffected, `N` and `H` 0, `C` complemented (R260). -/
def ccfFlags (old : Flags) : Flags where
  z := old.z
  n := false
  h := false
  c := !old.c

/-- The flags after `SCF`: `Z` unaffected, `N` and `H` 0, `C` 1 (R267). -/
def scfFlags (old : Flags) : Flags where
  z := old.z
  n := false
  h := false
  c := true

/-- The flags after `CPL`: `N` and `H` 1, `Z` and `C` unaffected (R261). -/
def cplFlags (old : Flags) : Flags where
  z := old.z
  n := true
  h := true
  c := old.c

end Sys2Proof.Machine
end

