-- ==== Sys2Proof/Machine/Bus.lean ====
section
/-! DEFINITION. The operations of the parameter `Bus` (20_memory.md R51), over what it holds. With no range given it is
`FlatRAM`. -/

namespace Sys2Proof

/-! ## What an address is -/

/-- Plain memory: every bit is stored and read. -/
def Wiring.ram : Wiring := { writable := 0xFF#8, fixed := 0x00#8, value := 0x00#8 }

/-- Memory that a write does not change. -/
def Wiring.rom : Wiring := { writable := 0x00#8, fixed := 0x00#8, value := 0x00#8 }

/-- What an address so wired reads as, its byte of memory being `v`. -/
def Wiring.reads (k : Wiring) (v : Byte) : Byte := (v &&& ~~~k.fixed) ||| (k.value &&& k.fixed)

/-- What a write of `v` to an address so wired leaves in its byte of memory, the byte having been `old`. -/
def Wiring.stores (k : Wiring) (old v : Byte) : Byte := (old &&& ~~~k.writable) ||| (v &&& k.writable)

end Sys2Proof

namespace Sys2Proof.Machine

/-- Whether a range covers an address. -/
def covers (r : Region) (a : Word) : Bool := decide (r.first.toNat ≤ a.toNat ∧ a.toNat ≤ r.last.toNat)

/-- What an address of a range is. -/
def placeIn (r : Region) (a : Word) : Place :=
  match r.behind with
  | .ram => .cell a Wiring.ram
  | .rom => .cell a Wiring.rom
  | .echo base => .cell (base + (a - r.first)) Wiring.ram
  | .absent v => .cell a { writable := 0x00#8, fixed := 0xFF#8, value := v }
  | .partly w f v => .cell a { writable := w, fixed := f, value := v }
  | .device => .device

/-- What an address is, `[IE]` and `[IF]` included (log entry 1). -/
def Bus.place (b : Bus) (a : Word) : Place :=
  match b.regions.find? fun r => covers r a with
  | some r => placeIn r a
  | none => .cell a Wiring.ram

/-- Whether `c` is the byte of memory of the address `a`. -/
def Bus.isCellOf (b : Bus) (c a : Word) : Bool :=
  match b.place a with
  | .cell d _ => decide (d = c)
  | .device => false

/-- Whether `c` is the byte of `[IE]` or of `[IF]`. No device stores to these: `[IE]` is "written only by programs", and
a request stays until a dispatch or a program clears it (60_exceptions.md R283; log entry 27). -/
def Bus.holdsInt (b : Bus) (c : Word) : Bool := b.isCellOf c b.ieAddr || b.isCellOf c b.ifAddr

/-! ## Devices -/

/-- The platform or a device stores bytes to memory, `[IE]` and `[IF]` excepted. -/
def Bus.storeCells (b : Bus) (cs : List (Word × Byte)) : Bus :=
  { b with mem := cs.foldl (fun m c => if b.holdsInt c.1 then m else m.write c.1.toNat c.2) b.mem }

/-- The devices see an access, and store what they store (R51; log entry 27). -/
def Bus.note (b : Bus) (e : Access) : Bus :=
  { b with past := e :: b.past }.storeCells (Config.deviceStores (e :: b.past))

/-! ## `Bus.read`, `Bus.write` -/

/-- The byte that `Bus.read(a)` returns. -/
def Bus.read (b : Bus) (a : Word) : Byte :=
  match b.place a with
  | .cell c k => k.reads (b.mem.read c.toNat)
  | .device => Config.deviceRead b.past a

/-- The side effect of `Bus.read(a)`: a device has seen it. "Reads of `IE_ADDR` and `IF_ADDR` have no side effects"
(93_implementation_defined.md U4, 60_exceptions.md R284, D23). -/
def Bus.touch (b : Bus) (a : Word) : Bus :=
  match b.place a with
  | .cell _ _ => b
  | .device => if a = b.ieAddr ∨ a = b.ifAddr then b else b.note (.read a)

/-- `Bus.write(a, v)`. -/
def Bus.write (b : Bus) (a : Word) (v : Byte) : Bus :=
  match b.place a with
  | .cell c k => { b with mem := b.mem.write c.toNat (k.stores (b.mem.read c.toNat) v) }
  | .device => b.note (.write a v)

/-! ## `[IE]` and `[IF]` -/

/-- `Bus.ie()`, the byte `[IE]`. -/
def Bus.ie (b : Bus) : Byte := b.read b.ieAddr

/-- `Bus.if_()`, the byte `[IF]`. -/
def Bus.intf (b : Bus) : Byte := b.read b.ifAddr

/-- `Bus.if_clear(i)`: clears bit `i` of `[IF]` (R51, 60_exceptions.md R288), stored to by programs or not (log
entry 16). -/
def Bus.ifClear (b : Bus) (i : Fin 8) : Bus :=
  match b.place b.ifAddr with
  | .cell c _ => { b with mem := b.mem.write c.toNat (b.mem.read c.toNat &&& BitVec.ofNat 8 (255 - 2 ^ i.val)) }
  | .device => b.note (.ack i)

/-- The platform sets bits of `[IF]`. -/
def Bus.request (b : Bus) (requests : Byte) : Bus :=
  match b.place b.ifAddr with
  | .cell c _ => { b with mem := b.mem.write c.toNat (b.mem.read c.toNat ||| requests) }
  | .device => b

/-- The platform stores to memory and sets bits of `[IF]` between two steps, and its devices have had their turn
(60_exceptions.md R283, R300: "between two steps the platform may change `Bus` state, in particular set bits of `[IF]`").
-/
def Bus.turn (b : Bus) (t : Arrival) : Bus :=
  ({ b with past := .turn t :: b.past }.storeCells t.stores).request t.requests

/-! ## Loading from outside the machine -/

/-- Load a byte into memory from outside the machine, where a fetch at `a` will find it: an address that does not show
all of its own byte becomes memory (log entry 20). -/
def Bus.load (b : Bus) (a : Word) (v : Byte) : Bus :=
  let mem := b.mem.write a.toNat v
  if b.place a = .cell a Wiring.ram ∨ b.place a = .cell a Wiring.rom then { b with mem := mem }
  else { b with mem := mem, regions := { first := a, last := a, behind := .ram } :: b.regions }

end Sys2Proof.Machine
end

