-- ==== Sys2Proof/Machine/Ops.lean ====
section
/-! DEFINITION. The operations over memory, the stack and the interrupt machinery that the meanings and the
step share. Addresses are words, so address arithmetic wraps modulo 65536 everywhere (20_memory.md R64). -/

namespace Sys2Proof.Machine

/-! ## Memory (20_memory.md) -/

/-- The byte that `MemRead(addr, 1)` returns: `Bus.read` (R52). -/
def State.read (s : State) (a : Word) : Byte := s.bus.read a

/-- What `MemRead(addr, 1)` changes: nothing, but that a device has seen it (R51, R58). -/
def State.touch (s : State) (a : Word) : State := { s with bus := s.bus.touch a }

/-- `MemWrite(addr, 1, v)`: `Bus.write` (R53). -/
def State.write (s : State) (a : Word) (v : Byte) : State := { s with bus := s.bus.write a v }

/-- `MemWrite(addr, 2, v)`: the low byte at `addr`, then the high byte at `addr + 1` (R55). -/
def State.write16 (s : State) (a v : Word) : State := (s.write a (loByte v)).write (a + 1) (hiByte v)

/-! ## The stack (46_stack.md) -/

/-- `Push16(v)`: the high byte at `SP - 1`, then the low byte at `SP - 2` (R240). -/
def State.push16 (s : State) (v : Word) : State :=
  let s := { s with sp := s.sp - 1 }
  let s := s.write s.sp (hiByte v)
  let s := { s with sp := s.sp - 1 }
  s.write s.sp (loByte v)

/-- `Pop16()`: the low byte is read at `SP`, then the high byte at `SP + 1` (R241). -/
def State.pop16 (s : State) : Word × State :=
  let lo := s.read s.sp
  let s := { s.touch s.sp with sp := s.sp + 1 }
  let hi := s.read s.sp
  (joinBytes hi lo, { s.touch s.sp with sp := s.sp + 1 })

/-! ## Control transfers (45_jumps.md) -/

/-- `PC <- target`. -/
def State.jump (s : State) (target : Word) : State := { s with pc := target }

/-- `Push16(PC); PC <- target` (R220, R230). -/
def State.call (s : State) (target : Word) : State := (s.push16 s.pc).jump target

/-- `PC <- Pop16()` (R228). -/
def State.popPc (s : State) : State := s.pop16.2.jump s.pop16.1

/-! ## Interrupts (60_exceptions.md) -/

/-- The mask of the bits of `[IE]` and `[IF]` that count, `2^NumIntSources - 1` (R284). -/
def intMask (n : Fin 9) : Byte := BitVec.ofNat 8 (2 ^ n.val - 1)

/-- `pending_set` (R284). -/
def State.pendingSet (s : State) : Byte := s.bus.ie &&& s.bus.intf &&& intMask s.params.numIntSources

/-- "An interrupt is pending" (R284). -/
def State.pending (s : State) : Bool := s.pendingSet != 0#8

/-- The lowest-numbered pending source, the one dispatched (R285). -/
def State.nextSource (s : State) : Option (Fin 8) :=
  [0, 1, 2, 3, 4, 5, 6, 7].find? fun i : Fin 8 => s.pendingSet.getLsbD i.val

/-- TAKING AN INTERRUPT, `Dispatch(i)` (R288), the one entry this CPU has: `IME`, `ei_pending` and `halt_bug`
become 0, the request bit is cleared, `PC` is pushed, `PC` goes to the source's handler, the mode is running;
nothing else is saved. The sequence is the spec's from general knowledge (D10; log entry 16). -/
def State.takeInterrupt (s : State) (i : Fin 8) : State :=
  let s := { s with ime := false, eiPending := false, haltBug := false }
  let s := { s with bus := s.bus.ifClear i }
  let s := s.call (s.params.intVectors.get i)
  { s with mode := .running }

/-- RETURNING FROM AN INTERRUPT (R289, 45_jumps.md R229): `PC <- Pop16(); IME <- 1`. -/
def State.returnFromInterrupt (s : State) : State := { s.popPc with ime := true }

/-! ## The platform (00_scope.md R14) -/

/-- What the PLATFORM does between two steps (`IntArrival`: 60_exceptions.md R283, 00_scope.md R7): it sets bits of
`[IF]` and stores to memory, its devices have their turn, and it may end a `STOP` where the parameter `StopBehaviour`
leaves that to it (log entries 7 and 9). -/
def State.platformTurn (s : State) (t : Arrival) : State :=
  { s with
    bus := s.bus.turn t
    mode := if s.mode = .stopped ∧ s.params.stopBehaviour = .wakes ∧ t.endsStop = true then .running else s.mode }

/-- The turn of the platform that is due before the next step, if one is (60_exceptions.md R300). -/
def State.arrive (s : State) : State :=
  match s.arrivals with
  | [] => s
  | t :: rest => { s with arrivals := rest }.platformTurn t

end Sys2Proof.Machine
end

