-- ==== Sys2Proof/Machine/Operands.lean ====
section
/-! DEFINITION. The operand forms: registers, pairs, `[HL]` and the other addressing modes, conditions, and the
shapes in which the meanings read an operand and write a result. -/

namespace Sys2Proof.Machine

/-! ## Registers (10_state.md R21, R22) -/

/-- Read an `r8`. -/
def Regs.get (g : Regs) : Reg8 → Byte
  | .a => g.a
  | .b => g.b
  | .c => g.c
  | .d => g.d
  | .e => g.e
  | .h => g.h
  | .l => g.l

/-- Write an `r8`. -/
def Regs.set (g : Regs) (r : Reg8) (v : Byte) : Regs :=
  match r with
  | .a => { g with a := v }
  | .b => { g with b := v }
  | .c => { g with c := v }
  | .d => { g with d := v }
  | .e => { g with e := v }
  | .h => { g with h := v }
  | .l => { g with l := v }

/-- Read a pair: the first letter names the high byte (R22). -/
def Regs.get16 (g : Regs) : Reg16 → Word
  | .bc => joinBytes g.b g.c
  | .de => joinBytes g.d g.e
  | .hl => joinBytes g.h g.l

/-- Write a pair: it aliases its two halves (R22). -/
def Regs.set16 (g : Regs) (r : Reg16) (v : Word) : Regs :=
  match r with
  | .bc => { g with b := hiByte v, c := loByte v }
  | .de => { g with d := hiByte v, e := loByte v }
  | .hl => { g with h := hiByte v, l := loByte v }

/-- `r8[i]` for a register. -/
def State.r8 (s : State) (r : Reg8) : Byte := s.regs.get r

/-- `r8[i] <- v` for a register. -/
def State.setR8 (s : State) (r : Reg8) (v : Byte) : State := { s with regs := s.regs.set r v }

/-- `r16[i]`. -/
def State.r16 (s : State) (r : Reg16) : Word := s.regs.get16 r

/-- `r16[i] <- v`. -/
def State.setR16 (s : State) (r : Reg16) (v : Word) : State := { s with regs := s.regs.set16 r v }

/-- The accumulator. -/
def State.acc (s : State) : Byte := s.r8 .a

/-- `HL`. -/
def State.hl (s : State) : Word := s.r16 .hl

/-- `AF = A*256 + Fbyte` (R22, R23). -/
def State.af (s : State) : Word := joinBytes s.acc (flagsByte s.f)

/-- `AF <- v` (46_stack.md R250). -/
def State.setAf (s : State) (v : Word) : State :=
  { s.setR8 .a (hiByte v) with f := flagsOfByte (loByte v) }

/-- Write the flags. -/
def State.setFlags (s : State) (f : Flags) : State := { s with f := f }

/-! ## Memory operands (20_memory.md R60) -/

/-- `r8[6]`, the byte pointed to by HL. -/
def State.atHl (s : State) : Byte := s.read s.hl

/-- What reading `r8[6]` changes. -/
def State.touchHl (s : State) : State := s.touch s.hl

/-- `r8[6] <- v`. -/
def State.setAtHl (s : State) (v : Byte) : State := s.write s.hl v

/-- The high page: `$FF00 + n` (R63). -/
def highPage (n : Byte) : Word := 0xFF00#16 + zext16 n

/-- The target of a relative jump from the address after it (45_jumps.md R225). -/
def relTarget (pc : Word) (e : Byte) : Word := pc + sext16 e

/-- `cond(cc)` (30_encoding.md R86). -/
def Flags.holds (f : Flags) : Cond → Bool
  | .nz => !f.z
  | .z => f.z
  | .nc => !f.c
  | .c => f.c

/-! ## Shapes of meanings -/

/-- `ADD A,x`, `ADC A,x` with the carry-in (40_alu8.md R122, R125). -/
def State.addA (s : State) (x : Byte) (cin : Bool) : State :=
  (s.setR8 .a (add8 s.acc x cin).res).setFlags (addFlags (add8 s.acc x cin))

/-- `SUB A,x`, `SBC A,x` with the carry-in (R141, R144). -/
def State.subA (s : State) (x : Byte) (cin : Bool) : State :=
  (s.setR8 .a (sub8 s.acc x cin).res).setFlags (subFlags (sub8 s.acc x cin))

/-- `CP A,x`: the flags of the subtraction; `A` is not written (R131). -/
def State.cpA (s : State) (x : Byte) : State := s.setFlags (subFlags (sub8 s.acc x false))

/-- `AND A,x` (R128). -/
def State.andA (s : State) (x : Byte) : State :=
  (s.setR8 .a (s.acc &&& x)).setFlags (andFlags (s.acc &&& x))

/-- `OR A,x` (R138). -/
def State.orA (s : State) (x : Byte) : State :=
  (s.setR8 .a (s.acc ||| x)).setFlags (zeroOnlyFlags (s.acc ||| x))

/-- `XOR A,x` (R147). -/
def State.xorA (s : State) (x : Byte) : State :=
  (s.setR8 .a (s.acc ^^^ x)).setFlags (zeroOnlyFlags (s.acc ^^^ x))

/-- `ADD HL,x` (41_alu16.md R160). -/
def State.addHl (s : State) (x : Word) : State :=
  (s.setR16 .hl (addHl16 s.hl x).res).setFlags (addHlFlags (addHl16 s.hl x) s.f)

/-- A shift of a register, with the `$CB`-prefixed flags (43_shifts.md R180). -/
def State.shiftR8 (s : State) (r : Reg8) (q : Shifted) : State := (s.setR8 r q.res).setFlags (shiftFlags q)

/-- A shift of the byte at HL: the byte is read, the result written back to HL (R180). -/
def State.shiftAtHl (s : State) (q : Shifted) : State := (s.touchHl.setAtHl q.res).setFlags (shiftFlags q)

/-- A one-byte accumulator rotate: `Z` is cleared (R180). -/
def State.shiftAcc (s : State) (q : Shifted) : State := (s.setR8 .a q.res).setFlags (accShiftFlags q)

end Sys2Proof.Machine
end

