-- ==== Sys2Proof/Machine/Alu16.lean ====
section
/-! DEFINITION. 16-bit arithmetic instructions (41_alu16.md). -/

namespace Sys2Proof.Machine

/-- `ADD HL,r16` (R160): `Z` unaffected. -/
def execAddHlR16 (r : Reg16) (s : State) : Result := .next (s.addHl (s.r16 r))

/-- `DEC r16` (R161): no flag changes. -/
def execDecR16 (r : Reg16) (s : State) : Result := .next (s.setR16 r (dec16 (s.r16 r)))

/-- `INC r16` (R162): no flag changes. -/
def execIncR16 (r : Reg16) (s : State) : Result := .next (s.setR16 r (inc16 (s.r16 r)))

end Sys2Proof.Machine
end

