-- ==== Sys2Proof/Machine/Alu8.lean ====
section
/-! DEFINITION. 8-bit arithmetic and logic instructions (40_alu8.md). -/

namespace Sys2Proof.Machine

/-- `ADC A,r8` (R122); the old carry is the carry-in. -/
def execAdcAR8 (r : Reg8) (s : State) : Result := .next (s.addA (s.r8 r) s.f.c)

/-- `ADC A,[HL]` (R123); the old carry is the carry-in. -/
def execAdcAHl (s : State) : Result := .next (s.touchHl.addA s.atHl s.f.c)

/-- `ADC A,n8` (R124); the old carry is the carry-in. -/
def execAdcAN8 (n : Byte) (s : State) : Result := .next (s.addA n s.f.c)

/-- `ADD A,r8` (R125). -/
def execAddAR8 (r : Reg8) (s : State) : Result := .next (s.addA (s.r8 r) false)

/-- `ADD A,[HL]` (R126). -/
def execAddAHl (s : State) : Result := .next (s.touchHl.addA s.atHl false)

/-- `ADD A,n8` (R127). -/
def execAddAN8 (n : Byte) (s : State) : Result := .next (s.addA n false)

/-- `AND A,r8` (R128). -/
def execAndAR8 (r : Reg8) (s : State) : Result := .next (s.andA (s.r8 r))

/-- `AND A,[HL]` (R129). -/
def execAndAHl (s : State) : Result := .next (s.touchHl.andA s.atHl)

/-- `AND A,n8` (R130). -/
def execAndAN8 (n : Byte) (s : State) : Result := .next (s.andA n)

/-- `CP A,r8` (R131); `A` is not written. -/
def execCpAR8 (r : Reg8) (s : State) : Result := .next (s.cpA (s.r8 r))

/-- `CP A,[HL]` (R132); `A` is not written. -/
def execCpAHl (s : State) : Result := .next (s.touchHl.cpA s.atHl)

/-- `CP A,n8` (R133); `A` is not written. -/
def execCpAN8 (n : Byte) (s : State) : Result := .next (s.cpA n)

/-- `OR A,r8` (R138). -/
def execOrAR8 (r : Reg8) (s : State) : Result := .next (s.orA (s.r8 r))

/-- `OR A,[HL]` (R139). -/
def execOrAHl (s : State) : Result := .next (s.touchHl.orA s.atHl)

/-- `OR A,n8` (R140). -/
def execOrAN8 (n : Byte) (s : State) : Result := .next (s.orA n)

/-- `SBC A,r8` (R141); the old carry is the carry-in. -/
def execSbcAR8 (r : Reg8) (s : State) : Result := .next (s.subA (s.r8 r) s.f.c)

/-- `SBC A,[HL]` (R142); the old carry is the carry-in. -/
def execSbcAHl (s : State) : Result := .next (s.touchHl.subA s.atHl s.f.c)

/-- `SBC A,n8` (R143); the old carry is the carry-in. -/
def execSbcAN8 (n : Byte) (s : State) : Result := .next (s.subA n s.f.c)

/-- `SUB A,r8` (R144). -/
def execSubAR8 (r : Reg8) (s : State) : Result := .next (s.subA (s.r8 r) false)

/-- `SUB A,[HL]` (R145). -/
def execSubAHl (s : State) : Result := .next (s.touchHl.subA s.atHl false)

/-- `SUB A,n8` (R146). -/
def execSubAN8 (n : Byte) (s : State) : Result := .next (s.subA n false)

/-- `XOR A,r8` (R147). -/
def execXorAR8 (r : Reg8) (s : State) : Result := .next (s.xorA (s.r8 r))

/-- `XOR A,[HL]` (R148). -/
def execXorAHl (s : State) : Result := .next (s.touchHl.xorA s.atHl)

/-- `XOR A,n8` (R149). -/
def execXorAN8 (n : Byte) (s : State) : Result := .next (s.xorA n)

/-- `DEC r8` (R134): `C` unaffected. -/
def execDecR8 (r : Reg8) (s : State) : Result :=
  .next ((s.setR8 r (dec8 (s.r8 r))).setFlags (decFlags (s.r8 r) s.f))

/-- `DEC [HL]` (R135). -/
def execDecHlInd (s : State) : Result :=
  .next ((s.touchHl.setAtHl (dec8 s.atHl)).setFlags (decFlags s.atHl s.f))

/-- `INC r8` (R136): `C` unaffected. -/
def execIncR8 (r : Reg8) (s : State) : Result :=
  .next ((s.setR8 r (inc8 (s.r8 r))).setFlags (incFlags (s.r8 r) s.f))

/-- `INC [HL]` (R137). -/
def execIncHlInd (s : State) : Result :=
  .next ((s.touchHl.setAtHl (inc8 s.atHl)).setFlags (incFlags s.atHl s.f))

end Sys2Proof.Machine
end

