-- ==== Sys2Proof/Machine/BitOps.lean ====
section
/-! DEFINITION. Bit operations instructions (42_bitops.md). -/

namespace Sys2Proof.Machine

/-- `BIT u3,r8` (R170): only the flags are written. -/
def execBitR8 (u : Fin 8) (r : Reg8) (s : State) : Result := .next (s.setFlags (bitFlags u (s.r8 r) s.f))

/-- `BIT u3,[HL]` (R171): memory is read only. -/
def execBitHl (u : Fin 8) (s : State) : Result := .next (s.touchHl.setFlags (bitFlags u s.atHl s.f))

/-- `RES u3,r8` (R172): no flag changes. -/
def execResR8 (u : Fin 8) (r : Reg8) (s : State) : Result := .next (s.setR8 r (resetBit u (s.r8 r)))

/-- `RES u3,[HL]` (R173): the write always happens. -/
def execResHl (u : Fin 8) (s : State) : Result := .next (s.touchHl.setAtHl (resetBit u s.atHl))

/-- `SET u3,r8` (R174): no flag changes. -/
def execSetR8 (u : Fin 8) (r : Reg8) (s : State) : Result := .next (s.setR8 r (setBit u (s.r8 r)))

/-- `SET u3,[HL]` (R175): the write always happens. -/
def execSetHl (u : Fin 8) (s : State) : Result := .next (s.touchHl.setAtHl (setBit u s.atHl))

/-- `SWAP r8` (R176). -/
def execSwapR8 (r : Reg8) (s : State) : Result :=
  .next ((s.setR8 r (swapNibbles (s.r8 r))).setFlags (zeroOnlyFlags (swapNibbles (s.r8 r))))

/-- `SWAP [HL]` (R177). -/
def execSwapHl (s : State) : Result :=
  .next ((s.touchHl.setAtHl (swapNibbles s.atHl)).setFlags (zeroOnlyFlags (swapNibbles s.atHl)))

end Sys2Proof.Machine
end

