-- ==== Sys2Proof/Machine/Illegal.lean ====
section
/-! DEFINITION. The eleven bytes that encode no instruction (30_encoding.md R100, 60_exceptions.md R281). -/

namespace Sys2Proof.Machine

/-- `mode <- Faulted`; "no other state changes" (R100). -/
def State.lockUp (s : State) : State := { s with mode := .faulted }

/-- A byte that encodes no instruction: `mode <- Faulted; raise Fault(IllegalOpcode b)`, or as the parameter
`IllegalOpcode` has it (R100, 00_scope.md R7; log entry 8). -/
def State.illegal (s : State) (b : Byte) : Result :=
  match s.params.illegalOpcode with
  | .fault => .fault (.illegalOpcode b s.lockUp)
  | .stuck => .next s.lockUp
  | .refuse => .refused (.illegalOpcode b)

/-- The byte $D3 (R100). -/
def execIllegalD3 (s : State) : Result := s.illegal 0xD3#8

/-- The byte $DB (R100). -/
def execIllegalDB (s : State) : Result := s.illegal 0xDB#8

/-- The byte $DD (R100). -/
def execIllegalDD (s : State) : Result := s.illegal 0xDD#8

/-- The byte $E3 (R100). -/
def execIllegalE3 (s : State) : Result := s.illegal 0xE3#8

/-- The byte $E4 (R100). -/
def execIllegalE4 (s : State) : Result := s.illegal 0xE4#8

/-- The byte $EB (R100). -/
def execIllegalEB (s : State) : Result := s.illegal 0xEB#8

/-- The byte $EC (R100). -/
def execIllegalEC (s : State) : Result := s.illegal 0xEC#8

/-- The byte $ED (R100). -/
def execIllegalED (s : State) : Result := s.illegal 0xED#8

/-- The byte $F4 (R100). -/
def execIllegalF4 (s : State) : Result := s.illegal 0xF4#8

/-- The byte $FC (R100). -/
def execIllegalFC (s : State) : Result := s.illegal 0xFC#8

/-- The byte $FD (R100). -/
def execIllegalFD (s : State) : Result := s.illegal 0xFD#8

end Sys2Proof.Machine
end

