-- ==== Sys2Proof/Machine/Jumps.lean ====
section
/-! DEFINITION. Jumps and subroutines (45_jumps.md); none writes a flag. `s.pc` is already the address of the instruction
after this one (10_state.md R29). -/

namespace Sys2Proof.Machine

/-- `CALL n16` (R220). -/
def execCallN16 (n : Word) (s : State) : Result := .next (s.call n)

/-- `CALL cc,n16` (R221); untaken, nothing changes. -/
def execCallCcN16 (cc : Cond) (n : Word) (s : State) : Result := .next (if s.f.holds cc then s.call n else s)

/-- `JP HL` (R222): the value of HL, not the memory at it. -/
def execJpHl (s : State) : Result := .next (s.jump s.hl)

/-- `JP n16` (R223). -/
def execJpN16 (n : Word) (s : State) : Result := .next (s.jump n)

/-- `JP cc,n16` (R224). -/
def execJpCcN16 (cc : Cond) (n : Word) (s : State) : Result := .next (if s.f.holds cc then s.jump n else s)

/-- `JR e8` (R225): the base is the address after the JR. -/
def execJrE8 (e : Byte) (s : State) : Result := .next (s.jump (relTarget s.pc e))

/-- `JR cc,e8` (R226). -/
def execJrCcE8 (cc : Cond) (e : Byte) (s : State) : Result :=
  .next (if s.f.holds cc then s.jump (relTarget s.pc e) else s)

/-- `RET cc` (R227); untaken, the stack is not read. -/
def execRetCc (cc : Cond) (s : State) : Result := .next (if s.f.holds cc then s.popPc else s)

/-- `RET` (R228). -/
def execRet (s : State) : Result := .next s.popPc

/-- `RETI` (R229): `PC <- Pop16(); IME <- 1`, without `EI`'s delay. -/
def execReti (s : State) : Result := .next s.returnFromInterrupt

/-- `RST vec` (R230). -/
def execRst (vec : Word) (s : State) : Result := .next (s.call vec)

end Sys2Proof.Machine
end

