-- ==== Sys2Proof/Machine/Loads.lean ====
section
/-! DEFINITION. Load instructions (44_loads.md); none writes a flag. -/

namespace Sys2Proof.Machine

/-- `LD r8,r8` (R200). -/
def execLdR8R8 (dst src : Reg8) (s : State) : Result := .next (s.setR8 dst (s.r8 src))

/-- `LD r8,n8` (R201). -/
def execLdR8N8 (dst : Reg8) (n : Byte) (s : State) : Result := .next (s.setR8 dst n)

/-- `LD r16,n16` (R202). -/
def execLdR16N16 (dst : Reg16) (n : Word) (s : State) : Result := .next (s.setR16 dst n)

/-- `LD [HL],r8` (R203). -/
def execLdHlR8 (src : Reg8) (s : State) : Result := .next (s.setAtHl (s.r8 src))

/-- `LD [HL],n8` (R204). -/
def execLdHlN8 (n : Byte) (s : State) : Result := .next (s.setAtHl n)

/-- `LD r8,[HL]` (R205): the address is the old HL. -/
def execLdR8Hl (dst : Reg8) (s : State) : Result := .next (s.touchHl.setR8 dst s.atHl)

/-- `LD [r16],A` (R206). -/
def execLdR16A (p : Reg16) (s : State) : Result := .next (s.write (s.r16 p) s.acc)

/-- `LD [n16],A` (R207). -/
def execLdN16A (n : Word) (s : State) : Result := .next (s.write n s.acc)

/-- `LDH [n8],A` (R208). -/
def execLdhN8A (n : Byte) (s : State) : Result := .next (s.write (highPage n) s.acc)

/-- `LDH [C],A` (R209). -/
def execLdhCA (s : State) : Result := .next (s.write (highPage (s.r8 .c)) s.acc)

/-- `LD A,[r16]` (R210). -/
def execLdAR16 (p : Reg16) (s : State) : Result := .next ((s.touch (s.r16 p)).setR8 .a (s.read (s.r16 p)))

/-- `LD A,[n16]` (R211). -/
def execLdAN16 (n : Word) (s : State) : Result := .next ((s.touch n).setR8 .a (s.read n))

/-- `LDH A,[n8]` (R212). -/
def execLdhAN8 (n : Byte) (s : State) : Result :=
  .next ((s.touch (highPage n)).setR8 .a (s.read (highPage n)))

/-- `LDH A,[C]` (R213). -/
def execLdhAC (s : State) : Result :=
  .next ((s.touch (highPage (s.r8 .c))).setR8 .a (s.read (highPage (s.r8 .c))))

/-- `LD [HL+],A` (R214): the store uses the old HL. -/
def execLdHliA (s : State) : Result := .next ((s.setAtHl s.acc).setR16 .hl (inc16 s.hl))

/-- `LD [HL-],A` (R215): the store uses the old HL. -/
def execLdHldA (s : State) : Result := .next ((s.setAtHl s.acc).setR16 .hl (dec16 s.hl))

/-- `LD A,[HL+]` (R216): the read uses the old HL. -/
def execLdAHli (s : State) : Result := .next ((s.touchHl.setR8 .a s.atHl).setR16 .hl (inc16 s.hl))

/-- `LD A,[HL-]` (R217): the read uses the old HL. -/
def execLdAHld (s : State) : Result := .next ((s.touchHl.setR8 .a s.atHl).setR16 .hl (dec16 s.hl))

end Sys2Proof.Machine
end

