-- ==== Sys2Proof/Machine/Misc.lean ====
section
/-! DEFINITION. Miscellaneous instructions (47_misc.md). -/

namespace Sys2Proof.Machine

/-- `CCF` (R260). -/
def execCcf (s : State) : Result := .next (s.setFlags (ccfFlags s.f))

/-- `CPL` (R261): `A <- 255 - A`. -/
def execCpl (s : State) : Result := .next ((s.setR8 .a (~~~s.acc)).setFlags (cplFlags s.f))

/-- `DAA` (R262). -/
def execDaa (s : State) : Result :=
  .next ((s.setR8 .a (decimalAdjust s.acc s.f).1).setFlags (daaFlags (decimalAdjust s.acc s.f) s.f))

/-- `DI` (R263): at once; a pending `EI` is cancelled (D11). -/
def execDi (s : State) : Result := .next { s with ime := false, eiPending := false }

/-- `EI` (R264): `IME` itself is set by the step after the next instruction. -/
def execEi (s : State) : Result := .next { s with eiPending := true }

/-- `HALT` (R265), its three cases by `IME` and by whether an interrupt is pending. -/
def execHalt (s : State) : Result :=
  .next (if s.ime || !s.pending then { s with mode := .halted } else { s with haltBug := true })

/-- `NOP` (R266). -/
def execNop (s : State) : Result := .next s

/-- `SCF` (R267). -/
def execScf (s : State) : Result := .next (s.setFlags (scfFlags s.f))

/-- `STOP` (R268): the second byte was fetched and its value is ignored (R101; log entry 10), but where `StopBehaviour`
is supplied: then a second byte other than $00 is refused (93_implementation_defined.md U5). -/
def execStop (pad : Byte) (s : State) : Result :=
  if s.params.stopBehaviour = .wakes ∧ pad ≠ 0x00#8 then .refused .stopSecondByte
  else .next { s with mode := .stopped }

end Sys2Proof.Machine
end

