-- ==== Sys2Proof/Machine/Shifts.lean ====
section
/-! DEFINITION. Bit shift and rotate instructions (43_shifts.md). -/

namespace Sys2Proof.Machine

/-- `RL r8` (R181). -/
def execRlR8 (r : Reg8) (s : State) : Result := .next (s.shiftR8 r (rotLeftCarry (s.r8 r) s.f.c))

/-- `RL [HL]` (R182). -/
def execRlHl (s : State) : Result := .next (s.shiftAtHl (rotLeftCarry s.atHl s.f.c))

/-- `RLA` (R183): `Z` is cleared whatever the result. -/
def execRla (s : State) : Result := .next (s.shiftAcc (rotLeftCarry s.acc s.f.c))

/-- `RLC r8` (R184). -/
def execRlcR8 (r : Reg8) (s : State) : Result := .next (s.shiftR8 r (rotLeft (s.r8 r)))

/-- `RLC [HL]` (R185). -/
def execRlcHl (s : State) : Result := .next (s.shiftAtHl (rotLeft s.atHl))

/-- `RLCA` (R186): `Z` is cleared whatever the result. -/
def execRlca (s : State) : Result := .next (s.shiftAcc (rotLeft s.acc))

/-- `RR r8` (R187). -/
def execRrR8 (r : Reg8) (s : State) : Result := .next (s.shiftR8 r (rotRightCarry (s.r8 r) s.f.c))

/-- `RR [HL]` (R188). -/
def execRrHl (s : State) : Result := .next (s.shiftAtHl (rotRightCarry s.atHl s.f.c))

/-- `RRA` (R189): `Z` is cleared whatever the result. -/
def execRra (s : State) : Result := .next (s.shiftAcc (rotRightCarry s.acc s.f.c))

/-- `RRC r8` (R190). -/
def execRrcR8 (r : Reg8) (s : State) : Result := .next (s.shiftR8 r (rotRight (s.r8 r)))

/-- `RRC [HL]` (R191). -/
def execRrcHl (s : State) : Result := .next (s.shiftAtHl (rotRight s.atHl))

/-- `RRCA` (R192): `Z` is cleared whatever the result. -/
def execRrca (s : State) : Result := .next (s.shiftAcc (rotRight s.acc))

/-- `SLA r8` (R193). -/
def execSlaR8 (r : Reg8) (s : State) : Result := .next (s.shiftR8 r (shiftLeftArith (s.r8 r)))

/-- `SLA [HL]` (R194). -/
def execSlaHl (s : State) : Result := .next (s.shiftAtHl (shiftLeftArith s.atHl))

/-- `SRA r8` (R195). -/
def execSraR8 (r : Reg8) (s : State) : Result := .next (s.shiftR8 r (shiftRightArith (s.r8 r)))

/-- `SRA [HL]` (R196). -/
def execSraHl (s : State) : Result := .next (s.shiftAtHl (shiftRightArith s.atHl))

/-- `SRL r8` (R197). -/
def execSrlR8 (r : Reg8) (s : State) : Result := .next (s.shiftR8 r (shiftRightLogic (s.r8 r)))

/-- `SRL [HL]` (R198). -/
def execSrlHl (s : State) : Result := .next (s.shiftAtHl (shiftRightLogic s.atHl))

end Sys2Proof.Machine
end

