-- ==== Sys2Proof/Machine/Stack.lean ====
section
/-! DEFINITION. Stack operations instructions (46_stack.md). -/

namespace Sys2Proof.Machine

/-- `ADD HL,SP` (R242). -/
def execAddHlSp (s : State) : Result := .next (s.addHl s.sp)

/-- `ADD SP,e8` (R243). -/
def execAddSpE8 (e : Byte) (s : State) : Result :=
  .next ({ s with sp := (addSpOffset s.sp e).res }.setFlags (spOffsetFlags (addSpOffset s.sp e)))

/-- `DEC SP` (R244): no flag changes. -/
def execDecSp (s : State) : Result := .next { s with sp := dec16 s.sp }

/-- `INC SP` (R245): no flag changes. -/
def execIncSp (s : State) : Result := .next { s with sp := inc16 s.sp }

/-- `LD SP,n16` (R246). -/
def execLdSpN16 (n : Word) (s : State) : Result := .next { s with sp := n }

/-- `LD [n16],SP` (R247): the low byte first. -/
def execLdN16Sp (n : Word) (s : State) : Result := .next (s.write16 n s.sp)

/-- `LD HL,SP+e8` (R248): the flags of `ADD SP,e8`. -/
def execLdHlSpE8 (e : Byte) (s : State) : Result :=
  .next ((s.setR16 .hl (addSpOffset s.sp e).res).setFlags (spOffsetFlags (addSpOffset s.sp e)))

/-- `LD SP,HL` (R249). -/
def execLdSpHl (s : State) : Result := .next { s with sp := s.hl }

/-- `POP AF` (R250). -/
def execPopAf (s : State) : Result := .next (s.pop16.2.setAf s.pop16.1)

/-- `POP r16` (R251). -/
def execPopR16 (r : Reg16) (s : State) : Result := .next (s.pop16.2.setR16 r s.pop16.1)

/-- `PUSH AF` (R252). -/
def execPushAf (s : State) : Result := .next (s.push16 s.af)

/-- `PUSH r16` (R253). -/
def execPushR16 (r : Reg16) (s : State) : Result := .next (s.push16 (s.r16 r))

end Sys2Proof.Machine
end

