-- ==== Sys2Proof/Machine/Dispatch.lean ====
section
/-! DEFINITION. One arm per instruction, one meaning per arm. -/

namespace Sys2Proof.Machine

def exec (i : Instr) (s : State) : Host.Outcome State Fault Refusal :=
  match i with
  | .adcAR8 r => Sys2Proof.Machine.execAdcAR8 r s
  | .adcAHl => Sys2Proof.Machine.execAdcAHl s
  | .adcAN8 n => Sys2Proof.Machine.execAdcAN8 n s
  | .addAR8 r => Sys2Proof.Machine.execAddAR8 r s
  | .addAHl => Sys2Proof.Machine.execAddAHl s
  | .addAN8 n => Sys2Proof.Machine.execAddAN8 n s
  | .andAR8 r => Sys2Proof.Machine.execAndAR8 r s
  | .andAHl => Sys2Proof.Machine.execAndAHl s
  | .andAN8 n => Sys2Proof.Machine.execAndAN8 n s
  | .cpAR8 r => Sys2Proof.Machine.execCpAR8 r s
  | .cpAHl => Sys2Proof.Machine.execCpAHl s
  | .cpAN8 n => Sys2Proof.Machine.execCpAN8 n s
  | .decR8 r => Sys2Proof.Machine.execDecR8 r s
  | .decHlInd => Sys2Proof.Machine.execDecHlInd s
  | .incR8 r => Sys2Proof.Machine.execIncR8 r s
  | .incHlInd => Sys2Proof.Machine.execIncHlInd s
  | .orAR8 r => Sys2Proof.Machine.execOrAR8 r s
  | .orAHl => Sys2Proof.Machine.execOrAHl s
  | .orAN8 n => Sys2Proof.Machine.execOrAN8 n s
  | .sbcAR8 r => Sys2Proof.Machine.execSbcAR8 r s
  | .sbcAHl => Sys2Proof.Machine.execSbcAHl s
  | .sbcAN8 n => Sys2Proof.Machine.execSbcAN8 n s
  | .subAR8 r => Sys2Proof.Machine.execSubAR8 r s
  | .subAHl => Sys2Proof.Machine.execSubAHl s
  | .subAN8 n => Sys2Proof.Machine.execSubAN8 n s
  | .xorAR8 r => Sys2Proof.Machine.execXorAR8 r s
  | .xorAHl => Sys2Proof.Machine.execXorAHl s
  | .xorAN8 n => Sys2Proof.Machine.execXorAN8 n s
  | .addHlR16 r => Sys2Proof.Machine.execAddHlR16 r s
  | .decR16 r => Sys2Proof.Machine.execDecR16 r s
  | .incR16 r => Sys2Proof.Machine.execIncR16 r s
  | .bitR8 u r => Sys2Proof.Machine.execBitR8 u r s
  | .bitHl u => Sys2Proof.Machine.execBitHl u s
  | .resR8 u r => Sys2Proof.Machine.execResR8 u r s
  | .resHl u => Sys2Proof.Machine.execResHl u s
  | .setR8 u r => Sys2Proof.Machine.execSetR8 u r s
  | .setHl u => Sys2Proof.Machine.execSetHl u s
  | .swapR8 r => Sys2Proof.Machine.execSwapR8 r s
  | .swapHl => Sys2Proof.Machine.execSwapHl s
  | .rlR8 r => Sys2Proof.Machine.execRlR8 r s
  | .rlHl => Sys2Proof.Machine.execRlHl s
  | .rla => Sys2Proof.Machine.execRla s
  | .rlcR8 r => Sys2Proof.Machine.execRlcR8 r s
  | .rlcHl => Sys2Proof.Machine.execRlcHl s
  | .rlca => Sys2Proof.Machine.execRlca s
  | .rrR8 r => Sys2Proof.Machine.execRrR8 r s
  | .rrHl => Sys2Proof.Machine.execRrHl s
  | .rra => Sys2Proof.Machine.execRra s
  | .rrcR8 r => Sys2Proof.Machine.execRrcR8 r s
  | .rrcHl => Sys2Proof.Machine.execRrcHl s
  | .rrca => Sys2Proof.Machine.execRrca s
  | .slaR8 r => Sys2Proof.Machine.execSlaR8 r s
  | .slaHl => Sys2Proof.Machine.execSlaHl s
  | .sraR8 r => Sys2Proof.Machine.execSraR8 r s
  | .sraHl => Sys2Proof.Machine.execSraHl s
  | .srlR8 r => Sys2Proof.Machine.execSrlR8 r s
  | .srlHl => Sys2Proof.Machine.execSrlHl s
  | .ldR8R8 dst src => Sys2Proof.Machine.execLdR8R8 dst src s
  | .ldR8N8 dst n => Sys2Proof.Machine.execLdR8N8 dst n s
  | .ldR16N16 dst n => Sys2Proof.Machine.execLdR16N16 dst n s
  | .ldHlR8 src => Sys2Proof.Machine.execLdHlR8 src s
  | .ldHlN8 n => Sys2Proof.Machine.execLdHlN8 n s
  | .ldR8Hl dst => Sys2Proof.Machine.execLdR8Hl dst s
  | .ldR16A p => Sys2Proof.Machine.execLdR16A p s
  | .ldN16A n => Sys2Proof.Machine.execLdN16A n s
  | .ldhN8A n => Sys2Proof.Machine.execLdhN8A n s
  | .ldhCA => Sys2Proof.Machine.execLdhCA s
  | .ldAR16 p => Sys2Proof.Machine.execLdAR16 p s
  | .ldAN16 n => Sys2Proof.Machine.execLdAN16 n s
  | .ldhAN8 n => Sys2Proof.Machine.execLdhAN8 n s
  | .ldhAC => Sys2Proof.Machine.execLdhAC s
  | .ldHliA => Sys2Proof.Machine.execLdHliA s
  | .ldHldA => Sys2Proof.Machine.execLdHldA s
  | .ldAHli => Sys2Proof.Machine.execLdAHli s
  | .ldAHld => Sys2Proof.Machine.execLdAHld s
  | .callN16 n => Sys2Proof.Machine.execCallN16 n s
  | .callCcN16 cc n => Sys2Proof.Machine.execCallCcN16 cc n s
  | .jpHl => Sys2Proof.Machine.execJpHl s
  | .jpN16 n => Sys2Proof.Machine.execJpN16 n s
  | .jpCcN16 cc n => Sys2Proof.Machine.execJpCcN16 cc n s
  | .jrE8 e => Sys2Proof.Machine.execJrE8 e s
  | .jrCcE8 cc e => Sys2Proof.Machine.execJrCcE8 cc e s
  | .retCc cc => Sys2Proof.Machine.execRetCc cc s
  | .ret => Sys2Proof.Machine.execRet s
  | .reti => Sys2Proof.Machine.execReti s
  | .rst vec => Sys2Proof.Machine.execRst vec s
  | .addHlSp => Sys2Proof.Machine.execAddHlSp s
  | .addSpE8 e => Sys2Proof.Machine.execAddSpE8 e s
  | .decSp => Sys2Proof.Machine.execDecSp s
  | .incSp => Sys2Proof.Machine.execIncSp s
  | .ldSpN16 n => Sys2Proof.Machine.execLdSpN16 n s
  | .ldN16Sp n => Sys2Proof.Machine.execLdN16Sp n s
  | .ldHlSpE8 e => Sys2Proof.Machine.execLdHlSpE8 e s
  | .ldSpHl => Sys2Proof.Machine.execLdSpHl s
  | .popAf => Sys2Proof.Machine.execPopAf s
  | .popR16 r => Sys2Proof.Machine.execPopR16 r s
  | .pushAf => Sys2Proof.Machine.execPushAf s
  | .pushR16 r => Sys2Proof.Machine.execPushR16 r s
  | .ccf => Sys2Proof.Machine.execCcf s
  | .cpl => Sys2Proof.Machine.execCpl s
  | .daa => Sys2Proof.Machine.execDaa s
  | .di => Sys2Proof.Machine.execDi s
  | .ei => Sys2Proof.Machine.execEi s
  | .halt => Sys2Proof.Machine.execHalt s
  | .nop => Sys2Proof.Machine.execNop s
  | .scf => Sys2Proof.Machine.execScf s
  | .stop pad => Sys2Proof.Machine.execStop pad s
  | .illegalD3 => Sys2Proof.Machine.execIllegalD3 s
  | .illegalDB => Sys2Proof.Machine.execIllegalDB s
  | .illegalDD => Sys2Proof.Machine.execIllegalDD s
  | .illegalE3 => Sys2Proof.Machine.execIllegalE3 s
  | .illegalE4 => Sys2Proof.Machine.execIllegalE4 s
  | .illegalEB => Sys2Proof.Machine.execIllegalEB s
  | .illegalEC => Sys2Proof.Machine.execIllegalEC s
  | .illegalED => Sys2Proof.Machine.execIllegalED s
  | .illegalF4 => Sys2Proof.Machine.execIllegalF4 s
  | .illegalFC => Sys2Proof.Machine.execIllegalFC s
  | .illegalFD => Sys2Proof.Machine.execIllegalFD s

end Sys2Proof.Machine
end

