-- ==== Sys2Proof/WellFormed.lean ====
section
/-! DEFINITION. Which terms of `Instr` stand for an instruction: the operand ranges that the types of the
operands do not give already. -/

namespace Sys2Proof

/-- The eight restart targets $00, $08, ..., $38 (30_encoding.md R87). -/
def isRstVector (vec : Word) : Bool := decide (vec.toNat % 8 = 0 ∧ vec.toNat < 64)

/-- The pointers that have an encoding of `LD [r16],A` and `LD A,[r16]`: BC and DE; with HL the byte is that
of `LD [HL],r8` or `LD r8,[HL]` with `r8 = A` (30_encoding.md R85, 90_conflicts.md C14). -/
def isPointerPair : Reg16 → Bool
  | .bc | .de => true
  | .hl => false

/-- An instruction whose operands have an encoding. -/
def Instr.wellFormed : Instr → Bool
  | .rst vec => isRstVector vec
  | .ldR16A p => isPointerPair p
  | .ldAR16 p => isPointerPair p
  | .adcAR8 _ | .adcAHl | .adcAN8 _ | .addAR8 _ | .addAHl | .addAN8 _ | .andAR8 _ | .andAHl | .andAN8 _
  | .cpAR8 _ | .cpAHl | .cpAN8 _ | .decR8 _ | .decHlInd | .incR8 _ | .incHlInd | .orAR8 _ | .orAHl
  | .orAN8 _ | .sbcAR8 _ | .sbcAHl | .sbcAN8 _ | .subAR8 _ | .subAHl | .subAN8 _ | .xorAR8 _ | .xorAHl
  | .xorAN8 _ | .addHlR16 _ | .decR16 _ | .incR16 _ | .bitR8 _ _ | .bitHl _ | .resR8 _ _ | .resHl _
  | .setR8 _ _ | .setHl _ | .swapR8 _ | .swapHl | .rlR8 _ | .rlHl | .rla | .rlcR8 _ | .rlcHl | .rlca
  | .rrR8 _ | .rrHl | .rra | .rrcR8 _ | .rrcHl | .rrca | .slaR8 _ | .slaHl | .sraR8 _ | .sraHl | .srlR8 _
  | .srlHl | .ldR8R8 _ _ | .ldR8N8 _ _ | .ldR16N16 _ _ | .ldHlR8 _ | .ldHlN8 _ | .ldR8Hl _ | .ldN16A _
  | .ldhN8A _ | .ldhCA | .ldAN16 _ | .ldhAN8 _ | .ldhAC | .ldHliA | .ldHldA | .ldAHli | .ldAHld
  | .callN16 _ | .callCcN16 _ _ | .jpHl | .jpN16 _ | .jpCcN16 _ _ | .jrE8 _ | .jrCcE8 _ _ | .retCc _ | .ret
  | .reti | .addHlSp | .addSpE8 _ | .decSp | .incSp | .ldSpN16 _ | .ldN16Sp _ | .ldHlSpE8 _ | .ldSpHl
  | .popAf | .popR16 _ | .pushAf | .pushR16 _ | .ccf | .cpl | .daa | .di | .ei | .halt | .nop | .scf
  | .stop _ | .illegalD3 | .illegalDB | .illegalDD | .illegalE3 | .illegalE4 | .illegalEB | .illegalEC
  | .illegalED | .illegalF4 | .illegalFC | .illegalFD => true

end Sys2Proof
end

