-- ==== Sys2Proof/Decode.lean ====
section
/-! DEFINITION. Decoding and encoding (30_encoding.md). Every byte value is the spec's map, which the spec
itself takes from general knowledge (R80, D1; log entry 6). -/

namespace Sys2Proof

/-! ## Operand fields (30_encoding.md section 3) -/

/-- The register of a 3-bit `r8` code; code 6 is `[HL]`, no register (R84). -/
def Reg8.ofCode : Nat → Option Reg8
  | 0 => some .b
  | 1 => some .c
  | 2 => some .d
  | 3 => some .e
  | 4 => some .h
  | 5 => some .l
  | 7 => some .a
  | _ => none

/-- The 3-bit code of a register (R84). -/
def Reg8.code : Reg8 → Nat
  | .b => 0
  | .c => 1
  | .d => 2
  | .e => 3
  | .h => 4
  | .l => 5
  | .a => 7

/-- The pair of a 2-bit `r16` code; code 3 is SP or AF, by the instruction (R85). -/
def Reg16.ofCode : Nat → Option Reg16
  | 0 => some .bc
  | 1 => some .de
  | 2 => some .hl
  | _ => none

/-- The 2-bit code of a pair (R85). -/
def Reg16.code : Reg16 → Nat
  | .bc => 0
  | .de => 1
  | .hl => 2

/-- The condition of a 2-bit code (R86). -/
def Cond.ofCode : Nat → Cond
  | 0 => .nz
  | 1 => .z
  | 2 => .nc
  | _ => .c

/-- The 2-bit code of a condition (R86). -/
def Cond.code : Cond → Nat
  | .nz => 0
  | .z => 1
  | .nc => 2
  | .c => 3

/-- The instruction on `r8[code]`: `f` of the register, or the row's `[HL]` form for code 6 (R84). -/
def onR8 (code : Nat) (f : Reg8 → Instr) (hlForm : Instr) : Instr :=
  match Reg8.ofCode code with
  | some r => f r
  | none => hlForm

/-- The instruction on `r16[code]`: `f` of the pair, or the row's SP or AF form for code 3 (R85). -/
def onR16 (code : Nat) (f : Reg16 → Instr) (code3Form : Instr) : Instr :=
  match Reg16.ofCode code with
  | some r => f r
  | none => code3Form

/-- A bit number from its 3-bit field (R87). -/
def bitNumber (y : Nat) : Fin 8 := ⟨y % 8, Nat.mod_lt y (by decide)⟩

/-! ## The opcode map (30_encoding.md section 4) -/

/-- What the first byte leaves to be read: nothing, one immediate byte, a 16-bit immediate, or the second
byte of a `$CB`-prefixed instruction (R81, R83). -/
inductive Shape where
  | plain (i : Instr)
  | imm8 (k : Byte → Instr)
  | imm16 (k : Word → Instr)
  | prefixed

/-- Block 0, `00yyyzzz` (R91). -/
def decodeBlock0 (y z : Nat) : Shape :=
  match z with
  | 0 =>
    match y with
    | 0 => .plain .nop
    | 1 => .imm16 .ldN16Sp
    | 2 => .imm8 .stop
    | 3 => .imm8 .jrE8
    | _ => .imm8 (.jrCcE8 (Cond.ofCode (y - 4)))
  | 1 =>
    if y % 2 = 0 then .imm16 fun n => onR16 (y / 2) (fun r => .ldR16N16 r n) (.ldSpN16 n)
    else .plain (onR16 (y / 2) .addHlR16 .addHlSp)
  | 2 =>
    match y with
    | 0 => .plain (.ldR16A .bc)
    | 1 => .plain (.ldAR16 .bc)
    | 2 => .plain (.ldR16A .de)
    | 3 => .plain (.ldAR16 .de)
    | 4 => .plain .ldHliA
    | 5 => .plain .ldAHli
    | 6 => .plain .ldHldA
    | _ => .plain .ldAHld
  | 3 =>
    if y % 2 = 0 then .plain (onR16 (y / 2) .incR16 .incSp)
    else .plain (onR16 (y / 2) .decR16 .decSp)
  | 4 => .plain (onR8 y .incR8 .incHlInd)
  | 5 => .plain (onR8 y .decR8 .decHlInd)
  | 6 => .imm8 fun n => onR8 y (fun r => .ldR8N8 r n) (.ldHlN8 n)
  | _ =>
    match y with
    | 0 => .plain .rlca
    | 1 => .plain .rrca
    | 2 => .plain .rla
    | 3 => .plain .rra
    | 4 => .plain .daa
    | 5 => .plain .cpl
    | 6 => .plain .scf
    | _ => .plain .ccf

/-- Block 1, `01dddsss`: the loads, and `HALT` where both fields are 6 (R91, R84, 90_conflicts.md C17). -/
def decodeBlock1 (y z : Nat) : Shape :=
  .plain (onR8 y (fun dst => onR8 z (fun src => .ldR8R8 dst src) (.ldR8Hl dst)) (onR8 z .ldHlR8 .halt))

/-- Block 2, `10ooosss`: the accumulator operations on `r8` and `[HL]` (R91). -/
def decodeBlock2 (y z : Nat) : Shape :=
  match y with
  | 0 => .plain (onR8 z .addAR8 .addAHl)
  | 1 => .plain (onR8 z .adcAR8 .adcAHl)
  | 2 => .plain (onR8 z .subAR8 .subAHl)
  | 3 => .plain (onR8 z .sbcAR8 .sbcAHl)
  | 4 => .plain (onR8 z .andAR8 .andAHl)
  | 5 => .plain (onR8 z .xorAR8 .xorAHl)
  | 6 => .plain (onR8 z .orAR8 .orAHl)
  | _ => .plain (onR8 z .cpAR8 .cpAHl)

/-- Block 3, `11yyyzzz`, with the `$CB` prefix and the eleven illegal bytes (R91, R100). -/
def decodeBlock3 (y z : Nat) : Shape :=
  match z with
  | 0 =>
    match y with
    | 4 => .imm8 .ldhN8A
    | 5 => .imm8 .addSpE8
    | 6 => .imm8 .ldhAN8
    | 7 => .imm8 .ldHlSpE8
    | _ => .plain (.retCc (Cond.ofCode y))
  | 1 =>
    match y with
    | 1 => .plain .ret
    | 3 => .plain .reti
    | 5 => .plain .jpHl
    | 7 => .plain .ldSpHl
    | _ => .plain (onR16 (y / 2) .popR16 .popAf)
  | 2 =>
    match y with
    | 4 => .plain .ldhCA
    | 5 => .imm16 .ldN16A
    | 6 => .plain .ldhAC
    | 7 => .imm16 .ldAN16
    | _ => .imm16 (.jpCcN16 (Cond.ofCode y))
  | 3 =>
    match y with
    | 0 => .imm16 .jpN16
    | 1 => .prefixed
    | 2 => .plain .illegalD3
    | 3 => .plain .illegalDB
    | 4 => .plain .illegalE3
    | 5 => .plain .illegalEB
    | 6 => .plain .di
    | _ => .plain .ei
  | 4 =>
    match y with
    | 4 => .plain .illegalE4
    | 5 => .plain .illegalEC
    | 6 => .plain .illegalF4
    | 7 => .plain .illegalFC
    | _ => .imm16 (.callCcN16 (Cond.ofCode y))
  | 5 =>
    match y with
    | 1 => .imm16 .callN16
    | 3 => .plain .illegalDD
    | 5 => .plain .illegalED
    | 7 => .plain .illegalFD
    | _ => .plain (onR16 (y / 2) .pushR16 .pushAf)
  | 6 =>
    match y with
    | 0 => .imm8 .addAN8
    | 1 => .imm8 .adcAN8
    | 2 => .imm8 .subAN8
    | 3 => .imm8 .sbcAN8
    | 4 => .imm8 .andAN8
    | 5 => .imm8 .xorAN8
    | 6 => .imm8 .orAN8
    | _ => .imm8 .cpAN8
  | _ => .plain (.rst (BitVec.ofNat 16 (8 * y)))

/-- The unprefixed map (R91, R92). -/
def decodeFirst (b : Byte) : Shape :=
  let y := byteField b 3 3
  let z := byteField b 0 3
  match byteField b 6 2 with
  | 0 => decodeBlock0 y z
  | 1 => decodeBlock1 y z
  | 2 => decodeBlock2 y z
  | _ => decodeBlock3 y z

/-- The `$CB`-prefixed map; all 256 second bytes are instructions (R94). -/
def decodeCb (op2 : Byte) : Instr :=
  let y := byteField op2 3 3
  let z := byteField op2 0 3
  match byteField op2 6 2 with
  | 0 =>
    match y with
    | 0 => onR8 z .rlcR8 .rlcHl
    | 1 => onR8 z .rrcR8 .rrcHl
    | 2 => onR8 z .rlR8 .rlHl
    | 3 => onR8 z .rrR8 .rrHl
    | 4 => onR8 z .slaR8 .slaHl
    | 5 => onR8 z .sraR8 .sraHl
    | 6 => onR8 z .swapR8 .swapHl
    | _ => onR8 z .srlR8 .srlHl
  | 1 => onR8 z (.bitR8 (bitNumber y)) (.bitHl (bitNumber y))
  | 2 => onR8 z (.resR8 (bitNumber y)) (.resHl (bitNumber y))
  | _ => onR8 z (.setR8 (bitNumber y)) (.setHl (bitNumber y))

/-- Why bytes are no instruction. Every FIRST byte has a row of the table (the illegal ones included, R96), so
only bytes that end too early are refused. -/
inductive DecodeError where
  /-- There is no byte to decode. -/
  | noBytes
  /-- The bytes end before the second byte of a `$CB`-prefixed instruction. -/
  | truncatedPrefix
  /-- The bytes end before the immediate does. -/
  | truncatedImmediate
  deriving DecidableEq, Repr

/-- Decode the instruction at the front of `bs`; the answer carries the bytes after it (R81, R88). -/
def decode : List Byte → Except DecodeError (Instr × List Byte)
  | [] => .error .noBytes
  | b :: rest =>
    match decodeFirst b with
    | .plain i => .ok (i, rest)
    | .imm8 k =>
      match rest with
      | n :: rest => .ok (k n, rest)
      | [] => .error .truncatedImmediate
    | .imm16 k =>
      match rest with
      | lo :: hi :: rest => .ok (k (joinBytes hi lo), rest)
      | _ => .error .truncatedImmediate
    | .prefixed =>
      match rest with
      | op2 :: rest => .ok (decodeCb op2, rest)
      | [] => .error .truncatedPrefix

/-- The length of an instruction from its first byte alone (R95). -/
def instrLength (b : Byte) : Nat :=
  if b ∈ [0x01#8, 0x11#8, 0x21#8, 0x31#8, 0x08#8, 0xC3#8, 0xC2#8, 0xCA#8, 0xD2#8, 0xDA#8, 0xCD#8, 0xC4#8,
      0xCC#8, 0xD4#8, 0xDC#8, 0xEA#8, 0xFA#8] then 3
  else if b ∈ [0xCB#8, 0x06#8, 0x0E#8, 0x16#8, 0x1E#8, 0x26#8, 0x2E#8, 0x36#8, 0x3E#8, 0xC6#8, 0xCE#8,
      0xD6#8, 0xDE#8, 0xE6#8, 0xEE#8, 0xF6#8, 0xFE#8, 0x18#8, 0x20#8, 0x28#8, 0x30#8, 0x38#8, 0xE0#8,
      0xF0#8, 0xE8#8, 0xF8#8, 0x10#8] then 2
  else 1

/-! ## Encoding (30_encoding.md R93, R94) -/

/-- An instruction of one byte: a base opcode plus its fields' weights. -/
def enc1 (op : Nat) : List Byte := [BitVec.ofNat 8 op]

/-- An opcode byte and an 8-bit immediate (R89, R90). -/
def enc8 (op : Nat) (n : Byte) : List Byte := [BitVec.ofNat 8 op, n]

/-- An opcode byte and a 16-bit immediate, low byte first (R88). -/
def enc16 (op : Nat) (n : Word) : List Byte := [BitVec.ofNat 8 op, loByte n, hiByte n]

/-- The prefix and a second byte (R94). -/
def encCb (op2 : Nat) : List Byte := [0xCB#8, BitVec.ofNat 8 op2]

/-- The bytes of a well-formed instruction, in address order, one line per line of R93. -/
def encode : Instr → List Byte
  | .adcAR8 r => enc1 (0x88 + r.code)
  | .adcAHl => enc1 0x8E
  | .adcAN8 n => enc8 0xCE n
  | .addAR8 r => enc1 (0x80 + r.code)
  | .addAHl => enc1 0x86
  | .addAN8 n => enc8 0xC6 n
  | .andAR8 r => enc1 (0xA0 + r.code)
  | .andAHl => enc1 0xA6
  | .andAN8 n => enc8 0xE6 n
  | .cpAR8 r => enc1 (0xB8 + r.code)
  | .cpAHl => enc1 0xBE
  | .cpAN8 n => enc8 0xFE n
  | .decR8 r => enc1 (0x05 + 8 * r.code)
  | .decHlInd => enc1 0x35
  | .incR8 r => enc1 (0x04 + 8 * r.code)
  | .incHlInd => enc1 0x34
  | .orAR8 r => enc1 (0xB0 + r.code)
  | .orAHl => enc1 0xB6
  | .orAN8 n => enc8 0xF6 n
  | .sbcAR8 r => enc1 (0x98 + r.code)
  | .sbcAHl => enc1 0x9E
  | .sbcAN8 n => enc8 0xDE n
  | .subAR8 r => enc1 (0x90 + r.code)
  | .subAHl => enc1 0x96
  | .subAN8 n => enc8 0xD6 n
  | .xorAR8 r => enc1 (0xA8 + r.code)
  | .xorAHl => enc1 0xAE
  | .xorAN8 n => enc8 0xEE n
  | .addHlR16 r => enc1 (0x09 + 16 * r.code)
  | .decR16 r => enc1 (0x0B + 16 * r.code)
  | .incR16 r => enc1 (0x03 + 16 * r.code)
  | .bitR8 u r => encCb (0x40 + 8 * u.val + r.code)
  | .bitHl u => encCb (0x46 + 8 * u.val)
  | .resR8 u r => encCb (0x80 + 8 * u.val + r.code)
  | .resHl u => encCb (0x86 + 8 * u.val)
  | .setR8 u r => encCb (0xC0 + 8 * u.val + r.code)
  | .setHl u => encCb (0xC6 + 8 * u.val)
  | .swapR8 r => encCb (0x30 + r.code)
  | .swapHl => encCb 0x36
  | .rlR8 r => encCb (0x10 + r.code)
  | .rlHl => encCb 0x16
  | .rla => enc1 0x17
  | .rlcR8 r => encCb (0x00 + r.code)
  | .rlcHl => encCb 0x06
  | .rlca => enc1 0x07
  | .rrR8 r => encCb (0x18 + r.code)
  | .rrHl => encCb 0x1E
  | .rra => enc1 0x1F
  | .rrcR8 r => encCb (0x08 + r.code)
  | .rrcHl => encCb 0x0E
  | .rrca => enc1 0x0F
  | .slaR8 r => encCb (0x20 + r.code)
  | .slaHl => encCb 0x26
  | .sraR8 r => encCb (0x28 + r.code)
  | .sraHl => encCb 0x2E
  | .srlR8 r => encCb (0x38 + r.code)
  | .srlHl => encCb 0x3E
  | .ldR8R8 dst src => enc1 (0x40 + 8 * dst.code + src.code)
  | .ldR8N8 dst n => enc8 (0x06 + 8 * dst.code) n
  | .ldR16N16 dst n => enc16 (0x01 + 16 * dst.code) n
  | .ldHlR8 src => enc1 (0x70 + src.code)
  | .ldHlN8 n => enc8 0x36 n
  | .ldR8Hl dst => enc1 (0x46 + 8 * dst.code)
  | .ldR16A p => enc1 (0x02 + 16 * p.code)
  | .ldN16A n => enc16 0xEA n
  | .ldhN8A n => enc8 0xE0 n
  | .ldhCA => enc1 0xE2
  | .ldAR16 p => enc1 (0x0A + 16 * p.code)
  | .ldAN16 n => enc16 0xFA n
  | .ldhAN8 n => enc8 0xF0 n
  | .ldhAC => enc1 0xF2
  | .ldHliA => enc1 0x22
  | .ldHldA => enc1 0x32
  | .ldAHli => enc1 0x2A
  | .ldAHld => enc1 0x3A
  | .callN16 n => enc16 0xCD n
  | .callCcN16 cc n => enc16 (0xC4 + 8 * cc.code) n
  | .jpHl => enc1 0xE9
  | .jpN16 n => enc16 0xC3 n
  | .jpCcN16 cc n => enc16 (0xC2 + 8 * cc.code) n
  | .jrE8 e => enc8 0x18 e
  | .jrCcE8 cc e => enc8 (0x20 + 8 * cc.code) e
  | .retCc cc => enc1 (0xC0 + 8 * cc.code)
  | .ret => enc1 0xC9
  | .reti => enc1 0xD9
  | .rst vec => enc1 (0xC7 + vec.toNat)
  | .addHlSp => enc1 0x39
  | .addSpE8 e => enc8 0xE8 e
  | .decSp => enc1 0x3B
  | .incSp => enc1 0x33
  | .ldSpN16 n => enc16 0x31 n
  | .ldN16Sp n => enc16 0x08 n
  | .ldHlSpE8 e => enc8 0xF8 e
  | .ldSpHl => enc1 0xF9
  | .popAf => enc1 0xF1
  | .popR16 r => enc1 (0xC1 + 16 * r.code)
  | .pushAf => enc1 0xF5
  | .pushR16 r => enc1 (0xC5 + 16 * r.code)
  | .ccf => enc1 0x3F
  | .cpl => enc1 0x2F
  | .daa => enc1 0x27
  | .di => enc1 0xF3
  | .ei => enc1 0xFB
  | .halt => enc1 0x76
  | .nop => enc1 0x00
  | .scf => enc1 0x37
  | .stop pad => enc8 0x10 pad
  | .illegalD3 => enc1 0xD3
  | .illegalDB => enc1 0xDB
  | .illegalDD => enc1 0xDD
  | .illegalE3 => enc1 0xE3
  | .illegalE4 => enc1 0xE4
  | .illegalEB => enc1 0xEB
  | .illegalEC => enc1 0xEC
  | .illegalED => enc1 0xED
  | .illegalF4 => enc1 0xF4
  | .illegalFC => enc1 0xFC
  | .illegalFD => enc1 0xFD

/-! ## Words of the opcode table -/

/-- The three bytes that a word of spec/opcode_table.json stands for, in address order, with zeros for what
the table gives no bits. Bits count from the FIRST byte's least significant bit, but for the table's 16-bit
rows: R96 numbers those "byte 0 most significant", so a 16-bit word with $CB in bits 15..8 has its prefix
there (log entry 19). -/
def tableBytes (nbits w : Nat) : List Byte :=
  let v := w % 2 ^ nbits
  if nbits = 16 ∧ v / 256 = 0xCB then [0xCB#8, BitVec.ofNat 8 v, 0x00#8]
  else [BitVec.ofNat 8 v, BitVec.ofNat 8 (v / 256), BitVec.ofNat 8 (v / 65536)]

/-- The instruction the decoder reads from a word of the opcode table. -/
def decodeTableWord (nbits w : Nat) : Option Instr :=
  match decode (tableBytes nbits w) with
  | .ok (i, _) => some i
  | .error _ => none

end Sys2Proof
end

