-- ==== Sys2Proof/Machine/Fetch.lean ====
section
/-! DEFINITION. Fetching an instruction, and placing one where it will be fetched (30_encoding.md section 2). -/

namespace Sys2Proof.Machine

/-- `Fetch8()`: `MemRead(PC, 1)`, then `PC` moves on (R81). -/
def State.fetch8 (s : State) : Byte × State := (s.read s.pc, { s.touch s.pc with pc := s.pc + 1 })

/-- `FetchOpcode()`: `Fetch8()`, but with `halt_bug` set `PC` stays and the bit is cleared (R82). -/
def State.fetchOpcode (s : State) : Byte × State :=
  if s.haltBug then (s.read s.pc, { s.touch s.pc with haltBug := false }) else s.fetch8

/-- `Fetch8()` `n` times, in ascending address order (R81, 20_memory.md R56). -/
def State.fetchMore : Nat → State → List Byte × State
  | 0, s => ([], s)
  | n + 1, s =>
    let q := s.fetch8
    let rest := State.fetchMore n q.2
    (q.1 :: rest.1, rest.2)

/-- All the bytes of the next instruction: the first byte tells how many (R81, R95). -/
def State.fetchBytes (s : State) : List Byte × State :=
  let q := s.fetchOpcode
  let rest := State.fetchMore (instrLength q.1 - 1) q.2
  (q.1 :: rest.1, rest.2)

/-- Fetch and decode the next instruction (R81). The refusal is for bytes the decoder rejects, which the fetch
never supplies. -/
def State.fetch (s : State) : Except Refusal (Instr × State) :=
  match decode s.fetchBytes.1 with
  | .ok (i, _) => .ok (i, s.fetchBytes.2)
  | .error _ => .error .undecodable

/-- Load bytes into memory at ascending addresses, from outside the machine. -/
def State.loadBytes : State → Word → List Byte → State
  | s, _, [] => s
  | s, a, b :: bs => State.loadBytes { s with bus := s.bus.load a b } (a + 1) bs

/-- Place an instruction's bytes at `PC` and make the next step fetch them: the CPU running, the HALT bug not
armed, the platform doing nothing before it, and `IME` off where a pending interrupt would be dispatched first (log
entry 20). -/
def State.placeProgram (s : State) (bytes : List Byte) : State :=
  let t := { s.loadBytes s.pc bytes with mode := .running, haltBug := false, arrivals := [] }
  { t with ime := t.ime && !t.pending }

end Sys2Proof.Machine
end

