-- ==== Sys2Proof/Machine/Interrupts.lean ====
section
/-! DEFINITION. What a step does around an instruction: the run state and the interrupt test before it, `EI`'s
delayed effect after it (60_exceptions.md R300). -/

namespace Sys2Proof.Machine

/-- What the beginning of a step decides: the step is done, or an instruction is to be executed. -/
inductive Before where
  | done (r : Result)
  | run (s : State)
  deriving Repr

/-- The interrupt test between instructions (R286): dispatch the lowest pending source, or go on. -/
def State.dispatchOr (s : State) (otherwise : Before) : Before :=
  match s.nextSource with
  | some i => if s.ime then .done (.next (s.takeInterrupt i)) else otherwise
  | none => otherwise

/-- A step in mode `Faulted`: no later step exists (R281), by the parameter `IllegalOpcode` (log entry 8). -/
def State.faultedStep (s : State) : Result :=
  match s.params.illegalOpcode with
  | .fault => .fault .lockedUp
  | .stuck => .next s
  | .refuse => .refused .lockedUp

/-- A step in mode `Stopped`, by the parameter `StopBehaviour` (R300; log entry 9). What ends a `STOP` is a turn of the
platform, between two steps. -/
def State.stoppedStep (s : State) : Result :=
  match s.params.stopBehaviour with
  | .refuse => .refused .stopBehaviour
  | .stuck | .wakes => .next s

/-- The beginning of a step (R300), by the run state. A halted CPU idles until an interrupt is pending, then wakes, with
the dispatch if `IME` is set and with the next instruction in the same step if not (R291, D25). -/
def State.beforeInstr (s : State) : Before :=
  match s.mode with
  | .faulted => .done s.faultedStep
  | .stopped => .done s.stoppedStep
  | .halted =>
    if s.pending then { s with mode := .running }.dispatchOr (.run { s with mode := .running })
    else .done (.next s)
  | .running => s.dispatchOr (.run s)

/-- `EI`'s delayed effect on the state an instruction leaves (R300's last line): if an `EI` was pending when
the instruction started and still is, `IME` is set. A byte that is no instruction ends the step before this
line (R100: "no other state changes"; log entry 12). -/
def State.landEi (eip : Bool) (t : State) : State :=
  if eip && t.eiPending && decide (t.mode ≠ .faulted) then { t with ime := true, eiPending := false } else t

/-- The end of a step (R300), on what the instruction answered. -/
def afterInstr (eip : Bool) : Result → Result
  | .next t => .next (t.landEi eip)
  | .fault r => .fault r
  | .refused r => .refused r

end Sys2Proof.Machine
end

