-- ==== Sys2Proof/Machine/Step.lean ====
section
/-! DEFINITION. One step of the CPU (60_exceptions.md R300): an instruction, an interrupt dispatch or an idle
step while halted (00_scope.md R14). -/

namespace Sys2Proof.Machine

/-- `Step` (R300), after the turn of the platform that is due before it. -/
def step (s : State) : Host.Outcome State Fault Refusal :=
  match s.arrive.beforeInstr with
  | .done r => r
  | .run s' =>
    match s'.fetch with
    | .ok (i, t) => afterInstr s'.eiPending (exec i t)
    | .error r => .refused r

/-- The state with the instruction of a word of the opcode table placed where the next step fetches it (log
entries 19 and 20). -/
def State.withFetchWord (s : State) (nbits w : Nat) : State := s.placeProgram (tableBytes nbits w)

end Sys2Proof.Machine
end

