-- ==== Sys2Proof/Asm.lean ====
section
/-! DEFINITION. What the two manual pages show of the assembly language (30_encoding.md R103 to R109): the
spellings of each instruction, the assembler's view of the encoded operands. No meaning and no statement about
the machine uses this file; the rest of the assembler is out of scope (00_scope.md R5). -/

namespace Sys2Proof.Asm

/-! ## Operands as the assembler takes them -/

/-- `!cc` negates a condition code; it has no encoding of its own (R108). -/
def negate : Cond → Cond
  | .nz => .z
  | .z => .nz
  | .nc => .c
  | .c => .nc

/-- The byte that `JR n16` at address `at_` encodes for its target: legal only from -128 to 127 bytes from the
address after the instruction (R107). -/
def jrOffset (at_ target : Word) : Option Byte :=
  let d := (target.toNat : Int) - (at_.toNat + 2)
  if -128 ≤ d ∧ d ≤ 127 then some (BitVec.ofInt 8 d) else none

/-- The byte that `LDH [n16],A` encodes, "provided the address is between $FF00 and $FFFF" (R105). -/
def ldhOperand (n : Word) : Option Byte :=
  if 0xFF00 ≤ n.toNat then some (BitVec.ofNat 8 (n.toNat - 0xFF00)) else none

/-- `$` prefixes a hexadecimal number (R103); `digits` of them. -/
def hex (digits v : Nat) : String :=
  let rec go : Nat → Nat → List Char
    | 0, _ => []
    | k + 1, v => go k (v / 16) ++ ["0123456789ABCDEF".toList.getD (v % 16) '0']
  "$" ++ String.ofList (go digits v)

def hex8 (n : Byte) : String := hex 2 n.toNat
def hex16 (n : Word) : String := hex 4 n.toNat

/-- A signed offset (R89), in decimal: the notation is the model's choice (DESIGN CHOICE, log entry 26). -/
def signed (e : Byte) : String := toString e.toInt

def reg8 : Reg8 → String
  | .a => "A"
  | .b => "B"
  | .c => "C"
  | .d => "D"
  | .e => "E"
  | .h => "H"
  | .l => "L"

def reg16 : Reg16 → String
  | .bc => "BC"
  | .de => "DE"
  | .hl => "HL"

def cond : Cond → String
  | .nz => "NZ"
  | .z => "Z"
  | .nc => "NC"
  | .c => "C"

/-- "The byte at this address" (R103). -/
def ind (x : String) : String := "[" ++ x ++ "]"

/-- The accumulator can be omitted (R104). -/
def onAcc (m x : String) : List String := [m ++ " A," ++ x, m ++ " " ++ x]

/-- The spellings of an instruction: the canonical one first, then the exact synonyms of R104 to R106; a byte
that encodes no instruction has none. What R103 leaves to `rgbasm(1)`, which is no source (N18), is the model's choice
(DESIGN CHOICE, log entry 26): how numbers are written; that `LD HL,SP+e8` with a negative `e8` is written with the
sign of `e8` in the place of the `+`, as `LD HL,SP-5`; that `JR` is written with its offset. A `STOP` whose second byte
is not $00 has no spelling in any source, and is written `STOP` too, which assembles to `$10 $00` (R101) and not to its
bytes (DESIGN CHOICE, log entry 26). -/
def spellings : Instr → List String
  | .adcAR8 r => onAcc "ADC" (reg8 r)
  | .adcAHl => onAcc "ADC" "[HL]"
  | .adcAN8 n => onAcc "ADC" (hex8 n)
  | .addAR8 r => onAcc "ADD" (reg8 r)
  | .addAHl => onAcc "ADD" "[HL]"
  | .addAN8 n => onAcc "ADD" (hex8 n)
  | .andAR8 r => onAcc "AND" (reg8 r)
  | .andAHl => onAcc "AND" "[HL]"
  | .andAN8 n => onAcc "AND" (hex8 n)
  | .cpAR8 r => onAcc "CP" (reg8 r)
  | .cpAHl => onAcc "CP" "[HL]"
  | .cpAN8 n => onAcc "CP" (hex8 n)
  | .decR8 r => ["DEC " ++ reg8 r]
  | .decHlInd => ["DEC [HL]"]
  | .incR8 r => ["INC " ++ reg8 r]
  | .incHlInd => ["INC [HL]"]
  | .orAR8 r => onAcc "OR" (reg8 r)
  | .orAHl => onAcc "OR" "[HL]"
  | .orAN8 n => onAcc "OR" (hex8 n)
  | .sbcAR8 r => onAcc "SBC" (reg8 r)
  | .sbcAHl => onAcc "SBC" "[HL]"
  | .sbcAN8 n => onAcc "SBC" (hex8 n)
  | .subAR8 r => onAcc "SUB" (reg8 r)
  | .subAHl => onAcc "SUB" "[HL]"
  | .subAN8 n => onAcc "SUB" (hex8 n)
  | .xorAR8 r => onAcc "XOR" (reg8 r)
  | .xorAHl => onAcc "XOR" "[HL]"
  | .xorAN8 n => onAcc "XOR" (hex8 n)
  | .addHlR16 r => ["ADD HL," ++ reg16 r]
  | .decR16 r => ["DEC " ++ reg16 r]
  | .incR16 r => ["INC " ++ reg16 r]
  | .bitR8 u r => ["BIT " ++ toString u.val ++ "," ++ reg8 r]
  | .bitHl u => ["BIT " ++ toString u.val ++ ",[HL]"]
  | .resR8 u r => ["RES " ++ toString u.val ++ "," ++ reg8 r]
  | .resHl u => ["RES " ++ toString u.val ++ ",[HL]"]
  | .setR8 u r => ["SET " ++ toString u.val ++ "," ++ reg8 r]
  | .setHl u => ["SET " ++ toString u.val ++ ",[HL]"]
  | .swapR8 r => ["SWAP " ++ reg8 r]
  | .swapHl => ["SWAP [HL]"]
  | .rlR8 r => ["RL " ++ reg8 r]
  | .rlHl => ["RL [HL]"]
  | .rla => ["RLA"]
  | .rlcR8 r => ["RLC " ++ reg8 r]
  | .rlcHl => ["RLC [HL]"]
  | .rlca => ["RLCA"]
  | .rrR8 r => ["RR " ++ reg8 r]
  | .rrHl => ["RR [HL]"]
  | .rra => ["RRA"]
  | .rrcR8 r => ["RRC " ++ reg8 r]
  | .rrcHl => ["RRC [HL]"]
  | .rrca => ["RRCA"]
  | .slaR8 r => ["SLA " ++ reg8 r]
  | .slaHl => ["SLA [HL]"]
  | .sraR8 r => ["SRA " ++ reg8 r]
  | .sraHl => ["SRA [HL]"]
  | .srlR8 r => ["SRL " ++ reg8 r]
  | .srlHl => ["SRL [HL]"]
  | .ldR8R8 dst src => ["LD " ++ reg8 dst ++ "," ++ reg8 src]
  | .ldR8N8 dst n => ["LD " ++ reg8 dst ++ "," ++ hex8 n]
  | .ldR16N16 dst n => ["LD " ++ reg16 dst ++ "," ++ hex16 n]
  | .ldHlR8 src => ["LD [HL]," ++ reg8 src]
  | .ldHlN8 n => ["LD [HL]," ++ hex8 n]
  | .ldR8Hl dst => ["LD " ++ reg8 dst ++ ",[HL]"]
  | .ldR16A p => ["LD " ++ ind (reg16 p) ++ ",A"]
  | .ldN16A n => ["LD " ++ ind (hex16 n) ++ ",A"]
  | .ldhN8A n =>
    let p := ind (hex16 (0xFF00#16 + zext16 n))
    ["LDH " ++ p ++ ",A", "LDIO " ++ p ++ ",A", "LD [$FF00+" ++ hex8 n ++ "],A", "LDH [$FF00+" ++ hex8 n ++ "],A"]
  | .ldhCA => ["LDH [C],A", "LDIO [C],A", "LD [$FF00+C],A"]
  | .ldAR16 p => ["LD A," ++ ind (reg16 p)]
  | .ldAN16 n => ["LD A," ++ ind (hex16 n)]
  | .ldhAN8 n =>
    let p := ind (hex16 (0xFF00#16 + zext16 n))
    ["LDH A," ++ p, "LDIO A," ++ p, "LD A,[$FF00+" ++ hex8 n ++ "]", "LDH A,[$FF00+" ++ hex8 n ++ "]"]
  | .ldhAC => ["LDH A,[C]", "LDIO A,[C]", "LD A,[$FF00+C]"]
  | .ldHliA => ["LD [HL+],A", "LD [HLI],A", "LDI [HL],A"]
  | .ldHldA => ["LD [HL-],A", "LD [HLD],A", "LDD [HL],A"]
  | .ldAHli => ["LD A,[HL+]", "LD A,[HLI]", "LDI A,[HL]"]
  | .ldAHld => ["LD A,[HL-]", "LD A,[HLD]", "LDD A,[HL]"]
  | .callN16 n => ["CALL " ++ hex16 n]
  | .callCcN16 cc n => ["CALL " ++ cond cc ++ "," ++ hex16 n, "CALL !" ++ cond (negate cc) ++ "," ++ hex16 n]
  | .jpHl => ["JP HL"]
  | .jpN16 n => ["JP " ++ hex16 n]
  | .jpCcN16 cc n => ["JP " ++ cond cc ++ "," ++ hex16 n, "JP !" ++ cond (negate cc) ++ "," ++ hex16 n]
  | .jrE8 e => ["JR " ++ signed e]
  | .jrCcE8 cc e => ["JR " ++ cond cc ++ "," ++ signed e, "JR !" ++ cond (negate cc) ++ "," ++ signed e]
  | .retCc cc => ["RET " ++ cond cc, "RET !" ++ cond (negate cc)]
  | .ret => ["RET"]
  | .reti => ["RETI"]
  | .rst vec => ["RST " ++ hex 2 vec.toNat]
  | .addHlSp => ["ADD HL,SP"]
  | .addSpE8 e => ["ADD SP," ++ signed e]
  | .decSp => ["DEC SP"]
  | .incSp => ["INC SP"]
  | .ldSpN16 n => ["LD SP," ++ hex16 n]
  | .ldN16Sp n => ["LD " ++ ind (hex16 n) ++ ",SP"]
  | .ldHlSpE8 e => ["LD HL,SP" ++ (if e.toInt < 0 then signed e else "+" ++ signed e)]
  | .ldSpHl => ["LD SP,HL"]
  | .popAf => ["POP AF"]
  | .popR16 r => ["POP " ++ reg16 r]
  | .pushAf => ["PUSH AF"]
  | .pushR16 r => ["PUSH " ++ reg16 r]
  | .ccf => ["CCF"]
  | .cpl => ["CPL"]
  | .daa => ["DAA"]
  | .di => ["DI"]
  | .ei => ["EI"]
  | .halt => ["HALT"]
  | .nop => ["NOP"]
  | .scf => ["SCF"]
  | .stop _ => ["STOP"]
  | .illegalD3 | .illegalDB | .illegalDD | .illegalE3 | .illegalE4 | .illegalEB | .illegalEC | .illegalED
  | .illegalF4 | .illegalFC | .illegalFD => []

end Sys2Proof.Asm
end

