-- ==== Sys2Proof/Safety.lean ====
section
/-! DEFINITION. The terms that claims use: the invariant of the machine, and what counts as a safe run. -/

namespace Sys2Proof.Machine

/-- The invariant of the machine: memory is in its canonical form, and a HALT bug is armed only while the CPU
runs with an interrupt pending (10_state.md R33, 47_misc.md R265; the note of 60_exceptions.md R291). -/
def State.Inv (s : State) : Prop :=
  s.bus.mem.wf = true ∧ (s.haltBug = true → s.mode = .running ∧ s.pending = true)

/-- A run of `k` steps is safe if it answers a state in which the CPU has not locked up. Reaching a byte that is no
instruction fails the claim, whatever the parameter `IllegalOpcode` (60_exceptions.md R281, D3), and so does a refusal,
past which nothing is claimed (R300, D13). -/
def SafeRun (k : Nat) (s : State) : Prop := ∃ t, Sys2Proof.core.run k s = .next t ∧ t.mode ≠ .faulted

/-- The CPU is in one of the two modes in which it goes on by itself. -/
def State.live (s : State) : Prop := s.mode = .running ∨ s.mode = .halted

/-- The coming step executes an instruction: no interrupt is dispatched, and a halted CPU wakes (60_exceptions.md
R300). -/
def State.runsInstr (s : State) : Prop :=
  s.live ∧ ¬ (s.ime = true ∧ s.pending = true) ∧ (s.mode = .halted → s.pending = true)

/-! ## What the accesses of an instruction do (20_memory.md R51 to R53) -/

/-- The address is plain memory and shows its own byte. With `FlatRAM` every address does (R51). -/
def State.isRam (s : State) (a : Word) : Prop := s.bus.place a = .cell a Wiring.ram

/-- The bus after one access. -/
def Bus.access (b : Bus) : Access → Bus
  | .read a => b.touch a
  | .write a v => b.write a v
  | .ack i => b.ifClear i
  | .turn t => b.turn t

/-- The bus after accesses, in that order. -/
def Bus.after (b : Bus) (es : List Access) : Bus := es.foldl Bus.access b

/-- `s` after the accesses `es`. Reads change nothing but that devices see theirs; with `FlatRAM` this is then `s`. -/
def State.seen (s : State) (es : List Access) : State := { s with bus := s.bus.after es }

/-- Whether a device sees the access. A look at `[IE]` or `[IF]` is never seen. -/
def Bus.onDevice (b : Bus) : Access → Bool
  | .read a => decide (b.place a = .device ∧ a ≠ b.ieAddr ∧ a ≠ b.ifAddr)
  | .write a _ => decide (b.place a = .device)
  | .ack _ => decide (b.place b.ifAddr = .device)
  | .turn _ => true

/-- What is in the byte of memory `d` after the devices or the platform have stored `cs`, where `v` was before: the last
byte stored to it, and `v` in the byte of `[IE]` and of `[IF]`, which they do not store to. -/
def Bus.stored (b : Bus) (d : Word) (cs : List (Word × Byte)) (v : Byte) : Byte :=
  cs.foldl (fun v c => if c.1 = d ∧ b.holdsInt d = false then c.2 else v) v

/-- What is in the byte of memory `d` after the access `e`, where `v` was before and the devices had seen `past`: a store
to `d` replaces its writable bits, an acknowledge clears a bit of it if it is `[IF]`, a turn of the platform stores and
requests, and what a device sees it answers with stores of its own (`Config.deviceStores`). Nothing else changes it. -/
def Bus.cellStep (b : Bus) (d : Word) (past : List Access) (v : Byte) (e : Access) : Byte :=
  match e with
  | .read a => if b.onDevice (.read a) then b.stored d (Config.deviceStores (e :: past)) v else v
  | .write a w =>
    match b.place a with
    | .cell c k => if c = d then k.stores v w else v
    | .device => b.stored d (Config.deviceStores (e :: past)) v
  | .ack i =>
    match b.place b.ifAddr with
    | .cell c _ => if c = d then v &&& BitVec.ofNat 8 (255 - 2 ^ i.val) else v
    | .device => b.stored d (Config.deviceStores (e :: past)) v
  | .turn t => if b.isCellOf d b.ifAddr then b.stored d t.stores v ||| t.requests else b.stored d t.stores v

/-- What is in the byte of memory `d` after the accesses `es`, one after the other. -/
def Bus.cellAfter (b : Bus) (d : Word) : List Access → Byte → List Access → Byte
  | _, v, [] => v
  | past, v, e :: es =>
    b.cellAfter d (if b.onDevice e then e :: past else past) (b.cellStep d past v e) es

/-- Whether a store to `a` can change what a read of `b` returns: both show the same byte of memory, and the store
changes some of it. With `FlatRAM` this is `a = b`. -/
def State.hits (s : State) (a b : Word) : Bool :=
  match s.bus.place a, s.bus.place b with
  | .cell c k, .cell d _ => decide (c = d ∧ k.writable ≠ 0#8)
  | _, _ => false

/-- The bus of `t` is that of `s` after the accesses `es`, in that order; so that every address of memory reads as its
byte after the stores made, EVERY BYTE that none of them changes as before, and the devices have seen what is theirs.
(What a device then answers follows from what it has seen.) -/
def Accesses (s t : State) (es : List Access) : Prop :=
  t.bus = s.bus.after es ∧
  (∀ a d k, s.bus.place a = .cell d k →
    t.read a = k.reads (s.bus.cellAfter d s.bus.past (s.bus.mem.read d.toNat) es)) ∧
  { t.bus with mem := s.bus.mem } = { s.bus with past := (es.filter s.bus.onDevice).reverse ++ s.bus.past }

/-! ## What an instruction changes

Each of these says what is written AND that everything else is as before. -/

/-- `t` is `s` with the byte `v` in register `r` and the flags `f`, and nothing else changed. -/
def WritesR8 (s t : State) (r : Reg8) (v : Byte) (f : Flags) : Prop :=
  (∀ q, t.r8 q = if q = r then v else s.r8 q) ∧ { t with regs := s.regs } = { s with f := f }

/-- The two halves of a pair (10_state.md R22). -/
def halves : Reg16 → List Reg8
  | .bc => [.b, .c]
  | .de => [.d, .e]
  | .hl => [.h, .l]

/-- `t` is `s` with the word `v` in the pair `p` and the flags `f`, and nothing else changed. -/
def WritesR16 (s t : State) (p : Reg16) (v : Word) (f : Flags) : Prop :=
  t.r16 p = v ∧ (∀ q, q ∉ halves p → t.r8 q = s.r8 q) ∧ { t with regs := s.regs } = { s with f := f }

/-- `t` is `s` after the accesses `es` and with the flags `f`, and nothing else changed. -/
def AccessesWithFlags (s t : State) (es : List Access) (f : Flags) : Prop :=
  Accesses s t es ∧ { t with bus := s.bus } = { s with f := f }

/-- The bus of `t` is that of `s` after `v` was pushed: the high byte is stored below the old top of the stack, then the
low byte below that (46_stack.md R240). -/
def Pushed (s t : State) (v : Word) : Prop :=
  Accesses s t [.write (s.sp - 1) (hiByte v), .write (s.sp - 2) (loByte v)]

/-- The word on top of the stack: the low byte is read at `SP`, then the high byte at `SP + 1` (46_stack.md R241). -/
def State.top (s : State) : Word := joinBytes ((s.seen [.read s.sp]).read (s.sp + 1)) (s.read s.sp)

/-- `s` after the word on top of the stack was read and `SP` has moved past it (46_stack.md R241). -/
def State.popped (s : State) : State := { s.seen [.read s.sp, .read (s.sp + 1)] with sp := s.sp + 2 }

/-- A carry as a byte, 0 or 1. -/
def carryByte (c : Bool) : Byte := if c then 1#8 else 0#8

/-- Packed binary-coded decimal of a number below 100 (47_misc.md R262). -/
def bcd (n : Nat) : Byte := BitVec.ofNat 8 (n / 10 * 16 + n % 10)

/-- The address after the opcode fetch: `PC + 1`, or `PC` where the HALT bug is armed (30_encoding.md R82). -/
def State.pcAfterOpcode (s : State) : Word := if s.haltBug then s.pc else s.pc + 1

/-- The accesses of the next fetch, at most three (30_encoding.md R81, R83). -/
def State.fetches (s : State) : List Access :=
  [.read s.pc, .read s.pcAfterOpcode, .read (s.pcAfterOpcode + 1)]

/-- The three bytes that the next fetch can read, one after the other (30_encoding.md R81, R83). -/
def State.nextBytes (s : State) : List Byte :=
  [s.read s.pc, (s.seen (s.fetches.take 1)).read s.pcAfterOpcode,
    (s.seen (s.fetches.take 2)).read (s.pcAfterOpcode + 1)]

/-- `s` after the fetch of an instruction that leaves `rest` of its three next bytes (30_encoding.md R81, R82). -/
def State.fetched (s : State) (rest : List Byte) : State :=
  { s.seen (s.fetches.take (3 - rest.length)) with
    pc := s.pcAfterOpcode + BitVec.ofNat 16 (2 - rest.length), haltBug := false }

/-! ## The whole-machine tables of 10_state.md and 20_memory.md -/

/-- The bytes that encode no instruction, and the instructions they decode to (30_encoding.md R100). -/
def illegalBytes : List (Byte × Instr) :=
  [(0xD3#8, .illegalD3), (0xDB#8, .illegalDB), (0xDD#8, .illegalDD), (0xE3#8, .illegalE3), (0xE4#8, .illegalE4),
    (0xEB#8, .illegalEB), (0xEC#8, .illegalEC), (0xED#8, .illegalED), (0xF4#8, .illegalF4), (0xFC#8, .illegalFC),
    (0xFD#8, .illegalFD)]

/-- The bytes that encode no instruction, as instructions (30_encoding.md R100). -/
def illegalInstrs : List Instr := illegalBytes.map Prod.snd

/-- An entry of the flag table (10_state.md R41). -/
inductive FlagEffect where
  | computed
  | zero
  | one
  | kept
  | complemented
  deriving DecidableEq, Repr

/-- What an entry of the flag table says of a flag before and after. -/
def FlagEffect.allows (e : FlagEffect) (old new : Bool) : Bool :=
  match e with
  | .computed => true
  | .zero => new == false
  | .one => new == true
  | .kept => new == old
  | .complemented => new == !old

/-- A row of the flag table. -/
structure FlagRow where
  z : FlagEffect
  n : FlagEffect
  h : FlagEffect
  c : FlagEffect
  deriving DecidableEq, Repr

/-- The flag table (10_state.md R41); "every instruction form not in this table leaves all four flags
unaffected". A popped flag counts as computed. -/
def flagTable : Instr → FlagRow
  | .adcAR8 _ | .adcAHl | .adcAN8 _ | .addAR8 _ | .addAHl | .addAN8 _ => ⟨.computed, .zero, .computed, .computed⟩
  | .subAR8 _ | .subAHl | .subAN8 _ | .sbcAR8 _ | .sbcAHl | .sbcAN8 _ | .cpAR8 _ | .cpAHl | .cpAN8 _ =>
    ⟨.computed, .one, .computed, .computed⟩
  | .andAR8 _ | .andAHl | .andAN8 _ => ⟨.computed, .zero, .one, .zero⟩
  | .orAR8 _ | .orAHl | .orAN8 _ | .xorAR8 _ | .xorAHl | .xorAN8 _ => ⟨.computed, .zero, .zero, .zero⟩
  | .incR8 _ | .incHlInd => ⟨.computed, .zero, .computed, .kept⟩
  | .decR8 _ | .decHlInd => ⟨.computed, .one, .computed, .kept⟩
  | .addHlR16 _ | .addHlSp => ⟨.kept, .zero, .computed, .computed⟩
  | .addSpE8 _ | .ldHlSpE8 _ => ⟨.zero, .zero, .computed, .computed⟩
  | .bitR8 _ _ | .bitHl _ => ⟨.computed, .zero, .one, .kept⟩
  | .swapR8 _ | .swapHl => ⟨.computed, .zero, .zero, .zero⟩
  | .rlR8 _ | .rlHl | .rlcR8 _ | .rlcHl | .rrR8 _ | .rrHl | .rrcR8 _ | .rrcHl | .slaR8 _ | .slaHl | .sraR8 _
  | .sraHl | .srlR8 _ | .srlHl => ⟨.computed, .zero, .zero, .computed⟩
  | .rla | .rlca | .rra | .rrca => ⟨.zero, .zero, .zero, .computed⟩
  | .ccf => ⟨.kept, .zero, .zero, .complemented⟩
  | .scf => ⟨.kept, .zero, .zero, .one⟩
  | .cpl => ⟨.kept, .one, .one, .kept⟩
  | .daa => ⟨.computed, .kept, .zero, .computed⟩
  | .popAf => ⟨.computed, .computed, .computed, .computed⟩
  | .decR16 _ | .incR16 _ | .resR8 _ _ | .resHl _ | .setR8 _ _ | .setHl _ | .ldR8R8 _ _ | .ldR8N8 _ _
  | .ldR16N16 _ _ | .ldHlR8 _ | .ldHlN8 _ | .ldR8Hl _ | .ldR16A _ | .ldN16A _ | .ldhN8A _ | .ldhCA
  | .ldAR16 _ | .ldAN16 _ | .ldhAN8 _ | .ldhAC | .ldHliA | .ldHldA | .ldAHli | .ldAHld | .callN16 _
  | .callCcN16 _ _ | .jpHl | .jpN16 _ | .jpCcN16 _ _ | .jrE8 _ | .jrCcE8 _ _ | .retCc _ | .ret | .reti
  | .rst _ | .decSp | .incSp | .ldSpN16 _ | .ldN16Sp _ | .ldSpHl | .popR16 _ | .pushAf | .pushR16 _
  | .di | .ei | .halt | .nop | .stop _ | .illegalD3 | .illegalDB | .illegalDD | .illegalE3 | .illegalE4
  | .illegalEB | .illegalEC | .illegalED | .illegalF4 | .illegalFC | .illegalFD => ⟨.kept, .kept, .kept, .kept⟩

/-- The 8-bit registers an instruction may write (10_state.md R40 and the instruction rules). -/
def writtenRegs : Instr → List Reg8
  | .adcAR8 _ | .adcAHl | .adcAN8 _ | .addAR8 _ | .addAHl | .addAN8 _ | .subAR8 _ | .subAHl | .subAN8 _
  | .sbcAR8 _ | .sbcAHl | .sbcAN8 _ | .andAR8 _ | .andAHl | .andAN8 _ | .orAR8 _ | .orAHl | .orAN8 _
  | .xorAR8 _ | .xorAHl | .xorAN8 _ | .rla | .rlca | .rra | .rrca | .daa | .cpl | .ldAR16 _ | .ldAN16 _
  | .ldhAN8 _ | .ldhAC | .popAf => [.a]
  | .incR8 r | .decR8 r | .resR8 _ r | .setR8 _ r | .swapR8 r | .rlR8 r | .rlcR8 r | .rrR8 r | .rrcR8 r
  | .slaR8 r | .sraR8 r | .srlR8 r | .ldR8R8 r _ | .ldR8N8 r _ | .ldR8Hl r => [r]
  | .incR16 p | .decR16 p | .ldR16N16 p _ | .popR16 p => halves p
  | .addHlR16 _ | .addHlSp | .ldHlSpE8 _ | .ldHliA | .ldHldA => [.h, .l]
  | .ldAHli | .ldAHld => [.a, .h, .l]
  | .cpAR8 _ | .cpAHl | .cpAN8 _ | .decHlInd | .incHlInd | .bitR8 _ _ | .bitHl _ | .resHl _ | .setHl _
  | .swapHl | .rlHl | .rlcHl | .rrHl | .rrcHl | .slaHl | .sraHl | .srlHl | .ldHlR8 _ | .ldHlN8 _
  | .ldR16A _ | .ldN16A _ | .ldhN8A _ | .ldhCA | .callN16 _ | .callCcN16 _ _ | .jpHl | .jpN16 _
  | .jpCcN16 _ _ | .jrE8 _ | .jrCcE8 _ _ | .retCc _ | .ret | .reti | .rst _ | .addSpE8 _ | .decSp
  | .incSp | .ldSpN16 _ | .ldN16Sp _ | .ldSpHl | .pushAf | .pushR16 _ | .ccf | .di | .ei | .halt | .nop
  | .scf | .stop _ | .illegalD3 | .illegalDB | .illegalDD | .illegalE3 | .illegalE4 | .illegalEB
  | .illegalEC | .illegalED | .illegalF4 | .illegalFC | .illegalFD => []

/-- Whether an instruction may write `SP` (10_state.md R28, R40). -/
def writesSp : Instr → Bool
  | .callN16 _ | .callCcN16 _ _ | .rst _ | .ret | .retCc _ | .reti | .addSpE8 _ | .decSp | .incSp | .ldSpN16 _
  | .ldSpHl | .popAf | .popR16 _ | .pushAf | .pushR16 _ => true
  | .adcAR8 _ | .adcAHl | .adcAN8 _ | .addAR8 _ | .addAHl | .addAN8 _ | .andAR8 _ | .andAHl | .andAN8 _
  | .cpAR8 _ | .cpAHl | .cpAN8 _ | .decR8 _ | .decHlInd | .incR8 _ | .incHlInd | .orAR8 _ | .orAHl
  | .orAN8 _ | .sbcAR8 _ | .sbcAHl | .sbcAN8 _ | .subAR8 _ | .subAHl | .subAN8 _ | .xorAR8 _ | .xorAHl
  | .xorAN8 _ | .addHlR16 _ | .decR16 _ | .incR16 _ | .bitR8 _ _ | .bitHl _ | .resR8 _ _ | .resHl _
  | .setR8 _ _ | .setHl _ | .swapR8 _ | .swapHl | .rlR8 _ | .rlHl | .rla | .rlcR8 _ | .rlcHl | .rlca
  | .rrR8 _ | .rrHl | .rra | .rrcR8 _ | .rrcHl | .rrca | .slaR8 _ | .slaHl | .sraR8 _ | .sraHl
  | .srlR8 _ | .srlHl | .ldR8R8 _ _ | .ldR8N8 _ _ | .ldR16N16 _ _ | .ldHlR8 _ | .ldHlN8 _ | .ldR8Hl _
  | .ldR16A _ | .ldN16A _ | .ldhN8A _ | .ldhCA | .ldAR16 _ | .ldAN16 _ | .ldhAN8 _ | .ldhAC | .ldHliA
  | .ldHldA | .ldAHli | .ldAHld | .jpHl | .jpN16 _ | .jpCcN16 _ _ | .jrE8 _ | .jrCcE8 _ _ | .addHlSp
  | .ldN16Sp _ | .ldHlSpE8 _ | .ccf | .cpl | .daa | .di | .ei | .halt | .nop | .scf | .stop _
  | .illegalD3 | .illegalDB | .illegalDD | .illegalE3 | .illegalE4 | .illegalEB | .illegalEC
  | .illegalED | .illegalF4 | .illegalFC | .illegalFD => false

/-- Whether an instruction may write `PC` beyond the fetch (10_state.md R29). -/
def writesPc : Instr → Bool
  | .jpN16 _ | .jpCcN16 _ _ | .jpHl | .jrE8 _ | .jrCcE8 _ _ | .callN16 _ | .callCcN16 _ _ | .rst _ | .ret
  | .retCc _ | .reti => true
  | .adcAR8 _ | .adcAHl | .adcAN8 _ | .addAR8 _ | .addAHl | .addAN8 _ | .andAR8 _ | .andAHl | .andAN8 _
  | .cpAR8 _ | .cpAHl | .cpAN8 _ | .decR8 _ | .decHlInd | .incR8 _ | .incHlInd | .orAR8 _ | .orAHl
  | .orAN8 _ | .sbcAR8 _ | .sbcAHl | .sbcAN8 _ | .subAR8 _ | .subAHl | .subAN8 _ | .xorAR8 _ | .xorAHl
  | .xorAN8 _ | .addHlR16 _ | .decR16 _ | .incR16 _ | .bitR8 _ _ | .bitHl _ | .resR8 _ _ | .resHl _
  | .setR8 _ _ | .setHl _ | .swapR8 _ | .swapHl | .rlR8 _ | .rlHl | .rla | .rlcR8 _ | .rlcHl | .rlca
  | .rrR8 _ | .rrHl | .rra | .rrcR8 _ | .rrcHl | .rrca | .slaR8 _ | .slaHl | .sraR8 _ | .sraHl
  | .srlR8 _ | .srlHl | .ldR8R8 _ _ | .ldR8N8 _ _ | .ldR16N16 _ _ | .ldHlR8 _ | .ldHlN8 _ | .ldR8Hl _
  | .ldR16A _ | .ldN16A _ | .ldhN8A _ | .ldhCA | .ldAR16 _ | .ldAN16 _ | .ldhAN8 _ | .ldhAC | .ldHliA
  | .ldHldA | .ldAHli | .ldAHld | .addHlSp | .addSpE8 _ | .decSp | .incSp | .ldSpN16 _ | .ldN16Sp _
  | .ldHlSpE8 _ | .ldSpHl | .popAf | .popR16 _ | .pushAf | .pushR16 _ | .ccf | .cpl | .daa | .di | .ei
  | .halt | .nop | .scf | .stop _ | .illegalD3 | .illegalDB | .illegalDD | .illegalE3 | .illegalE4
  | .illegalEB | .illegalEC | .illegalED | .illegalF4 | .illegalFC | .illegalFD => false

/-- A data access of an instruction, but for the byte. -/
inductive DataAccess where
  | reads (a : Word)
  | writes (a : Word)
  deriving DecidableEq, Repr

/-- A data access but for the byte; an acknowledge and the platform's turns are none. -/
def dataAccess : Access → Option DataAccess
  | .read a => some (.reads a)
  | .write a _ => some (.writes a)
  | .ack _ | .turn _ => none

/-- The data accesses of an instruction in a state, in order: "the complete list" of 20_memory.md R59. -/
def accesses (s : State) : Instr → List DataAccess
  | .adcAHl | .addAHl | .andAHl | .cpAHl | .orAHl | .sbcAHl | .subAHl | .xorAHl | .bitHl _ | .ldR8Hl _
  | .ldAHli | .ldAHld => [.reads s.hl]
  | .incHlInd | .decHlInd | .resHl _ | .setHl _ | .swapHl | .rlHl | .rlcHl | .rrHl | .rrcHl | .slaHl | .sraHl
  | .srlHl => [.reads s.hl, .writes s.hl]
  | .ldHlR8 _ | .ldHlN8 _ | .ldHliA | .ldHldA => [.writes s.hl]
  | .ldR16A p => [.writes (s.r16 p)]
  | .ldAR16 p => [.reads (s.r16 p)]
  | .ldN16A n => [.writes n]
  | .ldAN16 n => [.reads n]
  | .ldhN8A n => [.writes (highPage n)]
  | .ldhAN8 n => [.reads (highPage n)]
  | .ldhCA => [.writes (highPage s.regs.c)]
  | .ldhAC => [.reads (highPage s.regs.c)]
  | .ldN16Sp n => [.writes n, .writes (n + 1)]
  | .pushAf | .pushR16 _ | .callN16 _ | .rst _ => [.writes (s.sp - 1), .writes (s.sp - 2)]
  | .callCcN16 cc _ => if s.f.holds cc then [.writes (s.sp - 1), .writes (s.sp - 2)] else []
  | .popAf | .popR16 _ | .ret | .reti => [.reads s.sp, .reads (s.sp + 1)]
  | .retCc cc => if s.f.holds cc then [.reads s.sp, .reads (s.sp + 1)] else []
  | .adcAR8 _ | .adcAN8 _ | .addAR8 _ | .addAN8 _ | .andAR8 _ | .andAN8 _ | .cpAR8 _ | .cpAN8 _ | .decR8 _
  | .incR8 _ | .orAR8 _ | .orAN8 _ | .sbcAR8 _ | .sbcAN8 _ | .subAR8 _ | .subAN8 _ | .xorAR8 _ | .xorAN8 _
  | .addHlR16 _ | .decR16 _ | .incR16 _ | .bitR8 _ _ | .resR8 _ _ | .setR8 _ _ | .swapR8 _
  | .rlR8 _ | .rla | .rlcR8 _ | .rlca | .rrR8 _ | .rra | .rrcR8 _ | .rrca | .slaR8 _ | .sraR8 _
  | .srlR8 _ | .ldR8R8 _ _ | .ldR8N8 _ _ | .ldR16N16 _ _ | .jpHl | .jpN16 _ | .jpCcN16 _ _ | .jrE8 _
  | .jrCcE8 _ _ | .addHlSp | .addSpE8 _ | .decSp | .incSp | .ldSpN16 _ | .ldHlSpE8 _ | .ldSpHl
  | .ccf | .cpl | .daa | .di | .ei | .halt | .nop | .scf | .stop _ | .illegalD3 | .illegalDB
  | .illegalDD | .illegalE3 | .illegalE4 | .illegalEB | .illegalEC | .illegalED | .illegalF4
  | .illegalFC | .illegalFD => []

/-- Whether a data access of an instruction in a state goes to a device. -/
def touchesDevice (s : State) (i : Instr) : Bool :=
  (accesses s i).any fun
    | .reads a | .writes a => decide (s.bus.place a = .device)

/-- The addresses an instruction stores to in a state (20_memory.md R59). -/
def storesTo (s : State) (i : Instr) : List Word :=
  (accesses s i).filterMap fun
    | .writes a => some a
    | .reads _ => none

end Sys2Proof.Machine
end

