-- ==== Sys2Proof/Certificates/Slice0/Obligations.lean ====
section
/-! DEFINITION. The statements for the provers. Every statement about a next state gives the WHOLE next state: what
is not named in it is unchanged (`WritesR8`, `WritesR16`, `AccessesWithFlags`, `Accesses` and `Pushed` of Safety.lean say
what else is as before; an equation of states with `bus` untouched keeps every byte of memory). The bus is any bus: ROM,
absent addresses, other names of the same bytes, bytes not implemented whole, devices that change memory (`Accesses`,
`State.seen`), at `[IE]` and `[IF]` too; with `FlatRAM`, a store is what the next read of its address returns and no read
has an effect. Encodings are the subject of the decoder's statements;
cycle counts are data (Machine/Timing.lean, log entry 21). -/

open Sys2Proof Sys2Proof.Machine

/-! ## Reset, the decoder and the step -/

/-- The reset state of 10_state.md R39 and 70_reset_and_hazards.md R320: `PC` and `IME` at the defaults of
`ResetState`, the hidden bits and the mode by the spec's decision D8; and under any other `ResetState`, `PC`, `IME`, the
registers, the flags, `SP` and the mode as it gives them, the hidden bits as before (log entry 4: the defaults of `PC`
and `IME` are PRESUMED, the mode and the hidden bits a DESIGN CHOICE of the spec). Nothing is stated of the values that
the spec leaves unspecified. -/
def Obligations.ResetLeavesRunningAtResetPc : Prop :=
  (State.reset.pc = 0x0000#16 ∧ State.reset.ime = false ∧ State.reset.eiPending = false ∧
    State.reset.haltBug = false ∧ State.reset.mode = .running) ∧
  ∀ (r : ResetState) (bus : Bus) (params : Params) (arrivals : List Arrival),
    let s := State.afterReset r bus params arrivals
    s.pc = r.pc ∧ s.ime = r.ime ∧ s.regs = r.regs ∧ s.f = r.f ∧ s.sp = r.sp ∧ s.eiPending = false ∧
      s.haltBug = false ∧ s.mode = r.mode

/-- Words written out from the patterns of 30_encoding.md R93 and R94, one or two of each family, decode to the
instructions they stand for. The byte values are the spec's from general knowledge (R80; log entry 6). -/
def Obligations.SpecWordsDecode : Prop :=
  decode [0b10001011#8] = .ok (.adcAR8 .e, []) ∧
  decode [0xD6#8, 0x0F#8] = .ok (.subAN8 0x0F#8, []) ∧
  decode [0b00101001#8] = .ok (.addHlR16 .hl, []) ∧
  decode [0xCB#8, 0b01100101#8] = .ok (.bitR8 4 .l, []) ∧
  decode [0xCB#8, 0b00101110#8] = .ok (.sraHl, []) ∧
  decode [0b00100001#8, 0x34#8, 0x12#8] = .ok (.ldR16N16 .hl 0x1234#16, []) ∧
  decode [0b01000001#8] = .ok (.ldR8R8 .b .c, []) ∧
  decode [0b11010010#8, 0xCD#8, 0xAB#8] = .ok (.jpCcN16 .nc 0xABCD#16, []) ∧
  decode [0b11101111#8] = .ok (.rst 0x0028#16, []) ∧
  decode [0b11010101#8] = .ok (.pushR16 .de, []) ∧
  decode [0x76#8] = .ok (.halt, []) ∧
  decode [0xD3#8] = .ok (.illegalD3, [])

/-- Decoding what the encoder writes for a well-formed instruction gives it back, whatever bytes follow: no
operand bit of any encoding is dropped (30_encoding.md R83 to R95). -/
def Obligations.DecodeOfEncode : Prop :=
  ∀ (i : Instr) (rest : List Byte), i.wellFormed = true → decode (encode i ++ rest) = .ok (i, rest)

/-- What the decoder accepts is a well-formed instruction, and the bytes it consumed are that instruction's
encoding: no byte sequence has two readings and no byte of it is ignored (30_encoding.md R92, R94, R96). The byte
after `STOP`'s opcode is an operand of the constructor (log entry 10). -/
def Obligations.EncodeOfDecode : Prop :=
  ∀ (bs : List Byte) (i : Instr) (rest : List Byte), decode bs = .ok (i, rest) →
    i.wellFormed = true ∧ bs = encode i ++ rest

/-- The decoder is total on any three bytes, and a first byte is illegal exactly if it is one of the eleven of
30_encoding.md R100. The eleven values are the spec's from general knowledge (R80, R100; PRESUMED, log entry 6). -/
def Obligations.IllegalFirstBytes : Prop :=
  ∀ (b x y : Byte) (more : List Byte), ∃ i rest, decode (b :: x :: y :: more) = .ok (i, rest) ∧
    (i ∈ illegalInstrs ↔ b ∈ [0xD3#8, 0xDB#8, 0xDD#8, 0xE3#8, 0xE4#8, 0xEB#8, 0xEC#8, 0xED#8, 0xF4#8, 0xFC#8, 0xFD#8])

/-- A running CPU with no interrupt to dispatch executes the instruction its next bytes decode to, in the state `u` after
the platform's turn: `PC` moves past the instruction (by one less with the HALT bug armed, log entry 18), the bug is
disarmed, the instruction runs, and a pending `EI` lands afterwards, a second `EI` not postponing the first (log entry
17). A fault or a refusal of the instruction is the step's (60_exceptions.md R300, 30_encoding.md R81, R82). Marked in
the log, both DEDUCED: an `EI` does not land after an illegal byte (entry 12), and an illegal byte fetched with the HALT
bug armed leaves `PC` at the byte, where the plain words of R100 and R281 have it past the byte (entry 24). -/
def Obligations.StepRunsDecodedInstruction : Prop :=
  ∀ (s : State) (i : Instr) (rest : List Byte),
    let u := s.arrive
    u.mode = .running → ¬ (u.ime = true ∧ u.pending = true) → decode u.nextBytes = .ok (i, rest) →
    step s =
      match exec i (u.fetched rest) with
      | .next t =>
        .next (if u.eiPending ∧ t.eiPending ∧ t.mode ≠ .faulted then { t with ime := true, eiPending := false } else t)
      | .fault r => .fault r
      | .refused r => .refused r

/-! ## Invariants and safety -/

/-- Every step keeps the invariant of the machine: memory stays canonical, and the HALT bug is armed only while
the CPU runs with an interrupt pending (10_state.md R33, note of 60_exceptions.md R291). -/
def Obligations.StepKeepsInv : Prop := ∀ s t : State, s.Inv → step s = .next t → t.Inv

/-- The reset state meets the invariant, and so does the state after reset under any parameters with canonical memory.
That the reset memory lists nothing is a DESIGN CHOICE (log entry 2), and that the HALT bug is not armed at reset is the
spec's decision D8 (DESIGN CHOICE, log entry 4). -/
def Obligations.ResetMeetsInv : Prop :=
  State.reset.Inv ∧ ∀ (r : ResetState) (bus : Bus) (params : Params) (arrivals : List Arrival), bus.mem.wf = true →
    (State.afterReset r bus params arrivals).Inv

/-- A step stops exactly where the parameters say so. It faults if `IllegalOpcode` is `fault` and the CPU is Faulted or
executes an illegal byte; it is refused if the CPU is Stopped and `StopBehaviour` is `refuse`, if `IllegalOpcode` is
`refuse` and the CPU is Faulted or executes an illegal byte, or at a `STOP` with a second byte other than $00 where
`StopBehaviour` is `wakes`; everywhere else it goes on (60_exceptions.md R281, R300, 47_misc.md R268; the treatments are
DESIGN CHOICE, log entries 8, 9 and 10). -/
def Obligations.StepStopsExactlyWhenStuck : Prop :=
  ∀ s : State,
    let u := s.arrive
    let illegal : Prop := u.mode = .faulted ∨ (u.runsInstr ∧ u.read u.pc ∈ illegalBytes.map Prod.fst)
    ((∃ r, step s = .fault r) ↔ s.params.illegalOpcode = .fault ∧ illegal) ∧
    ((∃ r, step s = .refused r) ↔
      (s.params.stopBehaviour = .refuse ∧ u.mode = .stopped) ∨ (s.params.illegalOpcode = .refuse ∧ illegal) ∨
      (s.params.stopBehaviour = .wakes ∧ u.runsInstr ∧
        ∃ pad rest, decode u.nextBytes = .ok (.stop pad, rest) ∧ pad ≠ 0x00#8))

/-- What the platform does before a step (`IntArrival`, 60_exceptions.md R283): with nothing due, nothing. Otherwise it
sets the bits it asks for in `[IF]`, as far as they are implemented, it stores what it stores to memory, never to `[IE]`,
every other byte of memory stays, its devices see the turn, a stopped CPU runs again if the turn ends the `STOP` and
`StopBehaviour` is `wakes`, and nothing else changes. Memory stays canonical, and the invariant is kept where `[IE]` and
`[IF]` are bytes of memory; what they read as where they are a device's is free (log entries 7, 9 and 27). -/
def Obligations.RequestSetsBitsOnly : Prop :=
  ∀ s : State, s.Inv → (s.arrivals = [] → s.arrive = s) ∧
    ∀ t rest, s.arrivals = t :: rest →
      Accesses s s.arrive [.turn t] ∧ s.arrive.bus.mem.wf = true ∧
      (∀ c k, s.bus.place s.bus.ifAddr = .cell c k →
        s.arrive.bus.intf = s.bus.intf ||| (t.requests &&& ~~~k.fixed) ∧
        ((∀ d l, s.bus.place s.bus.ieAddr = .cell d l → d ≠ c → s.arrive.bus.ie = s.bus.ie) ∧
          (s.bus.place s.bus.ieAddr ≠ .device → s.arrive.Inv))) ∧
      (∀ a d k, s.bus.place a = .cell d k → s.bus.isCellOf d s.bus.ifAddr = false → d ∉ t.stores.map Prod.fst →
        s.arrive.read a = s.read a) ∧
      { s.arrive with bus := s.bus } = { s with
        arrivals := rest
        mode := if s.mode = .stopped ∧ s.params.stopBehaviour = .wakes ∧ t.endsStop = true then .running else s.mode }

/-- Memories in canonical form that read alike at all 65536 addresses are equal data. The form is the model's own
(20_memory.md R50 gives only the address space). -/
def Obligations.CanonicalMemoryIsUnique : Prop :=
  ∀ m k : Memory, m.wf = true → k.wf = true → (∀ a, a < 65536 → m.read a = k.read a) → m = k

/-- A pair is its two halves, high byte first, and `AF` has the flags in bits 7 to 4 (10_state.md R22, R23). -/
def Obligations.PairsAliasHalves : Prop :=
  ∀ s : State,
    (s.r16 .bc).toNat = (s.r8 .b).toNat * 256 + (s.r8 .c).toNat ∧
    (s.r16 .de).toNat = (s.r8 .d).toNat * 256 + (s.r8 .e).toNat ∧
    (s.r16 .hl).toNat = (s.r8 .h).toNat * 256 + (s.r8 .l).toNat ∧
    s.af.toNat = (s.r8 .a).toNat * 256 +
      (s.f.z.toNat * 128 + s.f.n.toNat * 64 + s.f.h.toNat * 32 + s.f.c.toNat * 16)

/-! ## 8-bit arithmetic and logic -/

/-- `ADD A,x` for every form of `x`: `A` is the sum mod 256; `Z` of the result, `N` 0, `H` and `C` the carries out
of bits 3 and 7; the `[HL]` form reads the byte at `HL` and no other (40_alu8.md R125 to R127). -/
def Obligations.AddWritesSumAndCarries : Prop :=
  ∀ s : State,
    let adds (i : Instr) (es : List Access) (x : Byte) : Prop := ∃ t, exec i s = .next t ∧
      WritesR8 (s.seen es) t .a (s.acc + x)
      { z := decide (s.acc + x = 0), n := false
        h := decide (s.acc.toNat % 16 + x.toNat % 16 > 15), c := decide (s.acc.toNat + x.toNat > 255) }
    (∀ r, adds (.addAR8 r) [] (s.r8 r)) ∧ adds .addAHl [.read s.hl] (s.read s.hl) ∧ ∀ n, adds (.addAN8 n) [] n

/-- `ADC A,x` and `SBC A,x` for every form of `x`: the old carry takes part in the result and in both carries or
borrows (40_alu8.md R122 to R124, R141 to R143; that it takes part in `H` is the spec's from general knowledge,
log entry 14). -/
def Obligations.AdcAndSbcUseOldCarry : Prop :=
  ∀ s : State,
    let adds (i : Instr) (es : List Access) (x : Byte) : Prop := ∃ t, exec i s = .next t ∧
      WritesR8 (s.seen es) t .a (s.acc + x + carryByte s.f.c)
        { z := decide (s.acc + x + carryByte s.f.c = 0), n := false
          h := decide (s.acc.toNat % 16 + x.toNat % 16 + s.f.c.toNat > 15)
          c := decide (s.acc.toNat + x.toNat + s.f.c.toNat > 255) }
    let subtracts (i : Instr) (es : List Access) (x : Byte) : Prop := ∃ t, exec i s = .next t ∧
      WritesR8 (s.seen es) t .a (s.acc - x - carryByte s.f.c)
        { z := decide (s.acc - x - carryByte s.f.c = 0), n := true
          h := decide (s.acc.toNat % 16 < x.toNat % 16 + s.f.c.toNat)
          c := decide (s.acc.toNat < x.toNat + s.f.c.toNat) }
    ((∀ r, adds (.adcAR8 r) [] (s.r8 r)) ∧ adds .adcAHl [.read s.hl] (s.read s.hl) ∧ ∀ n, adds (.adcAN8 n) [] n) ∧
    ((∀ r, subtracts (.sbcAR8 r) [] (s.r8 r)) ∧ subtracts .sbcAHl [.read s.hl] (s.read s.hl) ∧
      ∀ n, subtracts (.sbcAN8 n) [] n)

/-- `SUB A,x` and `CP A,x` for every form of `x`: `Z` of the difference mod 256, `N` 1, `H` and `C` set when there
IS a borrow; `SUB` writes the difference to `A`, `CP` writes the flags only (40_alu8.md R131 to R133, R144 to
R146). -/
def Obligations.SubWritesDifferenceCpOnlyFlags : Prop :=
  ∀ s : State,
    let flags (x : Byte) : Flags :=
      { z := decide (s.acc = x), n := true
        h := decide (s.acc.toNat % 16 < x.toNat % 16), c := decide (s.acc < x) }
    let subtracts (i : Instr) (es : List Access) (x : Byte) : Prop := ∃ t, exec i s = .next t ∧
      WritesR8 (s.seen es) t .a (s.acc - x) (flags x)
    let compares (i : Instr) (es : List Access) (x : Byte) : Prop := exec i s = .next { s.seen es with f := flags x }
    ((∀ r, subtracts (.subAR8 r) [] (s.r8 r)) ∧ subtracts .subAHl [.read s.hl] (s.read s.hl) ∧
      ∀ n, subtracts (.subAN8 n) [] n) ∧
    ((∀ r, compares (.cpAR8 r) [] (s.r8 r)) ∧ compares .cpAHl [.read s.hl] (s.read s.hl) ∧
      ∀ n, compares (.cpAN8 n) [] n)

/-- `AND`, `OR` and `XOR` for every form of the operand: the bitwise result in `A`; `Z` of it, `N` and `C` 0, `H` 1
for `AND` and 0 for the others (40_alu8.md R128 to R130, R138 to R140, R147 to R149). -/
def Obligations.LogicWritesBitwiseResult : Prop :=
  ∀ s : State,
    let writes (i : Instr) (es : List Access) (v : Byte) (h : Bool) : Prop := ∃ t, exec i s = .next t ∧
      WritesR8 (s.seen es) t .a v { z := decide (v = 0), n := false, h := h, c := false }
    ((∀ r, writes (.andAR8 r) [] (s.acc &&& s.r8 r) true) ∧ writes .andAHl [.read s.hl] (s.acc &&& s.read s.hl) true ∧
      ∀ n, writes (.andAN8 n) [] (s.acc &&& n) true) ∧
    ((∀ r, writes (.orAR8 r) [] (s.acc ||| s.r8 r) false) ∧ writes .orAHl [.read s.hl] (s.acc ||| s.read s.hl) false ∧
      ∀ n, writes (.orAN8 n) [] (s.acc ||| n) false) ∧
    ((∀ r, writes (.xorAR8 r) [] (s.acc ^^^ s.r8 r) false) ∧ writes .xorAHl [.read s.hl] (s.acc ^^^ s.read s.hl) false ∧
      ∀ n, writes (.xorAN8 n) [] (s.acc ^^^ n) false)

/-- `INC r8` and `DEC r8`: the register by one mod 256; `Z` of the result, `N` 0 and 1, `H` on overflow from bit 3
and on borrow from bit 4, `C` unaffected (40_alu8.md R134, R136). -/
def Obligations.IncDecRegister : Prop :=
  ∀ (s : State) (r : Reg8),
    (∃ t, exec (.incR8 r) s = .next t ∧ WritesR8 s t r (s.r8 r + 1)
      { z := decide (s.r8 r + 1 = 0), n := false, h := decide ((s.r8 r).toNat % 16 = 15), c := s.f.c }) ∧
    (∃ t, exec (.decR8 r) s = .next t ∧ WritesR8 s t r (s.r8 r - 1)
      { z := decide (s.r8 r - 1 = 0), n := true, h := decide ((s.r8 r).toNat % 16 = 0), c := s.f.c })

/-- `INC [HL]` and `DEC [HL]`: the byte at `HL` by one mod 256, with the flags of the register forms; no other byte
changes (40_alu8.md R135, R137). -/
def Obligations.IncDecMemory : Prop :=
  ∀ s : State, s.bus.mem.wf = true →
    (∃ t, exec .incHlInd s = .next t ∧ AccessesWithFlags s t [.read s.hl, .write s.hl (s.read s.hl + 1)]
      { z := decide (s.read s.hl + 1 = 0), n := false
        h := decide ((s.read s.hl).toNat % 16 = 15), c := s.f.c }) ∧
    (∃ t, exec .decHlInd s = .next t ∧ AccessesWithFlags s t [.read s.hl, .write s.hl (s.read s.hl - 1)]
      { z := decide (s.read s.hl - 1 = 0), n := true
        h := decide ((s.read s.hl).toNat % 16 = 0), c := s.f.c })

/-- Subtraction is addition of the complement: `SBC A,x` gives the `A` that `ADC A,255-x` gives with the carry
inverted, and the two `H` and the two `C` are complements (the identity of 40_alu8.md R150, which the spec derives). -/
def Obligations.SubtractionIsComplementAddition : Prop :=
  ∀ (s : State) (x : Byte), ∃ t u,
    exec (.sbcAN8 x) s = .next t ∧
    exec (.adcAN8 (BitVec.ofNat 8 (255 - x.toNat))) { s with f := { s.f with c := !s.f.c } } = .next u ∧
    t.acc = u.acc ∧ t.f.c = !u.f.c ∧ t.f.h = !u.f.h

/-- The half carry of an addition or subtraction, with or without carry-in, is bit 4 of `old A XOR x XOR new A`: the
carry or borrow that entered bit 4. The spec's helpers give it by sums of low nibbles (40_alu8.md R120, R121); that
the carry-in of `ADC` and `SBC` counts in it is the spec's from general knowledge (PRESUMED, log entry 14). -/
def Obligations.HalfCarryIsCarryIntoBit4 : Prop :=
  ∀ (s : State) (x : Byte), ∀ i ∈ [Instr.addAN8 x, .adcAN8 x, .subAN8 x, .sbcAN8 x], ∃ t,
    exec i s = .next t ∧ t.f.h = (s.acc ^^^ x ^^^ t.acc).getLsbD 4

/-! ## 16-bit arithmetic -/

/-- `ADD HL,r16` and `ADD HL,SP`: `HL` is the sum mod 65536; `Z` unaffected, `N` 0, `H` and `C` the carries out of
bits 11 and 15 (41_alu16.md R160, 46_stack.md R242). -/
def Obligations.AddHlWritesSum : Prop :=
  ∀ s : State,
    let adds (i : Instr) (x : Word) : Prop := ∃ t, exec i s = .next t ∧ WritesR16 s t .hl (s.hl + x)
      { z := s.f.z, n := false, h := decide (s.hl.toNat % 4096 + x.toNat % 4096 > 4095)
        c := decide (s.hl.toNat + x.toNat > 65535) }
    (∀ p, adds (.addHlR16 p) (s.r16 p)) ∧ adds .addHlSp s.sp

/-- `INC r16` and `DEC r16`: the pair by one mod 65536, no flag (41_alu16.md R161, R162). -/
def Obligations.IncDecPair : Prop :=
  ∀ (s : State) (p : Reg16),
    (∃ t, exec (.incR16 p) s = .next t ∧ WritesR16 s t p (s.r16 p + 1) s.f) ∧
    (∃ t, exec (.decR16 p) s = .next t ∧ WritesR16 s t p (s.r16 p - 1) s.f)

/-! ## Bit operations and shifts -/

/-- `BIT u3,r8` and `BIT u3,[HL]`: `Z` is the complement of the bit, `N` 0, `H` 1, `C` unaffected; nothing else is
written (42_bitops.md R170, R171). -/
def Obligations.BitTestsIntoZ : Prop :=
  ∀ (s : State) (u : Fin 8),
    let tests (i : Instr) (es : List Access) (x : Byte) : Prop :=
      exec i s = .next { s.seen es with f := { z := !x.getLsbD u.val, n := false, h := true, c := s.f.c } }
    (∀ r, tests (.bitR8 u r) [] (s.r8 r)) ∧ tests (.bitHl u) [.read s.hl] (s.read s.hl)

/-- `RES u3,r8` and `SET u3,r8`: the one bit becomes 0 or 1, every other bit and every flag stays (42_bitops.md
R172, R174). -/
def Obligations.ResSetRegisterBit : Prop :=
  ∀ (s : State) (u : Fin 8) (r : Reg8),
    (∃ t, exec (.resR8 u r) s = .next t ∧ WritesR8 s t r (t.r8 r) s.f ∧
      ∀ j : Fin 8, (t.r8 r).getLsbD j.val = (if j = u then false else (s.r8 r).getLsbD j.val)) ∧
    (∃ t, exec (.setR8 u r) s = .next t ∧ WritesR8 s t r (t.r8 r) s.f ∧
      ∀ j : Fin 8, (t.r8 r).getLsbD j.val = (if j = u then true else (s.r8 r).getLsbD j.val))

/-- `RES u3,[HL]` and `SET u3,[HL]`: the byte at `HL` is read, and stored with the one bit 0 or 1 and every other bit as
read; every other byte and every flag stays (42_bitops.md R173, R175). That the store is made even where the bit has its
value already, which a device sees, is the spec's from general knowledge and the model's choice (D24; DESIGN CHOICE, log
entry 22). -/
def Obligations.ResSetMemoryBit : Prop :=
  ∀ (s : State) (u : Fin 8), s.bus.mem.wf = true →
    (∃ t v, exec (.resHl u) s = .next t ∧ AccessesWithFlags s t [.read s.hl, .write s.hl v] s.f ∧
      ∀ j : Fin 8, v.getLsbD j.val = (if j = u then false else (s.read s.hl).getLsbD j.val)) ∧
    (∃ t v, exec (.setHl u) s = .next t ∧ AccessesWithFlags s t [.read s.hl, .write s.hl v] s.f ∧
      ∀ j : Fin 8, v.getLsbD j.val = (if j = u then true else (s.read s.hl).getLsbD j.val))

/-- `SWAP r8` and `SWAP [HL]`: the nibbles change places (a rotation by four); `Z` of the result, the other flags 0
(42_bitops.md R176, R177). -/
def Obligations.SwapRotatesByFour : Prop :=
  ∀ s : State,
    let flags (v : Byte) : Flags := { z := decide (v = 0), n := false, h := false, c := false }
    (∀ r, ∃ t, exec (.swapR8 r) s = .next t ∧
      WritesR8 s t r ((s.r8 r).rotateLeft 4) (flags ((s.r8 r).rotateLeft 4))) ∧
    (s.bus.mem.wf = true → ∃ t, exec .swapHl s = .next t ∧
      AccessesWithFlags s t [.read s.hl, .write s.hl ((s.read s.hl).rotateLeft 4)] (flags ((s.read s.hl).rotateLeft 4)))

/-- The seven shifts and rotates of a register: the result by the diagrams, `Z` of it, `N` and `H` 0, `C` the bit
shifted out (43_shifts.md R181, R184, R187, R190, R193, R195, R197). -/
def Obligations.ShiftsOfRegister : Prop :=
  ∀ (s : State) (r : Reg8),
    let x := s.r8 r
    let shifts (i : Instr) (v : Byte) (c : Bool) : Prop := ∃ t, exec i s = .next t ∧
      WritesR8 s t r v { z := decide (v = 0), n := false, h := false, c := c }
    shifts (.rlR8 r) (x <<< 1 ||| carryByte s.f.c) (x.getLsbD 7) ∧
    shifts (.rlcR8 r) (x.rotateLeft 1) (x.getLsbD 7) ∧
    shifts (.rrR8 r) (x >>> 1 ||| carryByte s.f.c <<< 7) (x.getLsbD 0) ∧
    shifts (.rrcR8 r) (x.rotateRight 1) (x.getLsbD 0) ∧
    shifts (.slaR8 r) (x <<< 1) (x.getLsbD 7) ∧
    shifts (.sraR8 r) (x.sshiftRight 1) (x.getLsbD 0) ∧
    shifts (.srlR8 r) (x >>> 1) (x.getLsbD 0)

/-- The seven shifts and rotates of the byte at `HL`: written back to `HL`, with the flags of the register forms
(43_shifts.md R182, R185, R188, R191, R194, R196, R198). -/
def Obligations.ShiftsOfMemory : Prop :=
  ∀ s : State, s.bus.mem.wf = true →
    let x := s.read s.hl
    let shifts (i : Instr) (v : Byte) (c : Bool) : Prop := ∃ t, exec i s = .next t ∧
      AccessesWithFlags s t [.read s.hl, .write s.hl v] { z := decide (v = 0), n := false, h := false, c := c }
    shifts .rlHl (x <<< 1 ||| carryByte s.f.c) (x.getLsbD 7) ∧
    shifts .rlcHl (x.rotateLeft 1) (x.getLsbD 7) ∧
    shifts .rrHl (x >>> 1 ||| carryByte s.f.c <<< 7) (x.getLsbD 0) ∧
    shifts .rrcHl (x.rotateRight 1) (x.getLsbD 0) ∧
    shifts .slaHl (x <<< 1) (x.getLsbD 7) ∧
    shifts .sraHl (x.sshiftRight 1) (x.getLsbD 0) ∧
    shifts .srlHl (x >>> 1) (x.getLsbD 0)

/-- The four one-byte rotates of `A`: as the `$CB`-prefixed rotates, but `Z` is 0 whatever the result (43_shifts.md
R183, R186, R189, R192). -/
def Obligations.AccumulatorRotatesClearZ : Prop :=
  ∀ s : State,
    let rotates (i : Instr) (v : Byte) (c : Bool) : Prop := ∃ t, exec i s = .next t ∧
      WritesR8 s t .a v { z := false, n := false, h := false, c := c }
    rotates .rla (s.acc <<< 1 ||| carryByte s.f.c) (s.acc.getLsbD 7) ∧
    rotates .rlca (s.acc.rotateLeft 1) (s.acc.getLsbD 7) ∧
    rotates .rra (s.acc >>> 1 ||| carryByte s.f.c <<< 7) (s.acc.getLsbD 0) ∧
    rotates .rrca (s.acc.rotateRight 1) (s.acc.getLsbD 0)

/-! ## Loads -/

/-- `LD r8,r8`, `LD r8,n8` and `LD r16,n16` copy into the destination and change nothing else, no flag (44_loads.md
R200 to R202). -/
def Obligations.RegisterLoadsCopy : Prop :=
  ∀ s : State,
    (∀ dst src, ∃ t, exec (.ldR8R8 dst src) s = .next t ∧ WritesR8 s t dst (s.r8 src) s.f) ∧
    (∀ dst n, ∃ t, exec (.ldR8N8 dst n) s = .next t ∧ WritesR8 s t dst n s.f) ∧
    (∀ p n, ∃ t, exec (.ldR16N16 p n) s = .next t ∧ WritesR16 s t p n s.f)

/-- The loads of a byte from memory put the byte at the address into the register and change nothing else
(44_loads.md R205, R210 to R213). -/
def Obligations.MemoryLoadsReadByte : Prop :=
  ∀ s : State,
    let loads (i : Instr) (r : Reg8) (a : Word) : Prop := ∃ t, exec i s = .next t ∧
      WritesR8 (s.seen [.read a]) t r (s.read a) s.f
    (∀ r, loads (.ldR8Hl r) r s.hl) ∧ (∀ p, loads (.ldAR16 p) .a (s.r16 p)) ∧ (∀ n, loads (.ldAN16 n) .a n) ∧
    (∀ n, loads (.ldhAN8 n) .a (0xFF00#16 + n.zeroExtend 16)) ∧
    loads .ldhAC .a (0xFF00#16 + (s.r8 .c).zeroExtend 16)

/-- The one-byte stores put the byte at the address the form computes and change nothing else: no other byte, no
register, no flag (44_loads.md R203, R204, R206 to R209). -/
def Obligations.StoresWriteOneByte : Prop :=
  ∀ s : State, s.bus.mem.wf = true →
    let stores (i : Instr) (a : Word) (v : Byte) : Prop := ∃ t, exec i s = .next t ∧
      AccessesWithFlags s t [.write a v] s.f
    (∀ r, stores (.ldHlR8 r) s.hl (s.r8 r)) ∧ (∀ n, stores (.ldHlN8 n) s.hl n) ∧
    (∀ p, stores (.ldR16A p) (s.r16 p) s.acc) ∧ (∀ n, stores (.ldN16A n) n s.acc) ∧
    (∀ n, stores (.ldhN8A n) (0xFF00#16 + n.zeroExtend 16) s.acc) ∧
    stores .ldhCA (0xFF00#16 + (s.r8 .c).zeroExtend 16) s.acc

/-- `LD [HL+],A`, `LD [HL-],A`, `LD A,[HL+]` and `LD A,[HL-]` use the old `HL`, then move it by one mod 65536; no
flag changes (44_loads.md R214 to R217; that it wraps is the spec's decision D4, log entry 15). -/
def Obligations.PostIncrementLoadsAndStores : Prop :=
  ∀ s : State,
    let stores (i : Instr) (hl : Word) : Prop := ∃ t, exec i s = .next t ∧ t.hl = hl ∧
      (∀ q, q ≠ .h → q ≠ .l → t.r8 q = s.r8 q) ∧ Accesses s t [.write s.hl s.acc] ∧
      { t with regs := s.regs, bus := s.bus } = s
    let loads (i : Instr) (hl : Word) : Prop := ∃ t, exec i s = .next t ∧ t.hl = hl ∧ t.acc = s.read s.hl ∧
      (∀ q, q ≠ .a → q ≠ .h → q ≠ .l → t.r8 q = s.r8 q) ∧ { t with regs := s.regs } = s.seen [.read s.hl]
    (s.bus.mem.wf = true → stores .ldHliA (s.hl + 1) ∧ stores .ldHldA (s.hl - 1)) ∧
    loads .ldAHli (s.hl + 1) ∧ loads .ldAHld (s.hl - 1)

/-! ## Jumps and subroutines -/

/-- `JP n16` and `JP HL` write `PC` and nothing else; `JP HL` takes the value of `HL`, not memory. `JP cc,n16` jumps
exactly if the condition holds and otherwise changes nothing; the four conditions read `Z` and `C` as their names
say (45_jumps.md R222 to R224, 30_encoding.md R86). -/
def Obligations.JumpsWritePc : Prop :=
  ∀ (s : State) (n : Word),
    let jumpsIf (cc : Cond) (taken : Bool) : Prop :=
      exec (.jpCcN16 cc n) s = .next { s with pc := if taken then n else s.pc }
    exec (.jpN16 n) s = .next { s with pc := n } ∧ exec .jpHl s = .next { s with pc := s.hl } ∧
    jumpsIf .nz (!s.f.z) ∧ jumpsIf .z s.f.z ∧ jumpsIf .nc (!s.f.c) ∧ jumpsIf .c s.f.c

/-- `JR e8` adds the sign-extended offset to the address after the instruction, mod 65536; `JR cc,e8` does so exactly
if the condition holds, and otherwise changes nothing (45_jumps.md R225, R226; that the sum wraps is the spec's
decision D4, log entry 15). -/
def Obligations.RelativeJumpAddsSignedOffset : Prop :=
  ∀ (s : State) (e : Byte),
    let target := BitVec.ofInt 16 ((s.pc.toNat : Int) + e.toInt)
    exec (.jrE8 e) s = .next { s with pc := target } ∧
    ∀ cc, exec (.jrCcE8 cc e) s = .next { s with pc := if s.f.holds cc then target else s.pc }

/-- `CALL n16` and `RST vec` push the address after the instruction (the high byte at `SP-1`, the low byte at
`SP-2`), lower `SP` by two and jump; no other byte, register or flag changes. `CALL cc,n16` does the same if the
condition holds and otherwise changes nothing: neither `SP` nor memory (45_jumps.md R220, R221, R230; `SP` wraps by
decision D4, log entry 15). -/
def Obligations.CallsPushReturnAddress : Prop :=
  ∀ s : State, s.bus.mem.wf = true →
    let calls (i : Instr) (n : Word) : Prop := ∃ t, exec i s = .next t ∧ Pushed s t s.pc ∧
      { t with bus := s.bus } = { s with sp := s.sp - 2, pc := n }
    (∀ n, calls (.callN16 n) n) ∧ (∀ vec, calls (.rst vec) vec) ∧
    ∀ cc n, (s.f.holds cc = true → calls (.callCcN16 cc n) n) ∧
      (s.f.holds cc = false → exec (.callCcN16 cc n) s = .next s)

/-- `RET` pops `PC` (the low byte at `SP`, the high byte at `SP+1`) and raises `SP` by two (`State.top` and
`State.popped` of Safety.lean); `RET cc` does so exactly if the condition holds and otherwise changes nothing; `RETI`
also sets `IME`, at once (45_jumps.md R227 to R229). The wraps of `SP` are decision D4 (log entry 15). -/
def Obligations.ReturnsPopPc : Prop :=
  ∀ s : State,
    exec .ret s = .next { s.popped with pc := s.top } ∧
    (∀ cc, s.f.holds cc = true → exec (.retCc cc) s = .next { s.popped with pc := s.top }) ∧
    (∀ cc, s.f.holds cc = false → exec (.retCc cc) s = .next s) ∧
    exec .reti s = .next { s.popped with pc := s.top, ime := true }

/-! ## Stack operations -/

/-- `ADD SP,e8` and `LD HL,SP+e8`: the signed sum mod 65536 in `SP` or `HL`; `Z` and `N` 0, `H` and `C` the carries
out of bits 3 and 7 of the low byte of `SP` plus the unsigned immediate (46_stack.md R243, R248; that reading of the
flags is the spec's from general knowledge, log entry 14). -/
def Obligations.SpPlusOffset : Prop :=
  ∀ (s : State) (e : Byte),
    let sum := BitVec.ofInt 16 ((s.sp.toNat : Int) + e.toInt)
    let flags : Flags :=
      { z := false, n := false, h := decide (s.sp.toNat % 16 + e.toNat % 16 > 15)
        c := decide (s.sp.toNat % 256 + e.toNat > 255) }
    exec (.addSpE8 e) s = .next { s with sp := sum, f := flags } ∧
    ∃ t, exec (.ldHlSpE8 e) s = .next t ∧ WritesR16 s t .hl sum flags

/-- `INC SP`, `DEC SP`, `LD SP,n16` and `LD SP,HL` write `SP` and nothing else, no flag (46_stack.md R244 to R246,
R249). -/
def Obligations.SpArithmeticAndLoads : Prop :=
  ∀ s : State,
    exec .incSp s = .next { s with sp := s.sp + 1 } ∧
    exec .decSp s = .next { s with sp := s.sp - 1 } ∧
    (∀ n, exec (.ldSpN16 n) s = .next { s with sp := n }) ∧
    exec .ldSpHl s = .next { s with sp := s.hl }

/-- `LD [n16],SP` stores the low byte of `SP` at `n16`, then the high byte at `n16 + 1` mod 65536, and changes nothing
else (46_stack.md R247; the wrap is decision D4, log entry 15; the order is D24, log entry 22). -/
def Obligations.StoreSpLittleEndian : Prop :=
  ∀ (s : State) (n : Word), s.bus.mem.wf = true → ∃ t, exec (.ldN16Sp n) s = .next t ∧
    Accesses s t [.write n (BitVec.ofNat 8 (s.sp.toNat % 256)), .write (n + 1) (BitVec.ofNat 8 (s.sp.toNat / 256))] ∧
    { t with bus := s.bus } = s

/-- `PUSH r16` and `PUSH AF` store the high byte at `SP-1` and the low byte at `SP-2` and lower `SP` by two; the low
byte of `AF` is `Z N H C 0 0 0 0`; nothing else changes (46_stack.md R252, R253; `SP` wraps by decision D4, log
entry 15). -/
def Obligations.PushStoresHighThenLow : Prop :=
  ∀ s : State, s.bus.mem.wf = true →
    let pushes (i : Instr) (hi lo : Byte) : Prop := ∃ t, exec i s = .next t ∧
      Accesses s t [.write (s.sp - 1) hi, .write (s.sp - 2) lo] ∧ { t with bus := s.bus } = { s with sp := s.sp - 2 }
    pushes (.pushR16 .bc) (s.r8 .b) (s.r8 .c) ∧ pushes (.pushR16 .de) (s.r8 .d) (s.r8 .e) ∧
    pushes (.pushR16 .hl) (s.r8 .h) (s.r8 .l) ∧
    pushes .pushAf (s.r8 .a)
      (carryByte s.f.z <<< 7 ||| carryByte s.f.n <<< 6 ||| carryByte s.f.h <<< 5 ||| carryByte s.f.c <<< 4)

/-- `POP r16` and `POP AF` read the low half at `SP` and the high half at `SP+1` and raise `SP` by two; `POP AF` takes
the flags from bits 7 to 4 of the low byte; memory and all else stay, but that a device sees the two reads
(46_stack.md R250, R251; `SP` wraps by decision D4, log entry 15). -/
def Obligations.PopLoadsLowThenHigh : Prop :=
  ∀ s : State,
    let lo := s.read s.sp
    let hi := (s.seen [.read s.sp]).read (s.sp + 1)
    let pops (p : Reg16) (high low : Reg8) : Prop := ∃ t, exec (.popR16 p) s = .next t ∧
      t.r8 high = hi ∧ t.r8 low = lo ∧ (∀ q, q ≠ high → q ≠ low → t.r8 q = s.r8 q) ∧
      { t with regs := s.regs } = s.popped
    pops .bc .b .c ∧ pops .de .d .e ∧ pops .hl .h .l ∧
    ∃ t, exec .popAf s = .next t ∧ WritesR8 s.popped t .a hi
      { z := lo.getLsbD 7, n := lo.getLsbD 6, h := lo.getLsbD 5, c := lo.getLsbD 4 }

/-- A pop after a push with no write between gives the pushed value and restores `SP`: into any pair for `PUSH r16`,
and for `PUSH AF`, `POP AF` with `A` and all four flags restored even if both were changed in between (46_stack.md
R241, R250, R251). The stack lies in plain memory: of other memory the spec requires nothing (20_memory.md R51). -/
def Obligations.PopAfterPushRestores : Prop :=
  ∀ s : State, s.bus.mem.wf = true → s.isRam (s.sp - 1) → s.isRam (s.sp - 2) →
    (∀ p q : Reg16, ∃ t u, exec (.pushR16 p) s = .next t ∧ exec (.popR16 q) t = .next u ∧
      u.r16 q = s.r16 p ∧ u.sp = s.sp ∧ u.f = s.f) ∧
    (∃ t, exec .pushAf s = .next t ∧ ∀ (a : Byte) (f : Flags), ∃ u,
      exec .popAf { t with regs := { t.regs with a := a }, f := f } = .next u ∧
      u.acc = s.acc ∧ u.f = s.f ∧ u.sp = s.sp ∧ u.regs = s.regs)

/-! ## Miscellaneous -/

/-- `CCF`, `SCF`, `CPL` and `NOP`: the carry complemented or set with `N` and `H` 0; `A` complemented with `N` and `H`
1; nothing at all (47_misc.md R260, R261, R266, R267). -/
def Obligations.CarryOpsComplementAndNop : Prop :=
  ∀ s : State,
    exec .ccf s = .next { s with f := { z := s.f.z, n := false, h := false, c := !s.f.c } } ∧
    exec .scf s = .next { s with f := { z := s.f.z, n := false, h := false, c := true } } ∧
    (∃ t, exec .cpl s = .next t ∧
      WritesR8 s t .a (BitVec.ofNat 8 (255 - s.acc.toNat)) { z := s.f.z, n := true, h := true, c := s.f.c }) ∧
    exec .nop s = .next s

/-- `DAA` by the algorithm of 47_misc.md R262, for all `A`, `N`, `H` and `C`: the correction is the sum of `$60` and
`$06` as the flags and digits ask, added or subtracted by `N`. The algorithm is the spec's from general knowledge
(D14; log entry 13). -/
def Obligations.DaaAdjusts : Prop :=
  ∀ s : State,
    let high : Bool := s.f.c || (!s.f.n && decide (s.acc.toNat > 0x99))
    let low : Bool := s.f.h || (!s.f.n && decide (s.acc.toNat % 16 > 9))
    let k : Byte := (if high then 0x60#8 else 0#8) + (if low then 0x06#8 else 0#8)
    let v : Byte := if s.f.n then s.acc - k else s.acc + k
    ∃ t, exec .daa s = .next t ∧
      WritesR8 s t .a v { z := decide (v = 0), n := s.f.n, h := false, c := high }

/-- `DAA` after `ADD A,n8` or `ADC A,n8` of two packed BCD numbers leaves the packed BCD sum mod 100 and the decimal
carry, with `Z` and `H` to match: "to get a correct BCD representation after an arithmetic instruction" (47_misc.md
R262; log entry 13). -/
def Obligations.DaaAfterAddIsDecimal : Prop :=
  ∀ (s : State) (x y : Nat), x < 100 → y < 100 → s.acc = bcd x →
    let decimal (i : Instr) (c : Nat) : Prop := ∃ t u, exec i s = .next t ∧ exec .daa t = .next u ∧
      u.acc = bcd ((x + y + c) % 100) ∧
      u.f = { z := decide ((x + y + c) % 100 = 0), n := false, h := false, c := decide (x + y + c > 99) }
    decimal (.addAN8 (bcd y)) 0 ∧ decimal (.adcAN8 (bcd y)) s.f.c.toNat

/-- `DAA` after `SUB A,n8` or `SBC A,n8` of two packed BCD numbers leaves the packed BCD difference mod 100 and the
decimal borrow (47_misc.md R262; log entry 13). -/
def Obligations.DaaAfterSubIsDecimal : Prop :=
  ∀ (s : State) (x y : Nat), x < 100 → y < 100 → s.acc = bcd x →
    let decimal (i : Instr) (c : Nat) : Prop := ∃ t u, exec i s = .next t ∧ exec .daa t = .next u ∧
      u.acc = bcd ((x + 200 - y - c) % 100) ∧
      u.f = { z := decide ((x + 200 - y - c) % 100 = 0), n := true, h := false, c := decide (x < y + c) }
    decimal (.subAN8 (bcd y)) 0 ∧ decimal (.sbcAN8 (bcd y)) s.f.c.toNat

/-! ## Interrupts, run modes and illegal bytes -/

/-- `DI` clears `IME` at once and cancels a pending `EI` (decision D11, log entry 17); `EI` only notes that `IME` is
due after the next instruction (47_misc.md R263, R264). -/
def Obligations.DiAtOnceEiDelayed : Prop :=
  ∀ s : State,
    exec .di s = .next { s with ime := false, eiPending := false } ∧
    exec .ei s = .next { s with eiPending := true }

/-- `HALT` in its three cases by `IME` and by whether `[IE] AND [IF]` has one of its low `NumIntSources` bits set:
halted, halted, or not halted with the HALT bug armed (47_misc.md R265). The addresses and the number of sources are
parameters, the mask is the spec's (D9, log entry 5). That `HALT` enters Halted with `IME` set and an interrupt already pending is
decision D22, and that the HALT bug is a hidden bit is D17 (both DESIGN CHOICE, log entry 18); the third case after an
`EI` is decision D12 (DESIGN CHOICE, log entry 11). -/
def Obligations.HaltThreeCases : Prop :=
  ∀ s : State,
    let none_pending : Prop :=
      s.read s.bus.ieAddr &&& s.read s.bus.ifAddr &&& BitVec.ofNat 8 (2 ^ s.params.numIntSources.val - 1) = 0#8
    (s.ime = true → exec .halt s = .next { s with mode := .halted }) ∧
    (s.ime = false → none_pending → exec .halt s = .next { s with mode := .halted }) ∧
    (s.ime = false → ¬ none_pending → exec .halt s = .next { s with haltBug := true })

/-- `STOP` enters the stopped mode whatever its second byte and changes nothing else; only where `StopBehaviour` is
supplied (`wakes`) is a second byte other than $00 refused. Then, by `StopBehaviour`: the step is refused; or nothing
further happens; or nothing happens until a turn of the platform ends the `STOP`, and the CPU runs on (47_misc.md R268,
30_encoding.md R101, 60_exceptions.md R300; decision D13, DESIGN CHOICE, log entries 9 and 10). -/
def Obligations.StopEntersStoppedMode : Prop :=
  ∀ s : State,
    (∀ pad, s.params.stopBehaviour ≠ .wakes ∨ pad = 0x00#8 → exec (.stop pad) s = .next { s with mode := .stopped }) ∧
    (∀ pad, s.params.stopBehaviour = .wakes → pad ≠ 0x00#8 → exec (.stop pad) s = .refused .stopSecondByte) ∧
    (s.mode = .stopped →
      (s.params.stopBehaviour = .refuse → step s = .refused .stopBehaviour) ∧
      (s.params.stopBehaviour = .stuck → step s = .next s.arrive) ∧
      (s.params.stopBehaviour = .wakes →
        ((∀ t ∈ s.arrivals.head?, t.endsStop = false) → step s = .next s.arrive) ∧
        ((∃ t ∈ s.arrivals.head?, t.endsStop = true) → step s = step { s with mode := .running })))

/-- A byte `b` that is no instruction ($D3, $DB, $DD, $E3, $E4, $EB, $EC, $ED, $F4, $FC or $FD) raises
`Fault(IllegalOpcode b)` in its own step, with the mode `Faulted` and nothing else changed in the state that the fault
carries; or, by the parameter `IllegalOpcode`, locks up in that state or is refused. Whatever the parameter, no run that
comes to execute such a byte is safe, however long it goes on (30_encoding.md R100, 60_exceptions.md R281; decision D3,
DESIGN CHOICE, log entry 8; the byte values are PRESUMED, log entry 6). -/
def Obligations.IllegalByteLocksUp : Prop :=
  (∀ s : State, ∀ p ∈ illegalBytes,
    let locked : State := { s with mode := .faulted }
    (s.params.illegalOpcode = .fault → exec p.2 s = .fault (.illegalOpcode p.1 locked)) ∧
    (s.params.illegalOpcode = .stuck → exec p.2 s = .next locked) ∧
    (s.params.illegalOpcode = .refuse → exec p.2 s = .refused (.illegalOpcode p.1))) ∧
  ∀ (s u : State) (k n : Nat), Sys2Proof.core.run k s = .next u → u.arrive.runsInstr →
    u.arrive.read u.arrive.pc ∈ illegalBytes.map Prod.fst → k < n → ¬ SafeRun n s

/-- A running or halted CPU with `IME` set, after the platform's turn, dispatches the lowest requested and enabled source
`i`: the request bit is cleared, `PC` is pushed, `PC` becomes `IntVector(i)`, `IME`, a pending `EI` and the HALT bug are
cleared, the CPU runs, and nothing else changes. The acknowledge (`Bus.if_clear`) and the stores are made in the order
listed, so that the later one wins should the stack lie over `[IF]` (60_exceptions.md R285, R286, R288). The sequence and the priority are the spec's from
general knowledge (D10, D18; PRESUMED, log entry 16); sources and handlers are parameters (log entry 5). -/
def Obligations.InterruptDispatch : Prop :=
  ∀ (s : State) (i : Fin 8),
    let u := s.arrive
    u.live → u.ime = true → u.bus.mem.wf = true → i.val < u.params.numIntSources.val →
    (u.read u.bus.ieAddr &&& u.read u.bus.ifAddr).getLsbD i.val = true →
    (∀ j : Nat, j < i.val → (u.read u.bus.ieAddr &&& u.read u.bus.ifAddr).getLsbD j = false) →
    ∃ t, step s = .next t ∧
      Accesses u t [.ack i, .write (u.sp - 1) (hiByte u.pc), .write (u.sp - 2) (loByte u.pc)] ∧
      (u.isRam u.bus.ifAddr → u.isRam (u.sp - 1) → u.isRam (u.sp - 2) → u.sp - 1 ≠ u.bus.ifAddr →
        u.sp - 2 ≠ u.bus.ifAddr → t.read u.bus.ifAddr = u.read u.bus.ifAddr &&& ~~~(1#8 <<< i.val)) ∧
      { t with bus := u.bus } = { u with
        sp := u.sp - 2, pc := u.params.intVectors.get i, ime := false, eiPending := false,
        haltBug := false, mode := .running }

/-- A halted CPU idles, changing nothing but by the platform's turn, while no interrupt is pending after that turn; when
one is, its step is that of the running CPU in the same state: a dispatch with `IME` set, the instruction after the
`HALT` without (60_exceptions.md R291, R300; decision D25, DESIGN CHOICE, log entry 18). -/
def Obligations.HaltedIdlesThenWakes : Prop :=
  ∀ s : State, s.mode = .halted →
    (s.arrive.pending = false → step s = .next s.arrive) ∧
    (s.arrive.pending = true → step s = step { s with mode := .running })

/-- The instruction after an `EI` runs before any interrupt: stepping an `EI` with `IME` clear leaves `IME` clear, and
the next step executes its instruction, after which `IME` is set unless that instruction was `DI` (60_exceptions.md
R300, 47_misc.md R263, R264; for `DI` decision D11, log entry 17; for an illegal byte log entry 12). `u` is the state
after the platform's turn. -/
def Obligations.EiLandsAfterNextInstruction : Prop :=
  ∀ (s : State) (i : Instr) (rest : List Byte),
    let u := s.arrive
    u.mode = .running → u.ime = false → decode u.nextBytes = .ok (i, rest) →
    (u.eiPending = false → i = .ei → step s = .next { u.fetched rest with eiPending := true }) ∧
    (u.eiPending = true → i ∉ illegalInstrs → ∀ t, exec i (u.fetched rest) = .next t →
      step s = .next { t with ime := decide (i ≠ .di), eiPending := false })

/-- `RETI` undoes a dispatch: from any state a handler reaches with `SP` and the word on top of the stack as the dispatch
left them, it goes back to the interrupted `PC` and `SP` with `IME` set, and restores nothing else (60_exceptions.md
R289, R288, 45_jumps.md R229; log entry 16). The stack lies in plain memory: of other memory the spec requires nothing
(20_memory.md R51). `r` is the interrupted state. -/
def Obligations.RetiReturnsFromInterrupt : Prop :=
  ∀ s t u : State,
    let r := s.arrive
    r.live → r.ime = true → r.pending = true → r.bus.mem.wf = true → r.isRam (r.sp - 1) → r.isRam (r.sp - 2) →
    step s = .next t → u.sp = t.sp → u.top = t.top →
    exec .reti u = .next { u.popped with pc := r.pc, sp := r.sp, ime := true }

/-! ## Whole-machine tables -/

/-- The flag table of 10_state.md R41: for every instruction, each flag is forced, complemented or left as the table
says; every form not in it leaves all four. -/
def Obligations.FlagTableHolds : Prop :=
  ∀ (i : Instr) (s t : State), exec i s = .next t →
    (flagTable i).z.allows s.f.z t.f.z = true ∧ (flagTable i).n.allows s.f.n t.f.n = true ∧
    (flagTable i).h.allows s.f.h t.f.h = true ∧ (flagTable i).c.allows s.f.c t.f.c = true

/-- Only `DI` and `RETI` write `IME`, only `DI` and `EI` the pending `EI`, only `HALT`, `STOP` and the illegal bytes
the mode, and only `HALT` the HALT bug, of all instructions (10_state.md R30 to R33, R40); none touches the parameters or
what the platform will do (00_scope.md R7). -/
def Obligations.ControlStateFrames : Prop :=
  ∀ (i : Instr) (s t : State), exec i s = .next t →
    (i ≠ .di → i ≠ .reti → t.ime = s.ime) ∧
    (i ≠ .di → i ≠ .ei → t.eiPending = s.eiPending) ∧
    (i ≠ .halt → (∀ pad, i ≠ .stop pad) → i ∉ illegalInstrs → t.mode = s.mode) ∧
    (i ≠ .halt → t.haltBug = s.haltBug) ∧
    t.params = s.params ∧ t.arrivals = s.arrivals

/-- Only the instructions that 10_state.md R28, R29 and R40 name write `SP`, and only they write `PC` beyond the
fetch. -/
def Obligations.SpAndPcFrames : Prop :=
  ∀ (i : Instr) (s t : State), exec i s = .next t →
    (writesSp i = false → t.sp = s.sp) ∧ (writesPc i = false → t.pc = s.pc)

/-- An instruction writes only the 8-bit registers it names as a destination (10_state.md R40). -/
def Obligations.RegisterFrames : Prop :=
  ∀ (i : Instr) (s t : State), exec i s = .next t → ∀ q, q ∉ writtenRegs i → t.r8 q = s.r8 q

/-- An instruction makes exactly the data accesses that 20_memory.md R59 lists for it, in that order, and what they do to
the bus is all that happens to it: where no device is accessed, every byte that none of its stores changes reads as
before; a device sees what is its own of them, and may change memory then (log entry 27). -/
def Obligations.MemoryFrames : Prop :=
  ∀ (i : Instr) (s t : State), s.bus.mem.wf = true → exec i s = .next t →
    (∃ es : List Access, es.map dataAccess = (accesses s i).map some ∧ Accesses s t es) ∧
    (touchesDevice s i = false → ∀ b, s.bus.place b ≠ .device → (∀ a ∈ storesTo s i, s.hits a b = false) →
      t.read b = s.read b)
end

