-- ==== Sys2Proof/Laws/Memory.lean ====
section
/-! SUPPORT. Memory keeps its canonical form and behaves as flat RAM (20_memory.md R51). -/

namespace Sys2Proof

/-! ### The wiring of an address -/

@[simp] theorem Wiring.ram_reads (v : Byte) : Wiring.ram.reads v = v := by
  have h : (v &&& BitVec.allOnes 8) ||| 0#8 = v := by rw [BitVec.and_allOnes, BitVec.or_zero]
  exact h

@[simp] theorem Wiring.ram_stores (old v : Byte) : Wiring.ram.stores old v = v := by
  have h : (old &&& 0#8) ||| (v &&& BitVec.allOnes 8) = v := by
    rw [BitVec.and_allOnes, BitVec.and_zero, BitVec.zero_or]
  exact h

/-- A store that changes no bit leaves the byte. -/
theorem Wiring.stores_none {k : Wiring} (h : k.writable = 0#8) (old v : Byte) : k.stores old v = old := by
  have h' : (old &&& BitVec.allOnes 8) ||| (v &&& 0#8) = old := by
    rw [BitVec.and_allOnes, BitVec.and_zero, BitVec.or_zero]
  unfold Wiring.stores
  rw [h]
  exact h'

end Sys2Proof

namespace Sys2Proof.Machine

theorem Memory.wfFrom_cons {lo b : Nat} {w : Byte} {m : Memory} :
    Memory.wfFrom lo ((b, w) :: m) = true ↔
      lo ≤ b ∧ b < 65536 ∧ w ≠ Config.unlistedByte ∧ Memory.wfFrom (b + 1) m = true := by
  simp [Memory.wfFrom, and_assoc]

theorem Memory.wfFrom_mono {lo lo' : Nat} {m : Memory} (hle : lo' ≤ lo) (h : Memory.wfFrom lo m = true) :
    Memory.wfFrom lo' m = true := by
  cases m with
  | nil => rfl
  | cons p m =>
    obtain ⟨b, w⟩ := p
    rw [Memory.wfFrom_cons] at h ⊢
    exact ⟨by omega, h.2⟩

/-- Below where a canonical memory starts, every byte is unlisted. -/
theorem Memory.read_below {lo : Nat} {m : Memory} (h : Memory.wfFrom lo m = true) {a : Nat} (ha : a < lo) :
    m.read a = Config.unlistedByte := by
  induction m generalizing lo with
  | nil => rfl
  | cons p m ih =>
    obtain ⟨b, w⟩ := p
    rw [Memory.wfFrom_cons] at h
    simp only [Memory.read]
    rw [if_neg (by omega)]
    exact ih h.2.2.2 (by omega)

theorem Memory.wfFrom_push {lo a : Nat} {v : Byte} {m : Memory} (hlo : lo ≤ a) (ha : a < 65536)
    (h : Memory.wfFrom (a + 1) m = true) : Memory.wfFrom lo (Memory.push a v m) = true := by
  simp only [Memory.push]
  split
  · exact Memory.wfFrom_mono (by omega) h
  · exact Memory.wfFrom_cons.2 ⟨hlo, ha, ‹_›, h⟩

theorem Memory.read_push {a : Nat} {v : Byte} {m : Memory} (h : Memory.wfFrom (a + 1) m = true) (x : Nat) :
    (Memory.push a v m).read x = if x = a then v else m.read x := by
  simp only [Memory.push]
  split
  · split
    · subst_vars; exact Memory.read_below h (by omega)
    · rfl
  · rfl

/-- A write keeps the canonical form. -/
theorem Memory.wfFrom_write {lo a : Nat} {v : Byte} {m : Memory} (h : Memory.wfFrom lo m = true)
    (hlo : lo ≤ a) (ha : a < 65536) : Memory.wfFrom lo (m.write a v) = true := by
  induction m generalizing lo with
  | nil => exact Memory.wfFrom_push hlo ha rfl
  | cons p m ih =>
    obtain ⟨b, w⟩ := p
    rw [Memory.wfFrom_cons] at h
    simp only [Memory.write]
    split
    · exact Memory.wfFrom_push hlo ha (Memory.wfFrom_cons.2 ⟨by omega, h.2⟩)
    split
    · subst_vars; exact Memory.wfFrom_push hlo ha h.2.2.2
    · exact Memory.wfFrom_cons.2 ⟨h.1, h.2.1, h.2.2.1, ih h.2.2.2 (by omega)⟩

theorem Memory.wf_write {m : Memory} {a : Nat} (v : Byte) (h : m.wf = true) (ha : a < 65536) :
    (m.write a v).wf = true := Memory.wfFrom_write h (Nat.zero_le _) ha

/-- A write replaces one byte and no other. -/
theorem Memory.read_write_from {lo : Nat} {m : Memory} (h : Memory.wfFrom lo m = true) (a : Nat) (v : Byte)
    (x : Nat) : (m.write a v).read x = if x = a then v else m.read x := by
  induction m generalizing lo with
  | nil => exact Memory.read_push rfl x
  | cons p m ih =>
    obtain ⟨b, w⟩ := p
    rw [Memory.wfFrom_cons] at h
    simp only [Memory.write]
    split
    · exact Memory.read_push (Memory.wfFrom_cons.2 ⟨by omega, h.2⟩) x
    split
    · subst_vars
      rw [Memory.read_push h.2.2.2]
      simp only [Memory.read]
      split <;> simp_all
    · simp only [Memory.read, ih h.2.2.2]
      split <;> split <;> first | rfl | omega

theorem Memory.read_write {m : Memory} (h : m.wf = true) (a : Nat) (v : Byte) (x : Nat) :
    (m.write a v).read x = if x = a then v else m.read x := Memory.read_write_from h a v x

/-! ### The bus -/

/-- Stores to memory from outside the CPU, one byte at a time, keep the canonical form. -/
theorem Memory.wf_foldl (p : Word → Bool) (cs : List (Word × Byte)) {m : Memory} (h : m.wf = true) :
    (cs.foldl (fun m c => if p c.1 then m else m.write c.1.toNat c.2) m : Memory).wf = true := by
  induction cs generalizing m with
  | nil => exact h
  | cons c cs ih =>
    refine ih ?_
    show (if p c.1 then m else m.write c.1.toNat c.2).wf = true
    split
    · exact h
    · exact Memory.wf_write c.2 h c.1.isLt

/-- What a byte reads as after such stores. -/
theorem Memory.read_foldl (p : Word → Bool) (cs : List (Word × Byte)) {m : Memory} (h : m.wf = true) (d : Word) :
    (cs.foldl (fun m c => if p c.1 then m else m.write c.1.toNat c.2) m : Memory).read d.toNat =
      cs.foldl (fun v c => if c.1 = d ∧ p d = false then c.2 else v) (m.read d.toNat) := by
  induction cs generalizing m with
  | nil => rfl
  | cons c cs ih =>
    simp only [List.foldl_cons]
    cases hp : p c.1 with
    | true =>
      rw [if_pos rfl, ih h, if_neg (by rintro ⟨rfl, h'⟩; simp [hp] at h')]
    | false =>
      rw [if_neg (by simp), ih (Memory.wf_write c.2 h c.1.isLt), Memory.read_write h]
      by_cases hc : c.1 = d
      · subst hc; rw [if_pos rfl, if_pos ⟨rfl, hp⟩]
      · rw [if_neg (by rw [BitVec.toNat_inj]; exact fun e => hc e.symm), if_neg (fun e => hc e.1)]

/-- What is fixed of a bus: what its addresses are. -/
def Bus.SameMap (b c : Bus) : Prop := c.regions = b.regions ∧ c.ieAddr = b.ieAddr ∧ c.ifAddr = b.ifAddr

theorem Bus.SameMap.trans {b c d : Bus} (h : b.SameMap c) (k : c.SameMap d) : b.SameMap d :=
  ⟨k.1.trans h.1, k.2.1.trans h.2.1, k.2.2.trans h.2.2⟩

/-- What an address is depends on nothing that changes. -/
theorem Bus.SameMap.place {b c : Bus} (h : b.SameMap c) (a : Word) : c.place a = b.place a := by
  simp only [Bus.place, h.1]

theorem Bus.SameMap.isCellOf {b c : Bus} (h : b.SameMap c) (d a : Word) : c.isCellOf d a = b.isCellOf d a := by
  simp only [Bus.isCellOf, h.place]

theorem Bus.SameMap.holdsInt {b c : Bus} (h : b.SameMap c) (d : Word) : c.holdsInt d = b.holdsInt d := by
  simp only [Bus.holdsInt, h.isCellOf, h.2.1, h.2.2]

theorem Bus.sameMap_storeCells (b : Bus) (cs : List (Word × Byte)) : b.SameMap (b.storeCells cs) := ⟨rfl, rfl, rfl⟩
theorem Bus.sameMap_note (b : Bus) (e : Access) : b.SameMap (b.note e) := ⟨rfl, rfl, rfl⟩

theorem Bus.sameMap_touch (b : Bus) (a : Word) : b.SameMap (b.touch a) := by
  unfold Bus.touch
  split
  · exact ⟨rfl, rfl, rfl⟩
  · split
    · exact ⟨rfl, rfl, rfl⟩
    · exact b.sameMap_note _

theorem Bus.sameMap_write (b : Bus) (a : Word) (v : Byte) : b.SameMap (b.write a v) := by
  unfold Bus.write
  split
  · exact ⟨rfl, rfl, rfl⟩
  · exact b.sameMap_note _

theorem Bus.sameMap_ifClear (b : Bus) (i : Fin 8) : b.SameMap (b.ifClear i) := by
  unfold Bus.ifClear
  split
  · exact ⟨rfl, rfl, rfl⟩
  · exact b.sameMap_note _

theorem Bus.sameMap_request (b : Bus) (r : Byte) : b.SameMap (b.request r) := by
  unfold Bus.request
  split <;> exact ⟨rfl, rfl, rfl⟩

theorem Bus.sameMap_turn (b : Bus) (t : Arrival) : b.SameMap (b.turn t) :=
  Bus.SameMap.trans (c := { b with past := .turn t :: b.past }.storeCells t.stores) ⟨rfl, rfl, rfl⟩
    (Bus.sameMap_request _ _)

/-! Every operation of the bus keeps the canonical form. -/

theorem Bus.wf_storeCells {b : Bus} (cs : List (Word × Byte)) (h : b.mem.wf = true) :
    (b.storeCells cs).mem.wf = true := Memory.wf_foldl b.holdsInt cs h

theorem Bus.wf_note {b : Bus} (e : Access) (h : b.mem.wf = true) : (b.note e).mem.wf = true :=
  Bus.wf_storeCells (b := { b with past := e :: b.past }) _ h

theorem Bus.wf_touch {b : Bus} (a : Word) (h : b.mem.wf = true) : (b.touch a).mem.wf = true := by
  unfold Bus.touch
  split
  · exact h
  · split
    · exact h
    · exact Bus.wf_note _ h

theorem Bus.wf_write {b : Bus} (a : Word) (v : Byte) (h : b.mem.wf = true) : (b.write a v).mem.wf = true := by
  unfold Bus.write
  split
  · exact Memory.wf_write _ h (BitVec.isLt _)
  · exact Bus.wf_note _ h

theorem Bus.wf_ifClear {b : Bus} (i : Fin 8) (h : b.mem.wf = true) : (b.ifClear i).mem.wf = true := by
  unfold Bus.ifClear
  split
  · exact Memory.wf_write _ h (BitVec.isLt _)
  · exact Bus.wf_note _ h

theorem Bus.wf_request {b : Bus} (r : Byte) (h : b.mem.wf = true) : (b.request r).mem.wf = true := by
  unfold Bus.request
  split
  · exact Memory.wf_write _ h (BitVec.isLt _)
  · exact h

theorem Bus.wf_turn {b : Bus} (t : Arrival) (h : b.mem.wf = true) : (b.turn t).mem.wf = true :=
  Bus.wf_request _ (Bus.wf_storeCells (b := { b with past := .turn t :: b.past }) _ h)

theorem Bus.wf_load {b : Bus} (a : Word) (v : Byte) (h : b.mem.wf = true) : (b.load a v).mem.wf = true := by
  unfold Bus.load
  split <;> exact Memory.wf_write v h a.isLt

/-- What an address of memory reads as. -/
theorem Bus.read_cell {b : Bus} {a d : Word} {k : Wiring} (h : b.place a = .cell d k) :
    b.read a = k.reads (b.mem.read d.toNat) := by
  simp only [Bus.read, h]

/-! ### At the state -/

/-- Every write of the machine keeps the canonical form. -/
theorem State.wf_write {s : State} (a : Word) (v : Byte) (h : s.bus.mem.wf = true) :
    (s.write a v).bus.mem.wf = true := Bus.wf_write a v h

theorem State.wf_touch {s : State} (a : Word) (h : s.bus.mem.wf = true) : (s.touch a).bus.mem.wf = true :=
  Bus.wf_touch a h

theorem State.wf_write16 {s : State} (a v : Word) (h : s.bus.mem.wf = true) : (s.write16 a v).bus.mem.wf = true :=
  State.wf_write _ _ (State.wf_write _ _ h)

theorem State.wf_push16 {s : State} (v : Word) (h : s.bus.mem.wf = true) : (s.push16 v).bus.mem.wf = true :=
  Bus.wf_write _ _ (Bus.wf_write _ _ h)

theorem State.wf_pop16 {s : State} (h : s.bus.mem.wf = true) : s.pop16.2.bus.mem.wf = true :=
  Bus.wf_touch _ (Bus.wf_touch _ h)

theorem State.wf_takeInterrupt {s : State} (i : Fin 8) (h : s.bus.mem.wf = true) :
    (s.takeInterrupt i).bus.mem.wf = true := Bus.wf_write _ _ (Bus.wf_write _ _ (Bus.wf_ifClear _ h))

theorem State.wf_arrive {s : State} (h : s.bus.mem.wf = true) : s.arrive.bus.mem.wf = true := by
  unfold State.arrive
  split
  · exact h
  · exact Bus.wf_turn _ h

end Sys2Proof.Machine
end

