-- ==== Sys2Proof/Laws/State.lean ====
section
/-! SUPPORT. What each update of the state does to each field: all true by `rfl`, so that no proof unfolds a
record update. -/

namespace Sys2Proof.Machine

/-! ### `State.setR8` -/

@[simp] theorem State.setR8_regs (s : State) (r : Reg8) (v : Byte) : (s.setR8 r v).regs = s.regs.set r v := rfl
@[simp] theorem State.setR8_f (s : State) (r : Reg8) (v : Byte) : (s.setR8 r v).f = s.f := rfl
@[simp] theorem State.setR8_sp (s : State) (r : Reg8) (v : Byte) : (s.setR8 r v).sp = s.sp := rfl
@[simp] theorem State.setR8_pc (s : State) (r : Reg8) (v : Byte) : (s.setR8 r v).pc = s.pc := rfl
@[simp] theorem State.setR8_ime (s : State) (r : Reg8) (v : Byte) : (s.setR8 r v).ime = s.ime := rfl
@[simp] theorem State.setR8_eiPending (s : State) (r : Reg8) (v : Byte) : (s.setR8 r v).eiPending = s.eiPending := rfl
@[simp] theorem State.setR8_mode (s : State) (r : Reg8) (v : Byte) : (s.setR8 r v).mode = s.mode := rfl
@[simp] theorem State.setR8_haltBug (s : State) (r : Reg8) (v : Byte) : (s.setR8 r v).haltBug = s.haltBug := rfl
@[simp] theorem State.setR8_bus (s : State) (r : Reg8) (v : Byte) : (s.setR8 r v).bus = s.bus := rfl
@[simp] theorem State.setR8_params (s : State) (r : Reg8) (v : Byte) : (s.setR8 r v).params = s.params := rfl
@[simp] theorem State.setR8_arrivals (s : State) (r : Reg8) (v : Byte) : (s.setR8 r v).arrivals = s.arrivals := rfl

/-! ### `State.setR16` -/

@[simp] theorem State.setR16_regs (s : State) (r : Reg16) (v : Word) : (s.setR16 r v).regs = s.regs.set16 r v := rfl
@[simp] theorem State.setR16_f (s : State) (r : Reg16) (v : Word) : (s.setR16 r v).f = s.f := rfl
@[simp] theorem State.setR16_sp (s : State) (r : Reg16) (v : Word) : (s.setR16 r v).sp = s.sp := rfl
@[simp] theorem State.setR16_pc (s : State) (r : Reg16) (v : Word) : (s.setR16 r v).pc = s.pc := rfl
@[simp] theorem State.setR16_ime (s : State) (r : Reg16) (v : Word) : (s.setR16 r v).ime = s.ime := rfl
@[simp] theorem State.setR16_eiPending (s : State) (r : Reg16) (v : Word) : (s.setR16 r v).eiPending = s.eiPending := rfl
@[simp] theorem State.setR16_mode (s : State) (r : Reg16) (v : Word) : (s.setR16 r v).mode = s.mode := rfl
@[simp] theorem State.setR16_haltBug (s : State) (r : Reg16) (v : Word) : (s.setR16 r v).haltBug = s.haltBug := rfl
@[simp] theorem State.setR16_bus (s : State) (r : Reg16) (v : Word) : (s.setR16 r v).bus = s.bus := rfl
@[simp] theorem State.setR16_params (s : State) (r : Reg16) (v : Word) : (s.setR16 r v).params = s.params := rfl
@[simp] theorem State.setR16_arrivals (s : State) (r : Reg16) (v : Word) : (s.setR16 r v).arrivals = s.arrivals := rfl

/-! ### `State.setFlags` -/

@[simp] theorem State.setFlags_regs (s : State) (f : Flags) : (s.setFlags f).regs = s.regs := rfl
@[simp] theorem State.setFlags_f (s : State) (f : Flags) : (s.setFlags f).f = f := rfl
@[simp] theorem State.setFlags_sp (s : State) (f : Flags) : (s.setFlags f).sp = s.sp := rfl
@[simp] theorem State.setFlags_pc (s : State) (f : Flags) : (s.setFlags f).pc = s.pc := rfl
@[simp] theorem State.setFlags_ime (s : State) (f : Flags) : (s.setFlags f).ime = s.ime := rfl
@[simp] theorem State.setFlags_eiPending (s : State) (f : Flags) : (s.setFlags f).eiPending = s.eiPending := rfl
@[simp] theorem State.setFlags_mode (s : State) (f : Flags) : (s.setFlags f).mode = s.mode := rfl
@[simp] theorem State.setFlags_haltBug (s : State) (f : Flags) : (s.setFlags f).haltBug = s.haltBug := rfl
@[simp] theorem State.setFlags_bus (s : State) (f : Flags) : (s.setFlags f).bus = s.bus := rfl
@[simp] theorem State.setFlags_params (s : State) (f : Flags) : (s.setFlags f).params = s.params := rfl
@[simp] theorem State.setFlags_arrivals (s : State) (f : Flags) : (s.setFlags f).arrivals = s.arrivals := rfl

/-! ### `State.setAf` -/

@[simp] theorem State.setAf_regs (s : State) (v : Word) : (s.setAf v).regs = s.regs.set .a (hiByte v) := rfl
@[simp] theorem State.setAf_f (s : State) (v : Word) : (s.setAf v).f = flagsOfByte (loByte v) := rfl
@[simp] theorem State.setAf_sp (s : State) (v : Word) : (s.setAf v).sp = s.sp := rfl
@[simp] theorem State.setAf_pc (s : State) (v : Word) : (s.setAf v).pc = s.pc := rfl
@[simp] theorem State.setAf_ime (s : State) (v : Word) : (s.setAf v).ime = s.ime := rfl
@[simp] theorem State.setAf_eiPending (s : State) (v : Word) : (s.setAf v).eiPending = s.eiPending := rfl
@[simp] theorem State.setAf_mode (s : State) (v : Word) : (s.setAf v).mode = s.mode := rfl
@[simp] theorem State.setAf_haltBug (s : State) (v : Word) : (s.setAf v).haltBug = s.haltBug := rfl
@[simp] theorem State.setAf_bus (s : State) (v : Word) : (s.setAf v).bus = s.bus := rfl
@[simp] theorem State.setAf_params (s : State) (v : Word) : (s.setAf v).params = s.params := rfl
@[simp] theorem State.setAf_arrivals (s : State) (v : Word) : (s.setAf v).arrivals = s.arrivals := rfl

/-! ### `State.touch` -/

@[simp] theorem State.touch_regs (s : State) (a : Word) : (s.touch a).regs = s.regs := rfl
@[simp] theorem State.touch_f (s : State) (a : Word) : (s.touch a).f = s.f := rfl
@[simp] theorem State.touch_sp (s : State) (a : Word) : (s.touch a).sp = s.sp := rfl
@[simp] theorem State.touch_pc (s : State) (a : Word) : (s.touch a).pc = s.pc := rfl
@[simp] theorem State.touch_ime (s : State) (a : Word) : (s.touch a).ime = s.ime := rfl
@[simp] theorem State.touch_eiPending (s : State) (a : Word) : (s.touch a).eiPending = s.eiPending := rfl
@[simp] theorem State.touch_mode (s : State) (a : Word) : (s.touch a).mode = s.mode := rfl
@[simp] theorem State.touch_haltBug (s : State) (a : Word) : (s.touch a).haltBug = s.haltBug := rfl
@[simp] theorem State.touch_bus (s : State) (a : Word) : (s.touch a).bus = s.bus.touch a := rfl
@[simp] theorem State.touch_params (s : State) (a : Word) : (s.touch a).params = s.params := rfl
@[simp] theorem State.touch_arrivals (s : State) (a : Word) : (s.touch a).arrivals = s.arrivals := rfl

/-! ### `State.touchHl` -/

@[simp] theorem State.touchHl_regs (s : State) : s.touchHl.regs = s.regs := rfl
@[simp] theorem State.touchHl_f (s : State) : s.touchHl.f = s.f := rfl
@[simp] theorem State.touchHl_sp (s : State) : s.touchHl.sp = s.sp := rfl
@[simp] theorem State.touchHl_pc (s : State) : s.touchHl.pc = s.pc := rfl
@[simp] theorem State.touchHl_ime (s : State) : s.touchHl.ime = s.ime := rfl
@[simp] theorem State.touchHl_eiPending (s : State) : s.touchHl.eiPending = s.eiPending := rfl
@[simp] theorem State.touchHl_mode (s : State) : s.touchHl.mode = s.mode := rfl
@[simp] theorem State.touchHl_haltBug (s : State) : s.touchHl.haltBug = s.haltBug := rfl
@[simp] theorem State.touchHl_bus (s : State) : s.touchHl.bus = s.bus.touch s.hl := rfl
@[simp] theorem State.touchHl_params (s : State) : s.touchHl.params = s.params := rfl
@[simp] theorem State.touchHl_arrivals (s : State) : s.touchHl.arrivals = s.arrivals := rfl

/-! ### `State.write` -/

@[simp] theorem State.write_regs (s : State) (a : Word) (v : Byte) : (s.write a v).regs = s.regs := rfl
@[simp] theorem State.write_f (s : State) (a : Word) (v : Byte) : (s.write a v).f = s.f := rfl
@[simp] theorem State.write_sp (s : State) (a : Word) (v : Byte) : (s.write a v).sp = s.sp := rfl
@[simp] theorem State.write_pc (s : State) (a : Word) (v : Byte) : (s.write a v).pc = s.pc := rfl
@[simp] theorem State.write_ime (s : State) (a : Word) (v : Byte) : (s.write a v).ime = s.ime := rfl
@[simp] theorem State.write_eiPending (s : State) (a : Word) (v : Byte) : (s.write a v).eiPending = s.eiPending := rfl
@[simp] theorem State.write_mode (s : State) (a : Word) (v : Byte) : (s.write a v).mode = s.mode := rfl
@[simp] theorem State.write_haltBug (s : State) (a : Word) (v : Byte) : (s.write a v).haltBug = s.haltBug := rfl
@[simp] theorem State.write_bus (s : State) (a : Word) (v : Byte) : (s.write a v).bus = s.bus.write a v := rfl
@[simp] theorem State.write_params (s : State) (a : Word) (v : Byte) : (s.write a v).params = s.params := rfl
@[simp] theorem State.write_arrivals (s : State) (a : Word) (v : Byte) : (s.write a v).arrivals = s.arrivals := rfl

/-! ### `State.setAtHl` -/

@[simp] theorem State.setAtHl_regs (s : State) (v : Byte) : (s.setAtHl v).regs = s.regs := rfl
@[simp] theorem State.setAtHl_f (s : State) (v : Byte) : (s.setAtHl v).f = s.f := rfl
@[simp] theorem State.setAtHl_sp (s : State) (v : Byte) : (s.setAtHl v).sp = s.sp := rfl
@[simp] theorem State.setAtHl_pc (s : State) (v : Byte) : (s.setAtHl v).pc = s.pc := rfl
@[simp] theorem State.setAtHl_ime (s : State) (v : Byte) : (s.setAtHl v).ime = s.ime := rfl
@[simp] theorem State.setAtHl_eiPending (s : State) (v : Byte) : (s.setAtHl v).eiPending = s.eiPending := rfl
@[simp] theorem State.setAtHl_mode (s : State) (v : Byte) : (s.setAtHl v).mode = s.mode := rfl
@[simp] theorem State.setAtHl_haltBug (s : State) (v : Byte) : (s.setAtHl v).haltBug = s.haltBug := rfl
@[simp] theorem State.setAtHl_bus (s : State) (v : Byte) : (s.setAtHl v).bus = s.bus.write s.hl v := rfl
@[simp] theorem State.setAtHl_params (s : State) (v : Byte) : (s.setAtHl v).params = s.params := rfl
@[simp] theorem State.setAtHl_arrivals (s : State) (v : Byte) : (s.setAtHl v).arrivals = s.arrivals := rfl

/-! ### `State.write16` -/

@[simp] theorem State.write16_regs (s : State) (a v : Word) : (s.write16 a v).regs = s.regs := rfl
@[simp] theorem State.write16_f (s : State) (a v : Word) : (s.write16 a v).f = s.f := rfl
@[simp] theorem State.write16_sp (s : State) (a v : Word) : (s.write16 a v).sp = s.sp := rfl
@[simp] theorem State.write16_pc (s : State) (a v : Word) : (s.write16 a v).pc = s.pc := rfl
@[simp] theorem State.write16_ime (s : State) (a v : Word) : (s.write16 a v).ime = s.ime := rfl
@[simp] theorem State.write16_eiPending (s : State) (a v : Word) : (s.write16 a v).eiPending = s.eiPending := rfl
@[simp] theorem State.write16_mode (s : State) (a v : Word) : (s.write16 a v).mode = s.mode := rfl
@[simp] theorem State.write16_haltBug (s : State) (a v : Word) : (s.write16 a v).haltBug = s.haltBug := rfl
@[simp] theorem State.write16_params (s : State) (a v : Word) : (s.write16 a v).params = s.params := rfl
@[simp] theorem State.write16_arrivals (s : State) (a v : Word) : (s.write16 a v).arrivals = s.arrivals := rfl

/-! ### `State.push16` -/

@[simp] theorem State.push16_regs (s : State) (v : Word) : (s.push16 v).regs = s.regs := rfl
@[simp] theorem State.push16_f (s : State) (v : Word) : (s.push16 v).f = s.f := rfl
@[simp] theorem State.push16_sp (s : State) (v : Word) : (s.push16 v).sp = s.sp - 1 - 1 := rfl
@[simp] theorem State.push16_pc (s : State) (v : Word) : (s.push16 v).pc = s.pc := rfl
@[simp] theorem State.push16_ime (s : State) (v : Word) : (s.push16 v).ime = s.ime := rfl
@[simp] theorem State.push16_eiPending (s : State) (v : Word) : (s.push16 v).eiPending = s.eiPending := rfl
@[simp] theorem State.push16_mode (s : State) (v : Word) : (s.push16 v).mode = s.mode := rfl
@[simp] theorem State.push16_haltBug (s : State) (v : Word) : (s.push16 v).haltBug = s.haltBug := rfl
@[simp] theorem State.push16_params (s : State) (v : Word) : (s.push16 v).params = s.params := rfl
@[simp] theorem State.push16_arrivals (s : State) (v : Word) : (s.push16 v).arrivals = s.arrivals := rfl

/-! ### `State.jump` -/

@[simp] theorem State.jump_regs (s : State) (a : Word) : (s.jump a).regs = s.regs := rfl
@[simp] theorem State.jump_f (s : State) (a : Word) : (s.jump a).f = s.f := rfl
@[simp] theorem State.jump_sp (s : State) (a : Word) : (s.jump a).sp = s.sp := rfl
@[simp] theorem State.jump_pc (s : State) (a : Word) : (s.jump a).pc = a := rfl
@[simp] theorem State.jump_ime (s : State) (a : Word) : (s.jump a).ime = s.ime := rfl
@[simp] theorem State.jump_eiPending (s : State) (a : Word) : (s.jump a).eiPending = s.eiPending := rfl
@[simp] theorem State.jump_mode (s : State) (a : Word) : (s.jump a).mode = s.mode := rfl
@[simp] theorem State.jump_haltBug (s : State) (a : Word) : (s.jump a).haltBug = s.haltBug := rfl
@[simp] theorem State.jump_bus (s : State) (a : Word) : (s.jump a).bus = s.bus := rfl
@[simp] theorem State.jump_params (s : State) (a : Word) : (s.jump a).params = s.params := rfl
@[simp] theorem State.jump_arrivals (s : State) (a : Word) : (s.jump a).arrivals = s.arrivals := rfl

/-! ### `State.call` -/

@[simp] theorem State.call_regs (s : State) (a : Word) : (s.call a).regs = s.regs := rfl
@[simp] theorem State.call_f (s : State) (a : Word) : (s.call a).f = s.f := rfl
@[simp] theorem State.call_sp (s : State) (a : Word) : (s.call a).sp = s.sp - 1 - 1 := rfl
@[simp] theorem State.call_pc (s : State) (a : Word) : (s.call a).pc = a := rfl
@[simp] theorem State.call_ime (s : State) (a : Word) : (s.call a).ime = s.ime := rfl
@[simp] theorem State.call_eiPending (s : State) (a : Word) : (s.call a).eiPending = s.eiPending := rfl
@[simp] theorem State.call_mode (s : State) (a : Word) : (s.call a).mode = s.mode := rfl
@[simp] theorem State.call_haltBug (s : State) (a : Word) : (s.call a).haltBug = s.haltBug := rfl
@[simp] theorem State.call_params (s : State) (a : Word) : (s.call a).params = s.params := rfl
@[simp] theorem State.call_arrivals (s : State) (a : Word) : (s.call a).arrivals = s.arrivals := rfl

/-! ### `State.popPc` -/

@[simp] theorem State.popPc_regs (s : State) : s.popPc.regs = s.regs := rfl
@[simp] theorem State.popPc_f (s : State) : s.popPc.f = s.f := rfl
@[simp] theorem State.popPc_sp (s : State) : s.popPc.sp = s.sp + 1 + 1 := rfl
@[simp] theorem State.popPc_ime (s : State) : s.popPc.ime = s.ime := rfl
@[simp] theorem State.popPc_eiPending (s : State) : s.popPc.eiPending = s.eiPending := rfl
@[simp] theorem State.popPc_mode (s : State) : s.popPc.mode = s.mode := rfl
@[simp] theorem State.popPc_haltBug (s : State) : s.popPc.haltBug = s.haltBug := rfl
@[simp] theorem State.popPc_params (s : State) : s.popPc.params = s.params := rfl
@[simp] theorem State.popPc_arrivals (s : State) : s.popPc.arrivals = s.arrivals := rfl

/-! ### `State.takeInterrupt` -/

@[simp] theorem State.takeInterrupt_regs (s : State) (i : Fin 8) : (s.takeInterrupt i).regs = s.regs := rfl
@[simp] theorem State.takeInterrupt_f (s : State) (i : Fin 8) : (s.takeInterrupt i).f = s.f := rfl
@[simp] theorem State.takeInterrupt_sp (s : State) (i : Fin 8) : (s.takeInterrupt i).sp = s.sp - 1 - 1 := rfl
@[simp] theorem State.takeInterrupt_pc (s : State) (i : Fin 8) : (s.takeInterrupt i).pc = s.params.intVectors.get i := rfl
@[simp] theorem State.takeInterrupt_ime (s : State) (i : Fin 8) : (s.takeInterrupt i).ime = false := rfl
@[simp] theorem State.takeInterrupt_eiPending (s : State) (i : Fin 8) : (s.takeInterrupt i).eiPending = false := rfl
@[simp] theorem State.takeInterrupt_mode (s : State) (i : Fin 8) : (s.takeInterrupt i).mode = .running := rfl
@[simp] theorem State.takeInterrupt_haltBug (s : State) (i : Fin 8) : (s.takeInterrupt i).haltBug = false := rfl
@[simp] theorem State.takeInterrupt_params (s : State) (i : Fin 8) : (s.takeInterrupt i).params = s.params := rfl
@[simp] theorem State.takeInterrupt_arrivals (s : State) (i : Fin 8) : (s.takeInterrupt i).arrivals = s.arrivals := rfl

/-! ### `State.returnFromInterrupt` -/

@[simp] theorem State.returnFromInterrupt_regs (s : State) : s.returnFromInterrupt.regs = s.regs := rfl
@[simp] theorem State.returnFromInterrupt_f (s : State) : s.returnFromInterrupt.f = s.f := rfl
@[simp] theorem State.returnFromInterrupt_sp (s : State) : s.returnFromInterrupt.sp = s.sp + 1 + 1 := rfl
@[simp] theorem State.returnFromInterrupt_ime (s : State) : s.returnFromInterrupt.ime = true := rfl
@[simp] theorem State.returnFromInterrupt_eiPending (s : State) : s.returnFromInterrupt.eiPending = s.eiPending := rfl
@[simp] theorem State.returnFromInterrupt_mode (s : State) : s.returnFromInterrupt.mode = s.mode := rfl
@[simp] theorem State.returnFromInterrupt_haltBug (s : State) : s.returnFromInterrupt.haltBug = s.haltBug := rfl
@[simp] theorem State.returnFromInterrupt_params (s : State) : s.returnFromInterrupt.params = s.params := rfl
@[simp] theorem State.returnFromInterrupt_arrivals (s : State) : s.returnFromInterrupt.arrivals = s.arrivals := rfl

/-! ### `State.addA` -/

@[simp] theorem State.addA_regs (s : State) (x : Byte) (c : Bool) : (s.addA x c).regs = s.regs.set .a (add8 s.acc x c).res := rfl
@[simp] theorem State.addA_f (s : State) (x : Byte) (c : Bool) : (s.addA x c).f = addFlags (add8 s.acc x c) := rfl
@[simp] theorem State.addA_sp (s : State) (x : Byte) (c : Bool) : (s.addA x c).sp = s.sp := rfl
@[simp] theorem State.addA_pc (s : State) (x : Byte) (c : Bool) : (s.addA x c).pc = s.pc := rfl
@[simp] theorem State.addA_ime (s : State) (x : Byte) (c : Bool) : (s.addA x c).ime = s.ime := rfl
@[simp] theorem State.addA_eiPending (s : State) (x : Byte) (c : Bool) : (s.addA x c).eiPending = s.eiPending := rfl
@[simp] theorem State.addA_mode (s : State) (x : Byte) (c : Bool) : (s.addA x c).mode = s.mode := rfl
@[simp] theorem State.addA_haltBug (s : State) (x : Byte) (c : Bool) : (s.addA x c).haltBug = s.haltBug := rfl
@[simp] theorem State.addA_bus (s : State) (x : Byte) (c : Bool) : (s.addA x c).bus = s.bus := rfl
@[simp] theorem State.addA_params (s : State) (x : Byte) (c : Bool) : (s.addA x c).params = s.params := rfl
@[simp] theorem State.addA_arrivals (s : State) (x : Byte) (c : Bool) : (s.addA x c).arrivals = s.arrivals := rfl

/-! ### `State.subA` -/

@[simp] theorem State.subA_regs (s : State) (x : Byte) (c : Bool) : (s.subA x c).regs = s.regs.set .a (sub8 s.acc x c).res := rfl
@[simp] theorem State.subA_f (s : State) (x : Byte) (c : Bool) : (s.subA x c).f = subFlags (sub8 s.acc x c) := rfl
@[simp] theorem State.subA_sp (s : State) (x : Byte) (c : Bool) : (s.subA x c).sp = s.sp := rfl
@[simp] theorem State.subA_pc (s : State) (x : Byte) (c : Bool) : (s.subA x c).pc = s.pc := rfl
@[simp] theorem State.subA_ime (s : State) (x : Byte) (c : Bool) : (s.subA x c).ime = s.ime := rfl
@[simp] theorem State.subA_eiPending (s : State) (x : Byte) (c : Bool) : (s.subA x c).eiPending = s.eiPending := rfl
@[simp] theorem State.subA_mode (s : State) (x : Byte) (c : Bool) : (s.subA x c).mode = s.mode := rfl
@[simp] theorem State.subA_haltBug (s : State) (x : Byte) (c : Bool) : (s.subA x c).haltBug = s.haltBug := rfl
@[simp] theorem State.subA_bus (s : State) (x : Byte) (c : Bool) : (s.subA x c).bus = s.bus := rfl
@[simp] theorem State.subA_params (s : State) (x : Byte) (c : Bool) : (s.subA x c).params = s.params := rfl
@[simp] theorem State.subA_arrivals (s : State) (x : Byte) (c : Bool) : (s.subA x c).arrivals = s.arrivals := rfl

/-! ### `State.cpA` -/

@[simp] theorem State.cpA_regs (s : State) (x : Byte) : (s.cpA x).regs = s.regs := rfl
@[simp] theorem State.cpA_f (s : State) (x : Byte) : (s.cpA x).f = subFlags (sub8 s.acc x false) := rfl
@[simp] theorem State.cpA_sp (s : State) (x : Byte) : (s.cpA x).sp = s.sp := rfl
@[simp] theorem State.cpA_pc (s : State) (x : Byte) : (s.cpA x).pc = s.pc := rfl
@[simp] theorem State.cpA_ime (s : State) (x : Byte) : (s.cpA x).ime = s.ime := rfl
@[simp] theorem State.cpA_eiPending (s : State) (x : Byte) : (s.cpA x).eiPending = s.eiPending := rfl
@[simp] theorem State.cpA_mode (s : State) (x : Byte) : (s.cpA x).mode = s.mode := rfl
@[simp] theorem State.cpA_haltBug (s : State) (x : Byte) : (s.cpA x).haltBug = s.haltBug := rfl
@[simp] theorem State.cpA_bus (s : State) (x : Byte) : (s.cpA x).bus = s.bus := rfl
@[simp] theorem State.cpA_params (s : State) (x : Byte) : (s.cpA x).params = s.params := rfl
@[simp] theorem State.cpA_arrivals (s : State) (x : Byte) : (s.cpA x).arrivals = s.arrivals := rfl

/-! ### `State.andA` -/

@[simp] theorem State.andA_regs (s : State) (x : Byte) : (s.andA x).regs = s.regs.set .a (s.acc &&& x) := rfl
@[simp] theorem State.andA_f (s : State) (x : Byte) : (s.andA x).f = andFlags (s.acc &&& x) := rfl
@[simp] theorem State.andA_sp (s : State) (x : Byte) : (s.andA x).sp = s.sp := rfl
@[simp] theorem State.andA_pc (s : State) (x : Byte) : (s.andA x).pc = s.pc := rfl
@[simp] theorem State.andA_ime (s : State) (x : Byte) : (s.andA x).ime = s.ime := rfl
@[simp] theorem State.andA_eiPending (s : State) (x : Byte) : (s.andA x).eiPending = s.eiPending := rfl
@[simp] theorem State.andA_mode (s : State) (x : Byte) : (s.andA x).mode = s.mode := rfl
@[simp] theorem State.andA_haltBug (s : State) (x : Byte) : (s.andA x).haltBug = s.haltBug := rfl
@[simp] theorem State.andA_bus (s : State) (x : Byte) : (s.andA x).bus = s.bus := rfl
@[simp] theorem State.andA_params (s : State) (x : Byte) : (s.andA x).params = s.params := rfl
@[simp] theorem State.andA_arrivals (s : State) (x : Byte) : (s.andA x).arrivals = s.arrivals := rfl

/-! ### `State.orA` -/

@[simp] theorem State.orA_regs (s : State) (x : Byte) : (s.orA x).regs = s.regs.set .a (s.acc ||| x) := rfl
@[simp] theorem State.orA_f (s : State) (x : Byte) : (s.orA x).f = zeroOnlyFlags (s.acc ||| x) := rfl
@[simp] theorem State.orA_sp (s : State) (x : Byte) : (s.orA x).sp = s.sp := rfl
@[simp] theorem State.orA_pc (s : State) (x : Byte) : (s.orA x).pc = s.pc := rfl
@[simp] theorem State.orA_ime (s : State) (x : Byte) : (s.orA x).ime = s.ime := rfl
@[simp] theorem State.orA_eiPending (s : State) (x : Byte) : (s.orA x).eiPending = s.eiPending := rfl
@[simp] theorem State.orA_mode (s : State) (x : Byte) : (s.orA x).mode = s.mode := rfl
@[simp] theorem State.orA_haltBug (s : State) (x : Byte) : (s.orA x).haltBug = s.haltBug := rfl
@[simp] theorem State.orA_bus (s : State) (x : Byte) : (s.orA x).bus = s.bus := rfl
@[simp] theorem State.orA_params (s : State) (x : Byte) : (s.orA x).params = s.params := rfl
@[simp] theorem State.orA_arrivals (s : State) (x : Byte) : (s.orA x).arrivals = s.arrivals := rfl

/-! ### `State.xorA` -/

@[simp] theorem State.xorA_regs (s : State) (x : Byte) : (s.xorA x).regs = s.regs.set .a (s.acc ^^^ x) := rfl
@[simp] theorem State.xorA_f (s : State) (x : Byte) : (s.xorA x).f = zeroOnlyFlags (s.acc ^^^ x) := rfl
@[simp] theorem State.xorA_sp (s : State) (x : Byte) : (s.xorA x).sp = s.sp := rfl
@[simp] theorem State.xorA_pc (s : State) (x : Byte) : (s.xorA x).pc = s.pc := rfl
@[simp] theorem State.xorA_ime (s : State) (x : Byte) : (s.xorA x).ime = s.ime := rfl
@[simp] theorem State.xorA_eiPending (s : State) (x : Byte) : (s.xorA x).eiPending = s.eiPending := rfl
@[simp] theorem State.xorA_mode (s : State) (x : Byte) : (s.xorA x).mode = s.mode := rfl
@[simp] theorem State.xorA_haltBug (s : State) (x : Byte) : (s.xorA x).haltBug = s.haltBug := rfl
@[simp] theorem State.xorA_bus (s : State) (x : Byte) : (s.xorA x).bus = s.bus := rfl
@[simp] theorem State.xorA_params (s : State) (x : Byte) : (s.xorA x).params = s.params := rfl
@[simp] theorem State.xorA_arrivals (s : State) (x : Byte) : (s.xorA x).arrivals = s.arrivals := rfl

/-! ### `State.addHl` -/

@[simp] theorem State.addHl_regs (s : State) (x : Word) : (s.addHl x).regs = s.regs.set16 .hl (addHl16 s.hl x).res := rfl
@[simp] theorem State.addHl_f (s : State) (x : Word) : (s.addHl x).f = addHlFlags (addHl16 s.hl x) s.f := rfl
@[simp] theorem State.addHl_sp (s : State) (x : Word) : (s.addHl x).sp = s.sp := rfl
@[simp] theorem State.addHl_pc (s : State) (x : Word) : (s.addHl x).pc = s.pc := rfl
@[simp] theorem State.addHl_ime (s : State) (x : Word) : (s.addHl x).ime = s.ime := rfl
@[simp] theorem State.addHl_eiPending (s : State) (x : Word) : (s.addHl x).eiPending = s.eiPending := rfl
@[simp] theorem State.addHl_mode (s : State) (x : Word) : (s.addHl x).mode = s.mode := rfl
@[simp] theorem State.addHl_haltBug (s : State) (x : Word) : (s.addHl x).haltBug = s.haltBug := rfl
@[simp] theorem State.addHl_bus (s : State) (x : Word) : (s.addHl x).bus = s.bus := rfl
@[simp] theorem State.addHl_params (s : State) (x : Word) : (s.addHl x).params = s.params := rfl
@[simp] theorem State.addHl_arrivals (s : State) (x : Word) : (s.addHl x).arrivals = s.arrivals := rfl

/-! ### `State.shiftR8` -/

@[simp] theorem State.shiftR8_regs (s : State) (r : Reg8) (q : Shifted) : (s.shiftR8 r q).regs = s.regs.set r q.res := rfl
@[simp] theorem State.shiftR8_f (s : State) (r : Reg8) (q : Shifted) : (s.shiftR8 r q).f = shiftFlags q := rfl
@[simp] theorem State.shiftR8_sp (s : State) (r : Reg8) (q : Shifted) : (s.shiftR8 r q).sp = s.sp := rfl
@[simp] theorem State.shiftR8_pc (s : State) (r : Reg8) (q : Shifted) : (s.shiftR8 r q).pc = s.pc := rfl
@[simp] theorem State.shiftR8_ime (s : State) (r : Reg8) (q : Shifted) : (s.shiftR8 r q).ime = s.ime := rfl
@[simp] theorem State.shiftR8_eiPending (s : State) (r : Reg8) (q : Shifted) : (s.shiftR8 r q).eiPending = s.eiPending := rfl
@[simp] theorem State.shiftR8_mode (s : State) (r : Reg8) (q : Shifted) : (s.shiftR8 r q).mode = s.mode := rfl
@[simp] theorem State.shiftR8_haltBug (s : State) (r : Reg8) (q : Shifted) : (s.shiftR8 r q).haltBug = s.haltBug := rfl
@[simp] theorem State.shiftR8_bus (s : State) (r : Reg8) (q : Shifted) : (s.shiftR8 r q).bus = s.bus := rfl
@[simp] theorem State.shiftR8_params (s : State) (r : Reg8) (q : Shifted) : (s.shiftR8 r q).params = s.params := rfl
@[simp] theorem State.shiftR8_arrivals (s : State) (r : Reg8) (q : Shifted) : (s.shiftR8 r q).arrivals = s.arrivals := rfl

/-! ### `State.shiftAtHl` -/

@[simp] theorem State.shiftAtHl_regs (s : State) (q : Shifted) : (s.shiftAtHl q).regs = s.regs := rfl
@[simp] theorem State.shiftAtHl_f (s : State) (q : Shifted) : (s.shiftAtHl q).f = shiftFlags q := rfl
@[simp] theorem State.shiftAtHl_sp (s : State) (q : Shifted) : (s.shiftAtHl q).sp = s.sp := rfl
@[simp] theorem State.shiftAtHl_pc (s : State) (q : Shifted) : (s.shiftAtHl q).pc = s.pc := rfl
@[simp] theorem State.shiftAtHl_ime (s : State) (q : Shifted) : (s.shiftAtHl q).ime = s.ime := rfl
@[simp] theorem State.shiftAtHl_eiPending (s : State) (q : Shifted) : (s.shiftAtHl q).eiPending = s.eiPending := rfl
@[simp] theorem State.shiftAtHl_mode (s : State) (q : Shifted) : (s.shiftAtHl q).mode = s.mode := rfl
@[simp] theorem State.shiftAtHl_haltBug (s : State) (q : Shifted) : (s.shiftAtHl q).haltBug = s.haltBug := rfl
@[simp] theorem State.shiftAtHl_bus (s : State) (q : Shifted) : (s.shiftAtHl q).bus = (s.bus.touch s.hl).write s.hl q.res := rfl
@[simp] theorem State.shiftAtHl_params (s : State) (q : Shifted) : (s.shiftAtHl q).params = s.params := rfl
@[simp] theorem State.shiftAtHl_arrivals (s : State) (q : Shifted) : (s.shiftAtHl q).arrivals = s.arrivals := rfl

/-! ### `State.shiftAcc` -/

@[simp] theorem State.shiftAcc_regs (s : State) (q : Shifted) : (s.shiftAcc q).regs = s.regs.set .a q.res := rfl
@[simp] theorem State.shiftAcc_f (s : State) (q : Shifted) : (s.shiftAcc q).f = accShiftFlags q := rfl
@[simp] theorem State.shiftAcc_sp (s : State) (q : Shifted) : (s.shiftAcc q).sp = s.sp := rfl
@[simp] theorem State.shiftAcc_pc (s : State) (q : Shifted) : (s.shiftAcc q).pc = s.pc := rfl
@[simp] theorem State.shiftAcc_ime (s : State) (q : Shifted) : (s.shiftAcc q).ime = s.ime := rfl
@[simp] theorem State.shiftAcc_eiPending (s : State) (q : Shifted) : (s.shiftAcc q).eiPending = s.eiPending := rfl
@[simp] theorem State.shiftAcc_mode (s : State) (q : Shifted) : (s.shiftAcc q).mode = s.mode := rfl
@[simp] theorem State.shiftAcc_haltBug (s : State) (q : Shifted) : (s.shiftAcc q).haltBug = s.haltBug := rfl
@[simp] theorem State.shiftAcc_bus (s : State) (q : Shifted) : (s.shiftAcc q).bus = s.bus := rfl
@[simp] theorem State.shiftAcc_params (s : State) (q : Shifted) : (s.shiftAcc q).params = s.params := rfl
@[simp] theorem State.shiftAcc_arrivals (s : State) (q : Shifted) : (s.shiftAcc q).arrivals = s.arrivals := rfl

/-! ### `State.lockUp` -/

@[simp] theorem State.lockUp_regs (s : State) : s.lockUp.regs = s.regs := rfl
@[simp] theorem State.lockUp_f (s : State) : s.lockUp.f = s.f := rfl
@[simp] theorem State.lockUp_sp (s : State) : s.lockUp.sp = s.sp := rfl
@[simp] theorem State.lockUp_pc (s : State) : s.lockUp.pc = s.pc := rfl
@[simp] theorem State.lockUp_ime (s : State) : s.lockUp.ime = s.ime := rfl
@[simp] theorem State.lockUp_eiPending (s : State) : s.lockUp.eiPending = s.eiPending := rfl
@[simp] theorem State.lockUp_mode (s : State) : s.lockUp.mode = .faulted := rfl
@[simp] theorem State.lockUp_haltBug (s : State) : s.lockUp.haltBug = s.haltBug := rfl
@[simp] theorem State.lockUp_bus (s : State) : s.lockUp.bus = s.bus := rfl
@[simp] theorem State.lockUp_params (s : State) : s.lockUp.params = s.params := rfl
@[simp] theorem State.lockUp_arrivals (s : State) : s.lockUp.arrivals = s.arrivals := rfl

/-! ### `State.platformTurn` -/

@[simp] theorem State.platformTurn_regs (s : State) (t : Arrival) : (s.platformTurn t).regs = s.regs := rfl
@[simp] theorem State.platformTurn_f (s : State) (t : Arrival) : (s.platformTurn t).f = s.f := rfl
@[simp] theorem State.platformTurn_sp (s : State) (t : Arrival) : (s.platformTurn t).sp = s.sp := rfl
@[simp] theorem State.platformTurn_pc (s : State) (t : Arrival) : (s.platformTurn t).pc = s.pc := rfl
@[simp] theorem State.platformTurn_ime (s : State) (t : Arrival) : (s.platformTurn t).ime = s.ime := rfl
@[simp] theorem State.platformTurn_eiPending (s : State) (t : Arrival) : (s.platformTurn t).eiPending = s.eiPending := rfl
@[simp] theorem State.platformTurn_haltBug (s : State) (t : Arrival) : (s.platformTurn t).haltBug = s.haltBug := rfl
@[simp] theorem State.platformTurn_bus (s : State) (t : Arrival) : (s.platformTurn t).bus = s.bus.turn t := rfl
@[simp] theorem State.platformTurn_params (s : State) (t : Arrival) : (s.platformTurn t).params = s.params := rfl
@[simp] theorem State.platformTurn_arrivals (s : State) (t : Arrival) : (s.platformTurn t).arrivals = s.arrivals := rfl

/-! ### Registers -/

@[simp] theorem Regs.get_set_self (g : Regs) (r : Reg8) (v : Byte) : (g.set r v).get r = v := by cases r <;> rfl

theorem Regs.get_set_ne (g : Regs) {r q : Reg8} (v : Byte) (h : q ≠ r) : (g.set r v).get q = g.get q := by
  cases r <;> cases q <;> first | rfl | exact absurd rfl h

@[simp] theorem Regs.set_get_self (g : Regs) (r : Reg8) : g.set r (g.get r) = g := by cases r <;> rfl

@[simp] theorem joinBytes_hi_lo (v : Word) : joinBytes (hiByte v) (loByte v) = v := by
  simp only [joinBytes, hiByte, loByte]
  ext i hi
  simp only [BitVec.getElem_append]
  split
  · simp [BitVec.getLsbD_eq_getElem hi]
  · simp only [BitVec.getElem_extractLsb']
    rw [BitVec.getLsbD_eq_getElem (by omega)]
    congr 1; omega

@[simp] theorem hiByte_joinBytes (a b : Byte) : hiByte (joinBytes a b) = a := by
  simp only [joinBytes, hiByte]
  ext i hi
  simp only [BitVec.getElem_extractLsb', BitVec.getLsbD_append]
  rw [if_neg (by omega), show 8 + i - 8 = i by omega, BitVec.getLsbD_eq_getElem hi]

@[simp] theorem loByte_joinBytes (a b : Byte) : loByte (joinBytes a b) = b := by
  simp only [joinBytes, loByte]
  ext i hi
  simp only [BitVec.getElem_extractLsb', BitVec.getLsbD_append]
  rw [if_pos (by omega), show 0 + i = i by omega, BitVec.getLsbD_eq_getElem hi]

@[simp] theorem Regs.get16_set16_self (g : Regs) (r : Reg16) (v : Word) : (g.set16 r v).get16 r = v := by
  cases r <;> simp [Regs.set16, Regs.get16]

@[simp] theorem Regs.set16_get16_self (g : Regs) (r : Reg16) : g.set16 r (g.get16 r) = g := by
  cases r <;> simp [Regs.set16, Regs.get16]

/-- The flags survive `PUSH AF` and `POP AF` (10_state.md R23). -/
@[simp] theorem flagsOfByte_flagsByte (f : Flags) : flagsOfByte (flagsByte f) = f := by
  obtain ⟨z, n, h, c⟩ := f
  revert z n h c
  decide

end Sys2Proof.Machine
end

