-- ==== Sys2Proof/Laws/Ops.lean ====
section
/-! SUPPORT. What each shared operation does, said once: the accesses, the stack, the interrupt machinery, the
platform. -/

namespace Sys2Proof.Machine

/-! ### Accesses -/

theorem Bus.sameMap_access (b : Bus) (e : Access) : b.SameMap (b.access e) := by
  cases e with
  | read a => exact b.sameMap_touch a
  | write a v => exact b.sameMap_write a v
  | ack i => exact b.sameMap_ifClear i
  | turn t => exact b.sameMap_turn t

theorem Bus.wf_access {b : Bus} (e : Access) (h : b.mem.wf = true) : (b.access e).mem.wf = true := by
  cases e with
  | read a => exact Bus.wf_touch a h
  | write a v => exact Bus.wf_write a v h
  | ack i => exact Bus.wf_ifClear i h
  | turn t => exact Bus.wf_turn t h

/-- What a read does to the bus, said once: nothing, but that the device it goes to sees it (20_memory.md R51). -/
theorem Bus.touch_cases (b : Bus) (a : Word) :
    (b.onDevice (.read a) = true ∧ b.touch a = b.note (.read a)) ∨
    (b.onDevice (.read a) = false ∧ b.touch a = b) := by
  simp only [Bus.onDevice, Bus.touch]
  cases h : b.place a with
  | cell c k => exact .inr ⟨by simp, rfl⟩
  | device =>
    by_cases hi : a = b.ieAddr ∨ a = b.ifAddr
    · exact .inr ⟨by rcases hi with hi | hi <;> simp [hi], if_pos hi⟩
    · exact .inl ⟨by simpa using hi, if_neg hi⟩

/-- What an access adds to what the devices have seen: itself, if it is theirs. -/
theorem Bus.past_access (b : Bus) (e : Access) :
    (b.access e).past = if b.onDevice e then e :: b.past else b.past := by
  cases e with
  | read a =>
    obtain ⟨h, e⟩ | ⟨h, e⟩ := b.touch_cases a
    · rw [h, Bus.access, e]; rfl
    · rw [h, Bus.access, e]; rfl
  | write a v => cases h : b.place a <;> simp [Bus.access, Bus.write, Bus.onDevice, h, Bus.note, Bus.storeCells]
  | ack i => cases h : b.place b.ifAddr <;> simp [Bus.access, Bus.ifClear, Bus.onDevice, h, Bus.note, Bus.storeCells]
  | turn t =>
    simp only [Bus.access, Bus.turn, Bus.request, Bus.onDevice]
    split <;> rfl

/-- What a device stores, byte by byte. -/
theorem Bus.read_note {b : Bus} (h : b.mem.wf = true) (d : Word) (e : Access) :
    (b.note e).mem.read d.toNat = b.stored d (Config.deviceStores (e :: b.past)) (b.mem.read d.toNat) :=
  Memory.read_foldl b.holdsInt _ h d

/-- What an access leaves in each byte of memory. -/
theorem Bus.read_access {b : Bus} (h : b.mem.wf = true) (d : Word) (e : Access) :
    (b.access e).mem.read d.toNat = b.cellStep d b.past (b.mem.read d.toNat) e := by
  cases e with
  | read a =>
    obtain ⟨ho, e⟩ | ⟨ho, e⟩ := b.touch_cases a
    · rw [Bus.access, e, Bus.cellStep, ho]; exact Bus.read_note h d _
    · rw [Bus.access, e, Bus.cellStep, ho]; rfl
  | write a v =>
    cases hp : b.place a with
    | cell c k =>
      simp only [Bus.access, Bus.write, Bus.cellStep, hp, Memory.read_write h, BitVec.toNat_inj, eq_comm (a := d)]
      split
      · subst_vars; rfl
      · rfl
    | device => simp only [Bus.access, Bus.write, Bus.cellStep, hp]; exact Bus.read_note h d _
  | ack i =>
    cases hp : b.place b.ifAddr with
    | cell c k =>
      simp only [Bus.access, Bus.ifClear, Bus.cellStep, hp, Memory.read_write h, BitVec.toNat_inj, eq_comm (a := d)]
      split
      · subst_vars; rfl
      · rfl
    | device => simp only [Bus.access, Bus.ifClear, Bus.cellStep, hp]; exact Bus.read_note h d _
  | turn t =>
    have hw : ({ b with past := .turn t :: b.past }.storeCells t.stores).mem.wf = true :=
      Bus.wf_storeCells (b := { b with past := .turn t :: b.past }) _ h
    have hs : ∀ d : Word, ({ b with past := .turn t :: b.past }.storeCells t.stores).mem.read d.toNat =
        b.stored d t.stores (b.mem.read d.toNat) := Memory.read_foldl b.holdsInt _ h
    have hq : ∀ p : Place, b.place b.ifAddr = p →
        ({ b with past := .turn t :: b.past }.storeCells t.stores).place
          ({ b with past := .turn t :: b.past }.storeCells t.stores).ifAddr = p := fun _ e => e
    cases hp : b.place b.ifAddr with
    | cell c k =>
      simp only [Bus.access, Bus.turn, Bus.request, Bus.cellStep, Bus.isCellOf, hp, hq _ hp, Memory.read_write hw,
        BitVec.toNat_inj, eq_comm (a := d), decide_eq_true_eq, hs]
      split
      · subst_vars; rfl
      · rfl
    | device =>
      simp only [Bus.access, Bus.turn, Bus.request, Bus.cellStep, Bus.isCellOf, hp, hq _ hp]
      exact hs d

/-- No store of a device or of the platform reaches `[IE]` or `[IF]` (60_exceptions.md R283). -/
theorem Bus.stored_holdsInt {b : Bus} {d : Word} (h : b.holdsInt d = true) (cs : List (Word × Byte)) (v : Byte) :
    b.stored d cs v = v := by
  unfold Bus.stored
  induction cs generalizing v with
  | nil => rfl
  | cons c cs ih => rw [List.foldl_cons, if_neg (by simp [h])]; exact ih v

/-- A byte that is not among the stores stays. -/
theorem Bus.stored_notMem {b : Bus} {d : Word} {cs : List (Word × Byte)} (h : d ∉ cs.map Prod.fst) (v : Byte) :
    b.stored d cs v = v := by
  unfold Bus.stored
  induction cs generalizing v with
  | nil => rfl
  | cons c cs ih =>
    simp only [List.map_cons, List.mem_cons, not_or] at h
    rw [List.foldl_cons, if_neg (fun e => h.1 e.1.symm)]
    exact ih h.2 v

/-- What a turn of the platform does to the bytes of `[IE]` and `[IF]`: it sets bits of `[IF]` (60_exceptions.md R283). -/
theorem Bus.turn_holdsInt {b : Bus} (h : b.mem.wf = true) (t : Arrival) {d : Word} (hd : b.holdsInt d = true) :
    (b.turn t).mem.read d.toNat =
      if b.isCellOf d b.ifAddr then b.mem.read d.toNat ||| t.requests else b.mem.read d.toNat := by
  have := Bus.read_access h d (.turn t)
  rwa [Bus.cellStep, Bus.stored_holdsInt hd] at this

theorem Bus.SameMap.onDevice {b c : Bus} (h : b.SameMap c) : c.onDevice = b.onDevice := by
  funext e; cases e <;> simp only [Bus.onDevice, h.place, h.2.1, h.2.2]

theorem Bus.SameMap.stored {b c : Bus} (h : b.SameMap c) : c.stored = b.stored := by
  funext d cs v; simp only [Bus.stored, h.holdsInt]

theorem Bus.SameMap.cellStep {b c : Bus} (h : b.SameMap c) : c.cellStep = b.cellStep := by
  funext d past v e
  cases e <;> simp only [Bus.cellStep, h.place, h.onDevice, h.stored, h.isCellOf, h.2.2]

theorem Bus.SameMap.cellAfter {b c : Bus} (h : b.SameMap c) (d : Word) (past : List Access) (v : Byte)
    (es : List Access) : c.cellAfter d past v es = b.cellAfter d past v es := by
  induction es generalizing past v with
  | nil => rfl
  | cons e es ih => simp only [Bus.cellAfter, ih, h.onDevice, h.cellStep]

@[simp] theorem Bus.after_nil (b : Bus) : b.after [] = b := rfl
theorem Bus.after_cons (b : Bus) (e : Access) (es : List Access) : b.after (e :: es) = (b.access e).after es := rfl
theorem Bus.after_append (b : Bus) (es fs : List Access) : b.after (es ++ fs) = (b.after es).after fs := by
  simp [Bus.after]

theorem Bus.sameMap_after (b : Bus) (es : List Access) : b.SameMap (b.after es) := by
  induction es generalizing b with
  | nil => exact ⟨rfl, rfl, rfl⟩
  | cons e es ih => exact (b.sameMap_access e).trans (ih _)

@[simp] theorem Bus.after_place (b : Bus) (es : List Access) (a : Word) : (b.after es).place a = b.place a :=
  (b.sameMap_after es).place a
@[simp] theorem Bus.after_ieAddr (b : Bus) (es : List Access) : (b.after es).ieAddr = b.ieAddr :=
  (b.sameMap_after es).2.1
@[simp] theorem Bus.after_ifAddr (b : Bus) (es : List Access) : (b.after es).ifAddr = b.ifAddr :=
  (b.sameMap_after es).2.2

theorem Bus.wf_after {b : Bus} (es : List Access) (h : b.mem.wf = true) : (b.after es).mem.wf = true := by
  induction es generalizing b with
  | nil => exact h
  | cons e es ih => exact ih (Bus.wf_access e h)

/-- What accesses add to what the devices have seen: those that are theirs, in order. -/
theorem Bus.past_after (b : Bus) (es : List Access) :
    (b.after es).past = (es.filter b.onDevice).reverse ++ b.past := by
  induction es generalizing b with
  | nil => rfl
  | cons e es ih =>
    rw [Bus.after_cons, ih, (b.sameMap_access e).onDevice, b.past_access e]
    cases h : b.onDevice e <;> simp [h]

/-- What accesses leave in each byte of memory, said once (20_memory.md R51). -/
theorem Bus.read_after {b : Bus} (h : b.mem.wf = true) (d : Word) (es : List Access) :
    (b.after es).mem.read d.toNat = b.cellAfter d b.past (b.mem.read d.toNat) es := by
  induction es generalizing b with
  | nil => rfl
  | cons e es ih =>
    rw [Bus.after_cons, ih (Bus.wf_access e h), (b.sameMap_access e).cellAfter, b.past_access e, Bus.read_access h]
    rfl

/-- A bus that has made accesses, and what they come to. -/
theorem Accesses.of_bus {s t : State} {es : List Access} (hw : s.bus.mem.wf = true) (h : t.bus = s.bus.after es) :
    Accesses s t es := by
  refine ⟨h, fun a d k ha => ?_, ?_⟩
  · have hp : t.bus.place a = .cell d k := by rw [h, Bus.after_place, ha]
    rw [State.read, Bus.read_cell hp, h, Bus.read_after hw]
  · have hm := s.bus.sameMap_after es
    have hs := s.bus.past_after es
    rw [← h] at hm hs
    obtain ⟨h1, h2, h3⟩ := hm
    simp only [← hs, h1, h2, h3]

/-- No access that stores to it or that a device sees, no change of a byte of memory. -/
theorem Bus.cellAfter_same (b : Bus) (d : Word) (past : List Access) (v : Byte) (es : List Access)
    (h : ∀ e ∈ es, b.onDevice e = false ∧ ∀ past v, b.cellStep d past v e = v) : b.cellAfter d past v es = v := by
  induction es with
  | nil => rfl
  | cons e es ih =>
    have he := h e (.head _)
    rw [Bus.cellAfter, he.1, he.2]
    exact ih fun e h' => h e (.tail _ h')

/-! ### Reads -/

@[simp] theorem State.seen_nil (s : State) : s.seen [] = s := rfl

/-- A read is seen by the device it goes to (20_memory.md R51). -/
theorem State.touch_eq (s : State) (a : Word) : s.touch a = s.seen [.read a] := rfl

/-- What devices see, they see in order. -/
theorem State.seen_append (s : State) (es fs : List Access) : s.seen (es ++ fs) = (s.seen es).seen fs := by
  simp only [State.seen, Bus.after_append]

/-- A read of memory changes nothing. -/
theorem State.seen_read_cell {s : State} {a d : Word} {k : Wiring} (h : s.bus.place a = .cell d k) :
    s.seen [.read a] = s := by
  simp only [State.seen, Bus.after, List.foldl_cons, List.foldl_nil, Bus.access, Bus.touch, h]

/-- A store to plain memory changes what its own address reads as, and no other plain memory. -/
theorem State.isRam.hits {s : State} {a b : Word} (ha : s.isRam a) (hb : s.isRam b) : s.hits a b = decide (a = b) := by
  unfold State.hits
  rw [ha, hb]
  simp [Wiring.ram]

/-- What plain memory reads as after a store to plain memory. -/
theorem State.isRam.read_write {s : State} (h : s.bus.mem.wf = true) {a b : Word} (ha : s.isRam a) (hb : s.isRam b)
    (v : Byte) : (s.write a v).read b = if b = a then v else s.read b := by
  have hp : (s.bus.write a v).place b = .cell b Wiring.ram := by rw [(s.bus.sameMap_write a v).place]; exact hb
  simp only [State.read, State.write]
  rw [Bus.read_cell hp, Bus.read_cell hb]
  simp only [Bus.write, show s.bus.place a = _ from ha, Memory.read_write h, BitVec.toNat_inj, Wiring.ram_reads,
    Wiring.ram_stores]

theorem State.isRam.write {s : State} {b : Word} (hb : s.isRam b) (a : Word) (v : Byte) : (s.write a v).isRam b :=
  ((s.bus.sameMap_write a v).place b).trans hb

/-! ### The stack -/

/-- What a push does to the bus (R240). -/
theorem State.push16_bus (s : State) (v : Word) :
    (s.push16 v).bus = s.bus.after [.write (s.sp - 1) (hiByte v), .write (s.sp - 1 - 1) (loByte v)] := rfl

/-- A pop: the word on top of the stack (R241). -/
theorem State.pop16_fst (s : State) : s.pop16.1 = s.top := by
  simp only [State.top, ← State.touch_eq]; rfl

/-- A pop moves `SP` by two, its reads are noted, and nothing else changes (R241). -/
theorem State.pop16_snd (s : State) : s.pop16.2 = s.popped := by
  have h : s.popped = { (s.seen [.read s.sp]).seen [.read (s.sp + 1)] with sp := s.sp + 2 } := by
    rw [← State.seen_append]; rfl
  have e : s.sp + 2 = s.sp + 1 + 1 := by bv_omega
  rw [h, ← State.touch_eq, ← State.touch_eq, e]
  rfl

/-- A return, in terms of the word on top of the stack (45_jumps.md R228). -/
theorem State.popPc_eq (s : State) : s.popPc = { s.popped with pc := s.top } := by
  simp only [State.popPc, State.jump, State.pop16_fst, State.pop16_snd]

/-! ### Interrupts -/

/-- What a dispatch does to the bus: the acknowledge and two stores (R288). -/
theorem State.takeInterrupt_bus (s : State) (i : Fin 8) :
    (s.takeInterrupt i).bus =
      s.bus.after [.ack i, .write (s.sp - 1) (hiByte s.pc), .write (s.sp - 1 - 1) (loByte s.pc)] := rfl

/-- Some source is dispatched exactly if an interrupt is pending (R284, R285). -/
theorem State.nextSource_isSome (s : State) : s.nextSource.isSome = s.pending := by
  simp only [State.nextSource, State.pending]
  generalize s.pendingSet = p
  revert p
  decide +kernel

/-- The source dispatched is the lowest one pending (R285). -/
theorem State.nextSource_eq_some {s : State} {i : Fin 8} :
    s.nextSource = some i ↔ s.pendingSet.getLsbD i.val = true ∧
      ∀ j : Fin 8, j < i → s.pendingSet.getLsbD j.val = false := by
  simp only [State.nextSource]
  generalize s.pendingSet = p
  revert p i
  decide +kernel

/-- The interrupt machinery sees only the bus and the parameters. -/
theorem State.pending_congr {s t : State} (h : s.bus = t.bus) (hp : s.params = t.params) : s.pending = t.pending := by
  simp only [State.pending, State.pendingSet, h, hp]

/-! ### The platform -/

/-- Where the platform does nothing, a step starts in the state as it is. -/
theorem State.arrive_nil {s : State} (h : s.arrivals = []) : s.arrive = s := by
  unfold State.arrive; rw [h]

/-- A turn of the platform is its access to the bus. -/
theorem State.arrive_bus {s : State} {t : Arrival} {rest : List Arrival} (h : s.arrivals = t :: rest) :
    s.arrive.bus = s.bus.after [.turn t] := by
  unfold State.arrive; rw [h]; rfl

theorem State.arrive_cons {s : State} {t : Arrival} {rest : List Arrival} (h : s.arrivals = t :: rest) :
    s.arrive = { s with arrivals := rest }.platformTurn t := by
  unfold State.arrive; rw [h]

/-- What a turn of the platform can change: the bus, what it will do next, and the mode of a stopped CPU (R283, R300). -/
theorem State.arrive_frame (s : State) :
    s.arrive = { s with bus := s.arrive.bus, mode := s.arrive.mode, arrivals := s.arrivals.tail } := by
  unfold State.arrive
  split
  · rename_i h; cases s; cases h; rfl
  · rename_i h; rw [h]; rfl

/-- Only a stopped CPU's mode can be changed by the platform. -/
theorem State.arrive_mode {s : State} (h : s.mode ≠ .stopped) : s.arrive.mode = s.mode := by
  unfold State.arrive
  split
  · rfl
  · simp [State.platformTurn, h]

end Sys2Proof.Machine
end

