-- ==== Sys2Proof/Laws/Decode.lean ====
section
/-! SUPPORT. The decoder on the bytes that the fetch supplies. -/

namespace Sys2Proof

/-- How many bytes an instruction takes, from what its first byte leaves to be read. -/
def Shape.length : Shape → Nat
  | .plain _ => 1
  | .imm8 _ => 2
  | .imm16 _ => 3
  | .prefixed => 2

/-- The length by the list of R95 is the length by the opcode map (R92). -/
theorem Shape.length_decodeFirst (b : Byte) : (decodeFirst b).length = instrLength b := by
  revert b
  decide +kernel

/-- The decoder reads exactly as many bytes as the first byte says, and never refuses that many. -/
theorem decode_exact {b : Byte} {more : List Byte} (h : more.length = instrLength b - 1) :
    ∃ i, decode (b :: more) = .ok (i, []) := by
  rw [← Shape.length_decodeFirst] at h
  simp only [decode]
  cases hs : decodeFirst b <;> simp only [hs, Shape.length] at h ⊢
  case plain i => exact ⟨i, by rw [List.length_eq_zero_iff.1 h]⟩
  case imm8 k => obtain ⟨n, rfl⟩ := List.length_eq_one_iff.1 h; exact ⟨_, rfl⟩
  case imm16 k =>
    match more, h with
    | [lo, hi], _ => exact ⟨_, rfl⟩
  case prefixed => obtain ⟨n, rfl⟩ := List.length_eq_one_iff.1 h; exact ⟨_, rfl⟩

/-- The decoder never refuses three bytes. -/
theorem decode_three (x y z : Byte) : ∃ i rest, decode [x, y, z] = .ok (i, rest) := by
  simp only [decode]
  cases decodeFirst x <;> exact ⟨_, _, rfl⟩

namespace Machine

theorem State.fetch8_eq (s : State) :
    s.fetch8 = (s.read s.pc, { s.seen [.read s.pc] with pc := s.pc + 1 }) := by
  rw [State.fetch8, State.touch_eq]

/-- What `FetchOpcode` does: the byte at `PC`; `PC` moves on unless the HALT bug is armed, and the bug is
disarmed (R82). -/
theorem State.fetchOpcode_eq (s : State) :
    s.fetchOpcode =
      (s.read s.pc, { s.seen [.read s.pc] with pc := s.pcAfterOpcode, haltBug := false }) := by
  simp only [State.fetchOpcode, State.fetch8_eq, State.touch_eq, State.pcAfterOpcode]
  cases h : s.haltBug <;> simp [State.seen, h]

/-- The fetch takes as many of the three next bytes as the instruction has, one after the other (R81, R95). -/
theorem State.fetchBytes_eq (s : State) (n : Nat) (h : instrLength (s.read s.pc) = n + 1) (hn : n ≤ 2) :
    s.fetchBytes = (s.nextBytes.take (n + 1),
      { s.seen (s.fetches.take (n + 1)) with
        pc := s.pcAfterOpcode + BitVec.ofNat 16 n, haltBug := false }) := by
  simp only [State.fetchBytes, State.fetchOpcode_eq, h, Nat.add_sub_cancel]
  match n, hn with
  | 0, _ => simp [State.fetchMore, State.nextBytes, State.fetches]
  | 1, _ =>
    rw [show s.fetches.take (1 + 1) = [.read s.pc] ++ [.read s.pcAfterOpcode] from rfl, State.seen_append]
    simp only [State.fetchMore, State.fetch8_eq]
    rfl
  | 2, _ =>
    rw [show s.fetches.take (2 + 1) = [.read s.pc] ++ [.read s.pcAfterOpcode] ++ [.read (s.pcAfterOpcode + 1)] from rfl,
      State.seen_append, State.seen_append]
    simp only [State.fetchMore, State.fetch8_eq, State.nextBytes]
    rw [show s.fetches.take 2 = [.read s.pc] ++ [.read s.pcAfterOpcode] from rfl, State.seen_append]
    have e : s.pcAfterOpcode + 1 + 1 = s.pcAfterOpcode + BitVec.ofNat 16 2 := by bv_omega
    rw [e]
    rfl

/-- The fetch yields the instruction that the next bytes decode to, in the state that has fetched it. -/
theorem State.fetch_eq {s : State} {i : Instr} {rest : List Byte} (h : decode s.nextBytes = .ok (i, rest)) :
    s.fetch = .ok (i, s.fetched rest) := by
  have hl := Shape.length_decodeFirst (s.read s.pc)
  simp only [State.nextBytes, decode] at h
  cases hs : decodeFirst (s.read s.pc) <;> simp only [hs, Shape.length] at h hl
  case plain => 
    injection h with h; injection h with h1 h2; subst h1 h2
    simp [State.fetch, s.fetchBytes_eq 0 hl.symm (by omega), State.nextBytes, decode, hs, State.fetched]
  case imm8 =>
    injection h with h; injection h with h1 h2; subst h1 h2
    simp [State.fetch, s.fetchBytes_eq 1 hl.symm (by omega), State.nextBytes, decode, hs, State.fetched]
  case imm16 =>
    injection h with h; injection h with h1 h2; subst h1 h2
    simp [State.fetch, s.fetchBytes_eq 2 hl.symm (by omega), State.nextBytes, decode, hs, State.fetched]
  case prefixed =>
    injection h with h; injection h with h1 h2; subst h1 h2
    simp [State.fetch, s.fetchBytes_eq 1 hl.symm (by omega), State.nextBytes, decode, hs, State.fetched]

/-- The fetch always yields an instruction: no state raises the refusal `undecodable`. -/
theorem Laws.fetch_never_refuses (s : State) :
    ∃ i rest, decode s.nextBytes = .ok (i, rest) ∧ s.fetch = .ok (i, s.fetched rest) := by
  obtain ⟨i, rest, h⟩ := decode_three (s.read s.pc) ((s.seen (s.fetches.take 1)).read s.pcAfterOpcode)
    ((s.seen (s.fetches.take 2)).read (s.pcAfterOpcode + 1))
  exact ⟨i, rest, h, State.fetch_eq h⟩

/-- A fetch changes `PC`, disarms the HALT bug, is seen by the devices it goes to, and changes nothing else. -/
theorem State.fetched_frame (s : State) (rest : List Byte) :
    s.fetched rest = { s.seen (s.fetches.take (3 - rest.length)) with pc := (s.fetched rest).pc, haltBug := false } :=
  rfl

theorem State.wf_fetched {s : State} (rest : List Byte) (h : s.bus.mem.wf = true) : (s.fetched rest).bus.mem.wf = true :=
  Bus.wf_after _ h
@[simp] theorem State.fetched_haltBug (s : State) (rest : List Byte) : (s.fetched rest).haltBug = false := rfl
@[simp] theorem State.fetched_mode (s : State) (rest : List Byte) : (s.fetched rest).mode = s.mode := rfl
@[simp] theorem State.fetched_eiPending (s : State) (rest : List Byte) : (s.fetched rest).eiPending = s.eiPending := rfl

end Machine

end Sys2Proof
end

