-- ==== Sys2Proof/Laws/PerInstr.lean ====
section
/-! SUPPORT. Laws of every instruction, one lemma per constructor. -/

namespace Sys2Proof.Laws

/-- The encoding has as many bytes as its first byte says (30_encoding.md R95), and that is 1, 2 or 3 (R83). -/
def EncodedLength.Statement (i : Instr) : Prop :=
  i.wellFormed = true →
    (encode i).length = instrLength ((encode i).headD 0#8) ∧ 1 ≤ (encode i).length ∧ (encode i).length ≤ 3

namespace EncodedLength

/-- The statement for an opcode byte whose length is known. -/
theorem of_enc1 {i : Instr} {op : Nat} (he : encode i = enc1 op) (h : instrLength (BitVec.ofNat 8 op) = 1) :
    Statement i := fun _ => by rw [he]; simp [enc1, h]

theorem of_enc8 {i : Instr} {op : Nat} {n : Byte} (he : encode i = enc8 op n)
    (h : instrLength (BitVec.ofNat 8 op) = 2) : Statement i := fun _ => by rw [he]; simp [enc8, h]

theorem of_enc16 {i : Instr} {op : Nat} {n : Word} (he : encode i = enc16 op n)
    (h : instrLength (BitVec.ofNat 8 op) = 3) : Statement i := fun _ => by rw [he]; simp [enc16, h]

theorem of_encCb {i : Instr} {op2 : Nat} (he : encode i = encCb op2) : Statement i := fun _ => by
  rw [he]; simp [encCb]; decide

theorem adcAR8 (r : Reg8) : Statement (.adcAR8 r) := by
  cases r <;> exact of_enc1 rfl (by decide)
theorem adcAHl : Statement .adcAHl := of_enc1 rfl (by decide)
theorem adcAN8 (n : Byte) : Statement (.adcAN8 n) := of_enc8 rfl (by decide)
theorem addAR8 (r : Reg8) : Statement (.addAR8 r) := by
  cases r <;> exact of_enc1 rfl (by decide)
theorem addAHl : Statement .addAHl := of_enc1 rfl (by decide)
theorem addAN8 (n : Byte) : Statement (.addAN8 n) := of_enc8 rfl (by decide)
theorem andAR8 (r : Reg8) : Statement (.andAR8 r) := by
  cases r <;> exact of_enc1 rfl (by decide)
theorem andAHl : Statement .andAHl := of_enc1 rfl (by decide)
theorem andAN8 (n : Byte) : Statement (.andAN8 n) := of_enc8 rfl (by decide)
theorem cpAR8 (r : Reg8) : Statement (.cpAR8 r) := by
  cases r <;> exact of_enc1 rfl (by decide)
theorem cpAHl : Statement .cpAHl := of_enc1 rfl (by decide)
theorem cpAN8 (n : Byte) : Statement (.cpAN8 n) := of_enc8 rfl (by decide)
theorem decR8 (r : Reg8) : Statement (.decR8 r) := by
  cases r <;> exact of_enc1 rfl (by decide)
theorem decHlInd : Statement .decHlInd := of_enc1 rfl (by decide)
theorem incR8 (r : Reg8) : Statement (.incR8 r) := by
  cases r <;> exact of_enc1 rfl (by decide)
theorem incHlInd : Statement .incHlInd := of_enc1 rfl (by decide)
theorem orAR8 (r : Reg8) : Statement (.orAR8 r) := by
  cases r <;> exact of_enc1 rfl (by decide)
theorem orAHl : Statement .orAHl := of_enc1 rfl (by decide)
theorem orAN8 (n : Byte) : Statement (.orAN8 n) := of_enc8 rfl (by decide)
theorem sbcAR8 (r : Reg8) : Statement (.sbcAR8 r) := by
  cases r <;> exact of_enc1 rfl (by decide)
theorem sbcAHl : Statement .sbcAHl := of_enc1 rfl (by decide)
theorem sbcAN8 (n : Byte) : Statement (.sbcAN8 n) := of_enc8 rfl (by decide)
theorem subAR8 (r : Reg8) : Statement (.subAR8 r) := by
  cases r <;> exact of_enc1 rfl (by decide)
theorem subAHl : Statement .subAHl := of_enc1 rfl (by decide)
theorem subAN8 (n : Byte) : Statement (.subAN8 n) := of_enc8 rfl (by decide)
theorem xorAR8 (r : Reg8) : Statement (.xorAR8 r) := by
  cases r <;> exact of_enc1 rfl (by decide)
theorem xorAHl : Statement .xorAHl := of_enc1 rfl (by decide)
theorem xorAN8 (n : Byte) : Statement (.xorAN8 n) := of_enc8 rfl (by decide)
theorem addHlR16 (r : Reg16) : Statement (.addHlR16 r) := by
  cases r <;> exact of_enc1 rfl (by decide)
theorem decR16 (r : Reg16) : Statement (.decR16 r) := by
  cases r <;> exact of_enc1 rfl (by decide)
theorem incR16 (r : Reg16) : Statement (.incR16 r) := by
  cases r <;> exact of_enc1 rfl (by decide)
theorem bitR8 (u : Fin 8) (r : Reg8) : Statement (.bitR8 u r) := of_encCb rfl
theorem bitHl (u : Fin 8) : Statement (.bitHl u) := of_encCb rfl
theorem resR8 (u : Fin 8) (r : Reg8) : Statement (.resR8 u r) := of_encCb rfl
theorem resHl (u : Fin 8) : Statement (.resHl u) := of_encCb rfl
theorem setR8 (u : Fin 8) (r : Reg8) : Statement (.setR8 u r) := of_encCb rfl
theorem setHl (u : Fin 8) : Statement (.setHl u) := of_encCb rfl
theorem swapR8 (r : Reg8) : Statement (.swapR8 r) := of_encCb rfl
theorem swapHl : Statement .swapHl := of_encCb rfl
theorem rlR8 (r : Reg8) : Statement (.rlR8 r) := of_encCb rfl
theorem rlHl : Statement .rlHl := of_encCb rfl
theorem rla : Statement .rla := of_enc1 rfl (by decide)
theorem rlcR8 (r : Reg8) : Statement (.rlcR8 r) := of_encCb rfl
theorem rlcHl : Statement .rlcHl := of_encCb rfl
theorem rlca : Statement .rlca := of_enc1 rfl (by decide)
theorem rrR8 (r : Reg8) : Statement (.rrR8 r) := of_encCb rfl
theorem rrHl : Statement .rrHl := of_encCb rfl
theorem rra : Statement .rra := of_enc1 rfl (by decide)
theorem rrcR8 (r : Reg8) : Statement (.rrcR8 r) := of_encCb rfl
theorem rrcHl : Statement .rrcHl := of_encCb rfl
theorem rrca : Statement .rrca := of_enc1 rfl (by decide)
theorem slaR8 (r : Reg8) : Statement (.slaR8 r) := of_encCb rfl
theorem slaHl : Statement .slaHl := of_encCb rfl
theorem sraR8 (r : Reg8) : Statement (.sraR8 r) := of_encCb rfl
theorem sraHl : Statement .sraHl := of_encCb rfl
theorem srlR8 (r : Reg8) : Statement (.srlR8 r) := of_encCb rfl
theorem srlHl : Statement .srlHl := of_encCb rfl
theorem ldR8R8 (dst : Reg8) (src : Reg8) : Statement (.ldR8R8 dst src) := by
  cases dst <;> cases src <;> exact of_enc1 rfl (by decide)
theorem ldR8N8 (dst : Reg8) (n : Byte) : Statement (.ldR8N8 dst n) := by
  cases dst <;> exact of_enc8 rfl (by decide)
theorem ldR16N16 (dst : Reg16) (n : Word) : Statement (.ldR16N16 dst n) := by
  cases dst <;> exact of_enc16 rfl (by decide)
theorem ldHlR8 (src : Reg8) : Statement (.ldHlR8 src) := by
  cases src <;> exact of_enc1 rfl (by decide)
theorem ldHlN8 (n : Byte) : Statement (.ldHlN8 n) := of_enc8 rfl (by decide)
theorem ldR8Hl (dst : Reg8) : Statement (.ldR8Hl dst) := by
  cases dst <;> exact of_enc1 rfl (by decide)
theorem ldR16A (p : Reg16) : Statement (.ldR16A p) := by
  cases p <;> exact of_enc1 rfl (by decide)
theorem ldN16A (n : Word) : Statement (.ldN16A n) := of_enc16 rfl (by decide)
theorem ldhN8A (n : Byte) : Statement (.ldhN8A n) := of_enc8 rfl (by decide)
theorem ldhCA : Statement .ldhCA := of_enc1 rfl (by decide)
theorem ldAR16 (p : Reg16) : Statement (.ldAR16 p) := by
  cases p <;> exact of_enc1 rfl (by decide)
theorem ldAN16 (n : Word) : Statement (.ldAN16 n) := of_enc16 rfl (by decide)
theorem ldhAN8 (n : Byte) : Statement (.ldhAN8 n) := of_enc8 rfl (by decide)
theorem ldhAC : Statement .ldhAC := of_enc1 rfl (by decide)
theorem ldHliA : Statement .ldHliA := of_enc1 rfl (by decide)
theorem ldHldA : Statement .ldHldA := of_enc1 rfl (by decide)
theorem ldAHli : Statement .ldAHli := of_enc1 rfl (by decide)
theorem ldAHld : Statement .ldAHld := of_enc1 rfl (by decide)
theorem callN16 (n : Word) : Statement (.callN16 n) := of_enc16 rfl (by decide)
theorem callCcN16 (cc : Cond) (n : Word) : Statement (.callCcN16 cc n) := by
  cases cc <;> exact of_enc16 rfl (by decide)
theorem jpHl : Statement .jpHl := of_enc1 rfl (by decide)
theorem jpN16 (n : Word) : Statement (.jpN16 n) := of_enc16 rfl (by decide)
theorem jpCcN16 (cc : Cond) (n : Word) : Statement (.jpCcN16 cc n) := by
  cases cc <;> exact of_enc16 rfl (by decide)
theorem jrE8 (e : Byte) : Statement (.jrE8 e) := of_enc8 rfl (by decide)
theorem jrCcE8 (cc : Cond) (e : Byte) : Statement (.jrCcE8 cc e) := by
  cases cc <;> exact of_enc8 rfl (by decide)
theorem retCc (cc : Cond) : Statement (.retCc cc) := by
  cases cc <;> exact of_enc1 rfl (by decide)
theorem ret : Statement .ret := of_enc1 rfl (by decide)
theorem reti : Statement .reti := of_enc1 rfl (by decide)
theorem rst (vec : Word) : Statement (.rst vec) := by
  refine fun h => ?_
  have key : ∀ n : Fin 65536, n.val % 8 = 0 → n.val < 64 → instrLength (BitVec.ofNat 8 (0xC7 + n.val)) = 1 := by
    intro n h8 h64
    obtain ⟨k, hk⟩ : ∃ k : Fin 8, n.val = 8 * k.val := ⟨⟨n.val / 8, by omega⟩, by simp; omega⟩
    rw [hk]; clear hk; revert k; decide
  simp only [Instr.wellFormed, isRstVector, decide_eq_true_eq] at h
  exact of_enc1 (op := 0xC7 + vec.toNat) rfl (key vec.toFin h.1 h.2) (by simp [Instr.wellFormed, isRstVector, h])
theorem addHlSp : Statement .addHlSp := of_enc1 rfl (by decide)
theorem addSpE8 (e : Byte) : Statement (.addSpE8 e) := of_enc8 rfl (by decide)
theorem decSp : Statement .decSp := of_enc1 rfl (by decide)
theorem incSp : Statement .incSp := of_enc1 rfl (by decide)
theorem ldSpN16 (n : Word) : Statement (.ldSpN16 n) := of_enc16 rfl (by decide)
theorem ldN16Sp (n : Word) : Statement (.ldN16Sp n) := of_enc16 rfl (by decide)
theorem ldHlSpE8 (e : Byte) : Statement (.ldHlSpE8 e) := of_enc8 rfl (by decide)
theorem ldSpHl : Statement .ldSpHl := of_enc1 rfl (by decide)
theorem popAf : Statement .popAf := of_enc1 rfl (by decide)
theorem popR16 (r : Reg16) : Statement (.popR16 r) := by
  cases r <;> exact of_enc1 rfl (by decide)
theorem pushAf : Statement .pushAf := of_enc1 rfl (by decide)
theorem pushR16 (r : Reg16) : Statement (.pushR16 r) := by
  cases r <;> exact of_enc1 rfl (by decide)
theorem ccf : Statement .ccf := of_enc1 rfl (by decide)
theorem cpl : Statement .cpl := of_enc1 rfl (by decide)
theorem daa : Statement .daa := of_enc1 rfl (by decide)
theorem di : Statement .di := of_enc1 rfl (by decide)
theorem ei : Statement .ei := of_enc1 rfl (by decide)
theorem halt : Statement .halt := of_enc1 rfl (by decide)
theorem nop : Statement .nop := of_enc1 rfl (by decide)
theorem scf : Statement .scf := of_enc1 rfl (by decide)
theorem stop (pad : Byte) : Statement (.stop pad) := of_enc8 rfl (by decide)
theorem illegalD3 : Statement .illegalD3 := of_enc1 rfl (by decide)
theorem illegalDB : Statement .illegalDB := of_enc1 rfl (by decide)
theorem illegalDD : Statement .illegalDD := of_enc1 rfl (by decide)
theorem illegalE3 : Statement .illegalE3 := of_enc1 rfl (by decide)
theorem illegalE4 : Statement .illegalE4 := of_enc1 rfl (by decide)
theorem illegalEB : Statement .illegalEB := of_enc1 rfl (by decide)
theorem illegalEC : Statement .illegalEC := of_enc1 rfl (by decide)
theorem illegalED : Statement .illegalED := of_enc1 rfl (by decide)
theorem illegalF4 : Statement .illegalF4 := of_enc1 rfl (by decide)
theorem illegalFC : Statement .illegalFC := of_enc1 rfl (by decide)
theorem illegalFD : Statement .illegalFD := of_enc1 rfl (by decide)

end EncodedLength

end Sys2Proof.Laws
end

