-- ==== Sys2Proof/Laws/Step.lean ====
section
/-! SUPPORT. What a step can do, said once: every claim about steps starts from `step_cases`. -/

namespace Sys2Proof.Machine

@[simp] theorem afterInstr_next (eip : Bool) (t : State) : afterInstr eip (.next t) = .next (t.landEi eip) := rfl

/-- `EI`'s delayed effect in its two cases (60_exceptions.md R300). -/
theorem State.landEi_cases (eip : Bool) (t : State) :
    (t.landEi eip = { t with ime := true, eiPending := false } ∧
      eip = true ∧ t.eiPending = true ∧ t.mode ≠ .faulted) ∨
    (t.landEi eip = t ∧ ¬ (eip = true ∧ t.eiPending = true ∧ t.mode ≠ .faulted)) := by
  by_cases h : eip = true ∧ t.eiPending = true ∧ t.mode ≠ .faulted
  · exact .inl ⟨by simp [State.landEi, h], h⟩
  · refine .inr ⟨?_, h⟩
    simp only [State.landEi, Bool.and_eq_true, decide_eq_true_eq]
    rw [if_neg (by simpa [and_assoc] using h)]

@[simp] theorem State.landEi_regs (eip : Bool) (t : State) : (t.landEi eip).regs = t.regs := by
  unfold State.landEi; split <;> rfl
@[simp] theorem State.landEi_f (eip : Bool) (t : State) : (t.landEi eip).f = t.f := by
  unfold State.landEi; split <;> rfl
@[simp] theorem State.landEi_sp (eip : Bool) (t : State) : (t.landEi eip).sp = t.sp := by
  unfold State.landEi; split <;> rfl
@[simp] theorem State.landEi_pc (eip : Bool) (t : State) : (t.landEi eip).pc = t.pc := by
  unfold State.landEi; split <;> rfl
@[simp] theorem State.landEi_mode (eip : Bool) (t : State) : (t.landEi eip).mode = t.mode := by
  unfold State.landEi; split <;> rfl
@[simp] theorem State.landEi_haltBug (eip : Bool) (t : State) : (t.landEi eip).haltBug = t.haltBug := by
  unfold State.landEi; split <;> rfl
@[simp] theorem State.landEi_bus (eip : Bool) (t : State) : (t.landEi eip).bus = t.bus := by
  unfold State.landEi; split <;> rfl
@[simp] theorem State.landEi_params (eip : Bool) (t : State) : (t.landEi eip).params = t.params := by
  unfold State.landEi; split <;> rfl
@[simp] theorem State.landEi_arrivals (eip : Bool) (t : State) : (t.landEi eip).arrivals = t.arrivals := by
  unfold State.landEi; split <;> rfl

@[simp] theorem State.landEi_false (t : State) : t.landEi false = t := rfl

/-- The interrupt test in its two cases (R286). -/
theorem State.dispatchOr_cases (s : State) (o : Before) :
    (∃ i, s.nextSource = some i ∧ s.ime = true ∧ s.dispatchOr o = .done (.next (s.takeInterrupt i))) ∨
    (¬ (s.ime = true ∧ s.pending = true) ∧ s.dispatchOr o = o) := by
  have hp := s.nextSource_isSome
  unfold State.dispatchOr
  cases hs : s.nextSource with
  | none => exact .inr ⟨by rw [hs] at hp; simp [← hp], rfl⟩
  | some i =>
    cases hi : s.ime with
    | true => exact .inl ⟨i, rfl, rfl, rfl⟩
    | false => exact .inr ⟨by simp, rfl⟩

/-- The beginning of a step in all its cases (R300). -/
theorem State.beforeInstr_cases (s : State) :
    (s.mode = .faulted ∧ s.beforeInstr = .done s.faultedStep) ∨
    (s.mode = .stopped ∧ s.beforeInstr = .done s.stoppedStep) ∨
    (s.mode = .halted ∧ s.pending = false ∧ s.beforeInstr = .done (.next s)) ∨
    (s.live ∧ ∃ i, s.nextSource = some i ∧ s.ime = true ∧
      s.beforeInstr = .done (.next (s.takeInterrupt i))) ∨
    (s.runsInstr ∧ s.beforeInstr = .run { s with mode := .running }) := by
  unfold State.runsInstr State.live
  cases hm : s.mode with
  | faulted => exact .inl ⟨rfl, by simp only [State.beforeInstr, hm]⟩
  | stopped => exact .inr (.inl ⟨rfl, by simp only [State.beforeInstr, hm]⟩)
  | halted =>
    refine .inr (.inr ?_)
    cases hp : s.pending with
    | false => exact .inl ⟨rfl, rfl, by simp [State.beforeInstr, hm, hp]⟩
    | true =>
      refine .inr ?_
      have hb : s.beforeInstr =
          { s with mode := .running }.dispatchOr (.run { s with mode := .running }) := by
        simp [State.beforeInstr, hm, hp]
      obtain ⟨i, h1, h2, h3⟩ | ⟨h1, h2⟩ :=
        { s with mode := .running }.dispatchOr_cases (.run { s with mode := .running })
      · exact .inl ⟨.inr rfl, i, h1, h2, by rw [hb, h3]; rfl⟩
      · refine .inr ⟨⟨.inr rfl, ?_, fun _ => rfl⟩, by rw [hb, h2]⟩
        have : { s with mode := Mode.running }.pending = s.pending := rfl
        simpa [this, hp] using h1
  | running =>
    refine .inr (.inr (.inr ?_))
    have hb : s.beforeInstr = s.dispatchOr (.run s) := by simp only [State.beforeInstr, hm]
    obtain ⟨i, h1, h2, h3⟩ | ⟨h1, h2⟩ := s.dispatchOr_cases (.run s)
    · exact .inl ⟨.inl rfl, i, h1, h2, by rw [hb, h3]⟩
    · refine .inr ⟨⟨.inl rfl, h1, by simp⟩, ?_⟩
      rw [hb, h2]
      cases s
      cases hm
      rfl

/-- An instruction is executed in every state in which one is to be (R300). -/
theorem State.runsInstr.beforeInstr {s : State} (h : s.runsInstr) :
    s.beforeInstr = .run { s with mode := .running } := by
  obtain ⟨hm, _⟩ | ⟨hm, _⟩ | ⟨hm, hp, _⟩ | ⟨_, i, hi, hime, _⟩ | ⟨_, hb⟩ := s.beforeInstr_cases
  · rcases h.1 with h | h <;> simp [hm] at h
  · rcases h.1 with h | h <;> simp [hm] at h
  · have := h.2.2 hm; simp [hp] at this
  · exact absurd ⟨hime, by rw [← State.nextSource_isSome, hi]; rfl⟩ h.2.1
  · exact hb

/-- A step that executes an instruction, said once: the next bytes of the state after the platform's turn decode to
one, and the step answers what it does, with `EI`'s delayed effect after it (R300). -/
theorem step_runsInstr {s : State} (h : s.arrive.runsInstr) {i : Instr} {rest : List Byte}
    (hd : decode s.arrive.nextBytes = .ok (i, rest)) :
    step s = afterInstr s.arrive.eiPending (exec i ({ s.arrive with mode := .running }.fetched rest)) := by
  have hf : { s.arrive with mode := .running }.fetch = .ok (i, { s.arrive with mode := .running }.fetched rest) :=
    State.fetch_eq hd
  simp only [step, h.beforeInstr, hf]

/-- Everything a step can do (R300, R14): nothing in the modes that nothing leaves, idle while halted, take the lowest
pending interrupt, or execute one instruction with `EI`'s delayed effect after it. -/
theorem step_cases (s : State) :
    (s.arrive.mode = .faulted ∧ step s = s.arrive.faultedStep) ∨
    (s.arrive.mode = .stopped ∧ step s = s.arrive.stoppedStep) ∨
    (s.arrive.mode = .halted ∧ s.arrive.pending = false ∧ step s = .next s.arrive) ∨
    (s.arrive.live ∧ ∃ i, s.arrive.nextSource = some i ∧ s.arrive.ime = true ∧
      step s = .next (s.arrive.takeInterrupt i)) ∨
    (s.arrive.runsInstr ∧ ∃ i rest, decode s.arrive.nextBytes = .ok (i, rest) ∧
      step s = afterInstr s.arrive.eiPending (exec i ({ s.arrive with mode := .running }.fetched rest))) := by
  obtain ⟨h, hb⟩ | ⟨h, hb⟩ | ⟨h, hp, hb⟩ | ⟨h, i, hi, hime, hb⟩ | ⟨h, hb⟩ := s.arrive.beforeInstr_cases
  · exact .inl ⟨h, by simp only [step, hb]⟩
  · exact .inr (.inl ⟨h, by simp only [step, hb]⟩)
  · exact .inr (.inr (.inl ⟨h, hp, by simp only [step, hb]⟩))
  · exact .inr (.inr (.inr (.inl ⟨h, i, hi, hime, by simp only [step, hb]⟩)))
  · obtain ⟨i, rest, hd, _⟩ := Laws.fetch_never_refuses s.arrive
    exact .inr (.inr (.inr (.inr ⟨h, i, rest, hd, step_runsInstr h hd⟩)))

/-- What a step answers after an instruction, from what the instruction answers (R300). -/
theorem afterInstr_eq_next {eip : Bool} {r : Result} {t : State} :
    afterInstr eip r = .next t ↔ ∃ u, r = .next u ∧ t = u.landEi eip := by
  cases r <;> simp [afterInstr, eq_comm]

/-! ### Runs -/

/-- One more step at the end of a run: for the runs of `core` as of any machine. -/
theorem run_succ_last (M : Host.Core) (k : Nat) (s : M.State) :
    M.run (k + 1) s =
      match M.run k s with
      | .next t => M.step t
      | .fault r => .fault r
      | .refused r => .refused r := by
  induction k generalizing s with
  | zero =>
    simp only [Host.Core.run]
    cases M.step s <;> rfl
  | succ k ih =>
    rw [Host.Core.run]
    conv => rhs; rw [Host.Core.run]
    cases M.step s with
    | next t => exact ih t
    | fault r => rfl
    | refused r => rfl

end Sys2Proof.Machine
end

