-- ==== Sys2Proof/Machine/Timing.lean ====
section
/-! DEFINITION. The cycle counts of 70_reset_and_hazards.md R331, one cycle being one "CPU cycle at 1MHz" (R330).
They are a property of the instruction, not of the state (10_state.md R38): no meaning reads them (log entry
21). -/

namespace Sys2Proof.Machine

/-- A "Cycles:" line (R330): one figure, "a taken / b untaken", or "-". -/
inductive Cycles where
  | always (n : Nat)
  | branch (taken untaken : Nat)
  | notGiven
  deriving DecidableEq, Repr

/-- The cycles of an instruction (R331). -/
def cycles : Instr → Cycles
  | .adcAR8 _ | .addAR8 _ | .andAR8 _ | .cpAR8 _ | .orAR8 _ | .sbcAR8 _ | .subAR8 _ | .xorAR8 _ => .always 1
  | .adcAHl | .addAHl | .andAHl | .cpAHl | .orAHl | .sbcAHl | .subAHl | .xorAHl => .always 2
  | .adcAN8 _ | .addAN8 _ | .andAN8 _ | .cpAN8 _ | .orAN8 _ | .sbcAN8 _ | .subAN8 _ | .xorAN8 _ => .always 2
  | .decR8 _ | .incR8 _ => .always 1
  | .decHlInd | .incHlInd => .always 3
  | .addHlR16 _ | .decR16 _ | .incR16 _ => .always 2
  | .bitR8 _ _ | .resR8 _ _ | .setR8 _ _ | .swapR8 _ => .always 2
  | .bitHl _ => .always 3
  | .resHl _ | .setHl _ | .swapHl => .always 4
  | .rlR8 _ | .rlcR8 _ | .rrR8 _ | .rrcR8 _ | .slaR8 _ | .sraR8 _ | .srlR8 _ => .always 2
  | .rlHl | .rlcHl | .rrHl | .rrcHl | .slaHl | .sraHl | .srlHl => .always 4
  | .rla | .rlca | .rra | .rrca => .always 1
  | .ldR8R8 _ _ => .always 1
  | .ldR8N8 _ _ => .always 2
  | .ldR16N16 _ _ => .always 3
  | .ldHlR8 _ => .always 2
  | .ldHlN8 _ => .always 3
  | .ldR8Hl _ | .ldR16A _ => .always 2
  | .ldN16A _ => .always 4
  | .ldhN8A _ => .always 3
  | .ldhCA | .ldAR16 _ => .always 2
  | .ldAN16 _ => .always 4
  | .ldhAN8 _ => .always 3
  | .ldhAC | .ldHliA | .ldHldA | .ldAHli | .ldAHld => .always 2
  | .callN16 _ => .always 6
  | .callCcN16 _ _ => .branch 6 3
  | .jpHl => .always 1
  | .jpN16 _ => .always 4
  | .jpCcN16 _ _ => .branch 4 3
  | .jrE8 _ => .always 3
  | .jrCcE8 _ _ => .branch 3 2
  | .retCc _ => .branch 5 2
  | .ret | .reti | .rst _ => .always 4
  | .addHlSp => .always 2
  | .addSpE8 _ => .always 4
  | .decSp | .incSp => .always 2
  | .ldSpN16 _ => .always 3
  | .ldN16Sp _ => .always 5
  | .ldHlSpE8 _ => .always 3
  | .ldSpHl => .always 2
  | .popAf | .popR16 _ => .always 3
  | .pushAf | .pushR16 _ => .always 4
  | .ccf | .cpl | .daa | .di | .ei | .nop | .scf => .always 1
  | .halt | .stop _ => .notGiven
  | .illegalD3 | .illegalDB | .illegalDD | .illegalE3 | .illegalE4 | .illegalEB | .illegalEC | .illegalED
  | .illegalF4 | .illegalFC | .illegalFD => .notGiven

/-- The cycles of an interrupt dispatch (R288, R330; general knowledge of the spec). -/
def dispatchCycles : Nat := 5

/-- Whether a conditional transfer is taken with these flags (R330). -/
def taken (f : Flags) : Instr → Bool
  | .callCcN16 cc _ | .jpCcN16 cc _ | .jrCcE8 cc _ | .retCc cc => f.holds cc
  | _ => true

/-- The cycles that an instruction takes with these flags; none where the sources give no figure. -/
def cyclesWith (f : Flags) (i : Instr) : Option Nat :=
  match cycles i with
  | .always n => some n
  | .branch t u => some (if taken f i then t else u)
  | .notGiven => none

end Sys2Proof.Machine
end

