-- ==== Sys2Proof/Tests/Slice0.lean ====
section
/-! SUPPORT. The model's own tests: ill-formed terms are refused, words written out from the spec's encodings decode,
single steps answer what the examples of the spec's rules say, and every statement with hypotheses has a state that
meets them. -/

namespace Sys2Proof.Tests

open Sys2Proof.Machine

/-! ## WellFormed refuses ill-formed terms -/

theorem test_rst_unaligned_refused : (Instr.rst 0x0001#16).wellFormed = false := by decide
theorem test_rst_too_high_refused : (Instr.rst 0x0040#16).wellFormed = false := by decide
theorem test_rst_last_accepted : (Instr.rst 0x0038#16).wellFormed = true := by decide
theorem test_store_through_hl_refused : (Instr.ldR16A .hl).wellFormed = false := by decide
theorem test_load_through_hl_refused : (Instr.ldAR16 .hl).wellFormed = false := by decide

/-! ## The decoder

Every constructor once, its word written out from 30_encoding.md R93 and R94: register, condition, bit and vector
fields in binary. -/

/-- The bytes are exactly the instruction. -/
def decodesTo (bytes : List Byte) (i : Instr) : Bool :=
  match decode bytes with
  | .ok (j, []) => decide (j = i)
  | _ => false

theorem test_decode_alu8_adc_add_and :
    decodesTo [0b10001011#8] (.adcAR8 .e) ∧
    decodesTo [0x8E#8] (.adcAHl) ∧
    decodesTo [0xCE#8, 0xFF#8] (.adcAN8 0xFF#8) ∧
    decodesTo [0b10000010#8] (.addAR8 .d) ∧
    decodesTo [0x86#8] (.addAHl) ∧
    decodesTo [0xC6#8, 0x01#8] (.addAN8 0x01#8) ∧
    decodesTo [0b10100101#8] (.andAR8 .l) ∧
    decodesTo [0xA6#8] (.andAHl) ∧
    decodesTo [0xE6#8, 0x38#8] (.andAN8 0x38#8) := by decide

theorem test_decode_alu8_cp_dec_inc_or :
    decodesTo [0b10111000#8] (.cpAR8 .b) ∧
    decodesTo [0xBE#8] (.cpAHl) ∧
    decodesTo [0xFE#8, 0x90#8] (.cpAN8 0x90#8) ∧
    decodesTo [0b00111101#8] (.decR8 .a) ∧
    decodesTo [0x35#8] (.decHlInd) ∧
    decodesTo [0b00001100#8] (.incR8 .c) ∧
    decodesTo [0x34#8] (.incHlInd) ∧
    decodesTo [0b10110111#8] (.orAR8 .a) ∧
    decodesTo [0xB6#8] (.orAHl) ∧
    decodesTo [0xF6#8, 0x03#8] (.orAN8 0x03#8) := by decide

theorem test_decode_alu8_sbc_sub_xor :
    decodesTo [0b10011100#8] (.sbcAR8 .h) ∧
    decodesTo [0x9E#8] (.sbcAHl) ∧
    decodesTo [0xDE#8, 0x3A#8] (.sbcAN8 0x3A#8) ∧
    decodesTo [0b10010011#8] (.subAR8 .e) ∧
    decodesTo [0x96#8] (.subAHl) ∧
    decodesTo [0xD6#8, 0x0F#8] (.subAN8 0x0F#8) ∧
    decodesTo [0b10101111#8] (.xorAR8 .a) ∧
    decodesTo [0xAE#8] (.xorAHl) ∧
    decodesTo [0xEE#8, 0xFF#8] (.xorAN8 0xFF#8) := by decide

theorem test_decode_alu16 :
    decodesTo [0b00001001#8] (.addHlR16 .bc) ∧
    decodesTo [0b00101011#8] (.decR16 .hl) ∧
    decodesTo [0b00010011#8] (.incR16 .de) := by decide

theorem test_decode_bitops :
    decodesTo [0xCB#8, 0b01100101#8] (.bitR8 4 .l) ∧
    decodesTo [0xCB#8, 0b01011110#8] (.bitHl 3) ∧
    decodesTo [0xCB#8, 0b10011011#8] (.resR8 3 .e) ∧
    decodesTo [0xCB#8, 0b10011110#8] (.resHl 3) ∧
    decodesTo [0xCB#8, 0b11111111#8] (.setR8 7 .a) ∧
    decodesTo [0xCB#8, 0b11111110#8] (.setHl 7) ∧
    decodesTo [0xCB#8, 0b00110111#8] (.swapR8 .a) ∧
    decodesTo [0xCB#8, 0x36#8] (.swapHl) := by decide

theorem test_decode_shifts :
    decodesTo [0xCB#8, 0b00010000#8] (.rlR8 .b) ∧
    decodesTo [0xCB#8, 0x16#8] (.rlHl) ∧
    decodesTo [0x17#8] (.rla) ∧
    decodesTo [0xCB#8, 0b00000001#8] (.rlcR8 .c) ∧
    decodesTo [0xCB#8, 0x06#8] (.rlcHl) ∧
    decodesTo [0x07#8] (.rlca) ∧
    decodesTo [0xCB#8, 0b00011010#8] (.rrR8 .d) ∧
    decodesTo [0xCB#8, 0x1E#8] (.rrHl) ∧
    decodesTo [0x1F#8] (.rra) ∧
    decodesTo [0xCB#8, 0b00001011#8] (.rrcR8 .e) ∧
    decodesTo [0xCB#8, 0x0E#8] (.rrcHl) ∧
    decodesTo [0x0F#8] (.rrca) ∧
    decodesTo [0xCB#8, 0b00100100#8] (.slaR8 .h) ∧
    decodesTo [0xCB#8, 0x26#8] (.slaHl) ∧
    decodesTo [0xCB#8, 0b00101101#8] (.sraR8 .l) ∧
    decodesTo [0xCB#8, 0x2E#8] (.sraHl) ∧
    decodesTo [0xCB#8, 0b00111111#8] (.srlR8 .a) ∧
    decodesTo [0xCB#8, 0x3E#8] (.srlHl) := by decide

theorem test_decode_loads :
    decodesTo [0b01100101#8] (.ldR8R8 .h .l) ∧
    decodesTo [0b00000110#8, 0x7F#8] (.ldR8N8 .b 0x7F#8) ∧
    decodesTo [0b00100001#8, 0x34#8, 0x12#8] (.ldR16N16 .hl 0x1234#16) ∧
    decodesTo [0b01110000#8] (.ldHlR8 .b) ∧
    decodesTo [0x36#8, 0x42#8] (.ldHlN8 0x42#8) ∧
    decodesTo [0b01000110#8] (.ldR8Hl .b) ∧
    decodesTo [0b00010010#8] (.ldR16A .de) ∧
    decodesTo [0xEA#8, 0x00#8, 0xC0#8] (.ldN16A 0xC000#16) ∧
    decodesTo [0xE0#8, 0x80#8] (.ldhN8A 0x80#8) ∧
    decodesTo [0xE2#8] (.ldhCA) ∧
    decodesTo [0b00001010#8] (.ldAR16 .bc) ∧
    decodesTo [0xFA#8, 0x34#8, 0x12#8] (.ldAN16 0x1234#16) ∧
    decodesTo [0xF0#8, 0x44#8] (.ldhAN8 0x44#8) ∧
    decodesTo [0xF2#8] (.ldhAC) ∧
    decodesTo [0x22#8] (.ldHliA) ∧
    decodesTo [0x32#8] (.ldHldA) ∧
    decodesTo [0x2A#8] (.ldAHli) ∧
    decodesTo [0x3A#8] (.ldAHld) := by decide

theorem test_decode_jumps :
    decodesTo [0xCD#8, 0x34#8, 0x12#8] (.callN16 0x1234#16) ∧
    decodesTo [0b11011100#8, 0x00#8, 0x40#8] (.callCcN16 .c 0x4000#16) ∧
    decodesTo [0xE9#8] (.jpHl) ∧
    decodesTo [0xC3#8, 0x00#8, 0x80#8] (.jpN16 0x8000#16) ∧
    decodesTo [0b11010010#8, 0xCD#8, 0xAB#8] (.jpCcN16 .nc 0xABCD#16) ∧
    decodesTo [0x18#8, 0xFE#8] (.jrE8 0xFE#8) ∧
    decodesTo [0b00100000#8, 0xFB#8] (.jrCcE8 .nz 0xFB#8) ∧
    decodesTo [0b11001000#8] (.retCc .z) ∧
    decodesTo [0xC9#8] (.ret) ∧
    decodesTo [0xD9#8] (.reti) ∧
    decodesTo [0b11101111#8] (.rst 0x0028#16) := by decide

theorem test_decode_stack :
    decodesTo [0x39#8] (.addHlSp) ∧
    decodesTo [0xE8#8, 0x80#8] (.addSpE8 0x80#8) ∧
    decodesTo [0x3B#8] (.decSp) ∧
    decodesTo [0x33#8] (.incSp) ∧
    decodesTo [0x31#8, 0xFE#8, 0xFF#8] (.ldSpN16 0xFFFE#16) ∧
    decodesTo [0x08#8, 0x00#8, 0xC1#8] (.ldN16Sp 0xC100#16) ∧
    decodesTo [0xF8#8, 0x02#8] (.ldHlSpE8 0x02#8) ∧
    decodesTo [0xF9#8] (.ldSpHl) ∧
    decodesTo [0xF1#8] (.popAf) ∧
    decodesTo [0b11000001#8] (.popR16 .bc) ∧
    decodesTo [0xF5#8] (.pushAf) ∧
    decodesTo [0b11010101#8] (.pushR16 .de) := by decide

theorem test_decode_misc :
    decodesTo [0x3F#8] (.ccf) ∧
    decodesTo [0x2F#8] (.cpl) ∧
    decodesTo [0x27#8] (.daa) ∧
    decodesTo [0xF3#8] (.di) ∧
    decodesTo [0xFB#8] (.ei) ∧
    decodesTo [0x76#8] (.halt) ∧
    decodesTo [0x00#8] (.nop) ∧
    decodesTo [0x37#8] (.scf) ∧
    decodesTo [0x10#8, 0x00#8] (.stop 0x00#8) := by decide

theorem test_decode_illegal :
    decodesTo [0xD3#8] (.illegalD3) ∧
    decodesTo [0xDB#8] (.illegalDB) ∧
    decodesTo [0xDD#8] (.illegalDD) ∧
    decodesTo [0xE3#8] (.illegalE3) ∧
    decodesTo [0xE4#8] (.illegalE4) ∧
    decodesTo [0xEB#8] (.illegalEB) ∧
    decodesTo [0xEC#8] (.illegalEC) ∧
    decodesTo [0xED#8] (.illegalED) ∧
    decodesTo [0xF4#8] (.illegalF4) ∧
    decodesTo [0xFC#8] (.illegalFC) ∧
    decodesTo [0xFD#8] (.illegalFD) := by decide

/-- The same instruction, encoded, is the same bytes: `BIT 4,L` (R170). -/
theorem test_encode_bit : encode (.bitR8 4 .l) = [0xCB#8, 0x65#8] := by decide

/-- Which refusal the decoder gives. -/
def refusal (bytes : List Byte) : Option DecodeError :=
  match decode bytes with
  | .ok _ => none
  | .error e => some e

theorem test_no_bytes_refused : refusal [] = some .noBytes := by decide
theorem test_lone_prefix_refused : refusal [0xCB#8] = some .truncatedPrefix := by decide
theorem test_short_n16_refused : refusal [0xC3#8, 0x00#8] = some .truncatedImmediate := by decide
theorem test_table_word_bits : decodeTableWord 24 0x123421 = some (.ldR16N16 .hl 0x1234#16) := by decide
theorem test_table_word_prefixed : decodeTableWord 16 0xCB65 = some (.bitR8 4 .l) := by decide
theorem test_table_word_short : decodeTableWord 8 0xCD = some (.callN16 0x0000#16) := by decide

/-! ## Single steps

Start and end states from the examples of the rules named. `F` is written as the low byte of `AF` (R23). -/

/-- A state with the four pairs, `SP` and `PC` given, the bytes of an instruction at `PC` and the cells in memory. -/
def at_ (af bc de hl sp pc : Word) (code : List Byte) (cells : List (Word × Byte) := []) : State :=
  let s : State := { ((State.reset.setR16 .bc bc).setR16 .de de).setR16 .hl hl with sp := sp, pc := pc }
  let s := cells.foldl (fun s c => s.write c.1 c.2) ((s.setAf af).loadBytes pc code)
  s

/-- `AF`, `BC`, `DE`, `HL`, `SP` and `PC` after one step. -/
def pairsAfter (s : State) : Option (List Word) :=
  match step s with
  | .next t => some [t.af, t.r16 .bc, t.r16 .de, t.hl, t.sp, t.pc]
  | _ => none

/-- The byte at an address after one step. -/
def byteAfter (s : State) (a : Word) : Option Byte :=
  match step s with
  | .next t => some (t.read a)
  | _ => none

/-- `IME`, `ei_pending`, `halt_bug` and the mode after one step. -/
def controlAfter (s : State) : Option (Bool × Bool × Bool × Mode) :=
  match step s with
  | .next t => some (t.ime, t.eiPending, t.haltBug, t.mode)
  | _ => none

/-- R122, example. -/
theorem test_adc_r8 : pairsAfter (at_ 0x12E0#16 0x0000#16 0x0034#16 0x0000#16 0x0000#16 0x0100#16 [0x8B#8]) =
    some [0x4600#16, 0x0000#16, 0x0034#16, 0x0000#16, 0x0000#16, 0x0101#16] := by decide

/-- R123, example. -/
theorem test_adc_hl : pairsAfter (at_ 0xF010#16 0x0000#16 0x0000#16 0xC000#16 0x0000#16 0x0100#16 [0x8E#8] [(0xC000#16, 0x0F#8)]) =
    some [0x00B0#16, 0x0000#16, 0x0000#16, 0xC000#16, 0x0000#16, 0x0101#16] := by decide

/-- R127, example. -/
theorem test_add_n8 : pairsAfter (at_ 0x3C00#16 0x0000#16 0x0000#16 0x0000#16 0x0000#16 0x0100#16 [0xC6#8, 0xFF#8]) =
    some [0x3B30#16, 0x0000#16, 0x0000#16, 0x0000#16, 0x0000#16, 0x0102#16] := by decide

/-- R128, example. -/
theorem test_and_r8 : pairsAfter (at_ 0xF000#16 0x0F00#16 0x0000#16 0x0000#16 0x0000#16 0x0100#16 [0xA0#8]) =
    some [0x00A0#16, 0x0F00#16, 0x0000#16, 0x0000#16, 0x0000#16, 0x0101#16] := by decide

/-- R138, example. -/
theorem test_or_a : pairsAfter (at_ 0x0070#16 0x0000#16 0x0000#16 0x0000#16 0x0000#16 0x0100#16 [0xB7#8]) =
    some [0x0080#16, 0x0000#16, 0x0000#16, 0x0000#16, 0x0000#16, 0x0101#16] := by decide

/-- R148, example. -/
theorem test_xor_hl : pairsAfter (at_ 0xFF00#16 0x0000#16 0x0000#16 0xC000#16 0x0000#16 0x0100#16 [0xAE#8] [(0xC000#16, 0x8A#8)]) =
    some [0x7500#16, 0x0000#16, 0x0000#16, 0xC000#16, 0x0000#16, 0x0101#16] := by decide

/-- R131, example. -/
theorem test_cp_r8 : pairsAfter (at_ 0x3C00#16 0x4000#16 0x0000#16 0x0000#16 0x0000#16 0x0100#16 [0xB8#8]) =
    some [0x3C50#16, 0x4000#16, 0x0000#16, 0x0000#16, 0x0000#16, 0x0101#16] := by decide

/-- R141, corner case: the subtrahend plus carry is 256. -/
theorem test_sbc_borrow_256 : pairsAfter (at_ 0x0010#16 0xFF00#16 0x0000#16 0x0000#16 0x0000#16 0x0100#16 [0x98#8]) =
    some [0x00F0#16, 0xFF00#16, 0x0000#16, 0x0000#16, 0x0000#16, 0x0101#16] := by decide

/-- R146, example. -/
theorem test_sub_n8 : pairsAfter (at_ 0x3E00#16 0x0000#16 0x0000#16 0x0000#16 0x0000#16 0x0100#16 [0xD6#8, 0x0F#8]) =
    some [0x2F60#16, 0x0000#16, 0x0000#16, 0x0000#16, 0x0000#16, 0x0102#16] := by decide

/-- R134, example. -/
theorem test_dec_r8 : pairsAfter (at_ 0x0000#16 0x0000#16 0x0000#16 0x0000#16 0x0000#16 0x0100#16 [0x05#8]) =
    some [0x0060#16, 0xFF00#16, 0x0000#16, 0x0000#16, 0x0000#16, 0x0101#16] := by decide

/-- R136, example. -/
theorem test_inc_r8 : pairsAfter (at_ 0x0010#16 0xFF00#16 0x0000#16 0x0000#16 0x0000#16 0x0100#16 [0x04#8]) =
    some [0x00B0#16, 0x0000#16, 0x0000#16, 0x0000#16, 0x0000#16, 0x0101#16] := by decide

/-- R137, example. -/
theorem test_inc_mem :
    byteAfter (at_ 0x0000#16 0x0000#16 0x0000#16 0xFFFF#16 0x0000#16 0x0100#16 [0x34#8] [(0xFFFF#16, 0xFF#8)]) 0xFFFF#16 = some 0x00#8 := by decide

/-- R160, example. -/
theorem test_add_hl_bc : pairsAfter (at_ 0x0080#16 0x0605#16 0x0000#16 0x8A23#16 0x0000#16 0x0100#16 [0x09#8]) =
    some [0x00A0#16, 0x0605#16, 0x0000#16, 0x9028#16, 0x0000#16, 0x0101#16] := by decide

/-- R161, example. -/
theorem test_dec_bc : pairsAfter (at_ 0x00F0#16 0x0000#16 0x0000#16 0x0000#16 0x0000#16 0x0100#16 [0x0B#8]) =
    some [0x00F0#16, 0xFFFF#16, 0x0000#16, 0x0000#16, 0x0000#16, 0x0101#16] := by decide

/-- R162, example. -/
theorem test_inc_de : pairsAfter (at_ 0x00F0#16 0x0000#16 0x00FF#16 0x0000#16 0x0000#16 0x0100#16 [0x13#8]) =
    some [0x00F0#16, 0x0000#16, 0x0100#16, 0x0000#16, 0x0000#16, 0x0101#16] := by decide

/-- R170, example. -/
theorem test_bit_r8 : pairsAfter (at_ 0x0010#16 0x0000#16 0x0000#16 0x00EF#16 0x0000#16 0x0100#16 [0xCB#8, 0x65#8]) =
    some [0x00B0#16, 0x0000#16, 0x0000#16, 0x00EF#16, 0x0000#16, 0x0102#16] := by decide

/-- R173, example. -/
theorem test_res_mem :
    byteAfter (at_ 0x0000#16 0x0000#16 0x0000#16 0xC000#16 0x0000#16 0x0100#16 [0xCB#8, 0x9E#8] [(0xC000#16, 0xFF#8)]) 0xC000#16 = some 0xF7#8 := by decide

/-- R174, example. -/
theorem test_set_r8 : pairsAfter (at_ 0x0080#16 0x0000#16 0x0000#16 0x0000#16 0x0000#16 0x0100#16 [0xCB#8, 0xFF#8]) =
    some [0x8080#16, 0x0000#16, 0x0000#16, 0x0000#16, 0x0000#16, 0x0102#16] := by decide

/-- R176, example. -/
theorem test_swap_r8 : pairsAfter (at_ 0xF1F0#16 0x0000#16 0x0000#16 0x0000#16 0x0000#16 0x0100#16 [0xCB#8, 0x37#8]) =
    some [0x1F00#16, 0x0000#16, 0x0000#16, 0x0000#16, 0x0000#16, 0x0102#16] := by decide

/-- R181, example. -/
theorem test_rl_r8 : pairsAfter (at_ 0x0010#16 0x9500#16 0x0000#16 0x0000#16 0x0000#16 0x0100#16 [0xCB#8, 0x10#8]) =
    some [0x0010#16, 0x2B00#16, 0x0000#16, 0x0000#16, 0x0000#16, 0x0102#16] := by decide

/-- R183, corner case. -/
theorem test_rla_clears_z : pairsAfter (at_ 0x8000#16 0x0000#16 0x0000#16 0x0000#16 0x0000#16 0x0100#16 [0x17#8]) =
    some [0x0010#16, 0x0000#16, 0x0000#16, 0x0000#16, 0x0000#16, 0x0101#16] := by decide

/-- R188, example. -/
theorem test_rr_mem :
    byteAfter (at_ 0x0010#16 0x0000#16 0x0000#16 0xC000#16 0x0000#16 0x0100#16 [0xCB#8, 0x1E#8] [(0xC000#16, 0x11#8)]) 0xC000#16 = some 0x88#8 := by decide

/-- R192, example. -/
theorem test_rrca : pairsAfter (at_ 0x80E0#16 0x0000#16 0x0000#16 0x0000#16 0x0000#16 0x0100#16 [0x0F#8]) =
    some [0x4000#16, 0x0000#16, 0x0000#16, 0x0000#16, 0x0000#16, 0x0101#16] := by decide

/-- R195, example. -/
theorem test_sra_r8 : pairsAfter (at_ 0x00F0#16 0x8A00#16 0x0000#16 0x0000#16 0x0000#16 0x0100#16 [0xCB#8, 0x28#8]) =
    some [0x0000#16, 0xC500#16, 0x0000#16, 0x0000#16, 0x0000#16, 0x0102#16] := by decide

/-- R197, example. -/
theorem test_srl_r8 : pairsAfter (at_ 0x00F0#16 0x8A00#16 0x0000#16 0x0000#16 0x0000#16 0x0100#16 [0xCB#8, 0x38#8]) =
    some [0x0000#16, 0x4500#16, 0x0000#16, 0x0000#16, 0x0000#16, 0x0102#16] := by decide

/-- R200, example. -/
theorem test_ld_h_l : pairsAfter (at_ 0x0000#16 0x0000#16 0x0000#16 0x12AB#16 0x0000#16 0x0100#16 [0x65#8]) =
    some [0x0000#16, 0x0000#16, 0x0000#16, 0xABAB#16, 0x0000#16, 0x0101#16] := by decide

/-- R205, corner case: the address is the old HL. -/
theorem test_ld_l_hl : pairsAfter (at_ 0x0000#16 0x0000#16 0x0000#16 0xC000#16 0x0000#16 0x0100#16 [0x6E#8] [(0xC000#16, 0x12#8)]) =
    some [0x0000#16, 0x0000#16, 0x0000#16, 0xC012#16, 0x0000#16, 0x0101#16] := by decide

/-- R208, example. -/
theorem test_ldh_store :
    byteAfter (at_ 0x7B00#16 0x0000#16 0x0000#16 0x0000#16 0x0000#16 0x0100#16 [0xE0#8, 0x80#8]) 0xFF80#16 = some 0x7B#8 := by decide

/-- R213, example. -/
theorem test_ldh_load_c : pairsAfter (at_ 0x0000#16 0x0000#16 0x0000#16 0x0000#16 0x0000#16 0x0100#16 [0xF2#8] [(0xFF00#16, 0xCF#8)]) =
    some [0xCF00#16, 0x0000#16, 0x0000#16, 0x0000#16, 0x0000#16, 0x0101#16] := by decide

/-- R216, example. -/
theorem test_ld_a_hli : pairsAfter (at_ 0x0000#16 0x0000#16 0x0000#16 0x01FF#16 0x0000#16 0x0100#16 [0x2A#8] [(0x01FF#16, 0x56#8)]) =
    some [0x5600#16, 0x0000#16, 0x0000#16, 0x0200#16, 0x0000#16, 0x0101#16] := by decide

/-- R215, corner case. -/
theorem test_ld_hld_a_wraps : pairsAfter (at_ 0x0500#16 0x0000#16 0x0000#16 0x0000#16 0x0000#16 0x0100#16 [0x32#8]) =
    some [0x0500#16, 0x0000#16, 0x0000#16, 0xFFFF#16, 0x0000#16, 0x0101#16] := by decide

/-- R220, example. -/
theorem test_call : pairsAfter (at_ 0x0000#16 0x0000#16 0x0000#16 0x0000#16 0xFFFE#16 0x8000#16 [0xCD#8, 0x34#8, 0x12#8]) =
    some [0x0000#16, 0x0000#16, 0x0000#16, 0x0000#16, 0xFFFC#16, 0x1234#16] := by decide

/-- R220, example. -/
theorem test_call_pushes :
    byteAfter (at_ 0x0000#16 0x0000#16 0x0000#16 0x0000#16 0xFFFE#16 0x8000#16 [0xCD#8, 0x34#8, 0x12#8]) 0xFFFD#16 = some 0x80#8 ∧
    byteAfter (at_ 0x0000#16 0x0000#16 0x0000#16 0x0000#16 0xFFFE#16 0x8000#16 [0xCD#8, 0x34#8, 0x12#8]) 0xFFFC#16 = some 0x03#8 := by decide

/-- R223, corner case. -/
theorem test_jp_straddles_top : pairsAfter (at_ 0x0000#16 0x0000#16 0x0000#16 0x0000#16 0x0000#16 0xFFFD#16 [0xC3#8, 0x50#8, 0x01#8]) =
    some [0x0000#16, 0x0000#16, 0x0000#16, 0x0000#16, 0x0000#16, 0x0150#16] := by decide

/-- R225, example. -/
theorem test_jr_back_to_itself : pairsAfter (at_ 0x0000#16 0x0000#16 0x0000#16 0x0000#16 0x0000#16 0x1000#16 [0x18#8, 0xFE#8]) =
    some [0x0000#16, 0x0000#16, 0x0000#16, 0x0000#16, 0x0000#16, 0x1000#16] := by decide

/-- R226, example. -/
theorem test_jr_nz_taken : pairsAfter (at_ 0x0000#16 0x0000#16 0x0000#16 0x0000#16 0x0000#16 0x0205#16 [0x20#8, 0xFB#8]) =
    some [0x0000#16, 0x0000#16, 0x0000#16, 0x0000#16, 0x0000#16, 0x0202#16] := by decide

/-- R227, example. -/
theorem test_ret_z_untaken : pairsAfter (at_ 0x0000#16 0x0000#16 0x0000#16 0x0000#16 0xFFFC#16 0x1234#16 [0xC8#8] [(0xFFFC#16, 0x03#8), (0xFFFD#16, 0x80#8)]) =
    some [0x0000#16, 0x0000#16, 0x0000#16, 0x0000#16, 0xFFFC#16, 0x1235#16] := by decide

/-- R228, example. -/
theorem test_ret : pairsAfter (at_ 0x0000#16 0x0000#16 0x0000#16 0x0000#16 0xFFFC#16 0x0100#16 [0xC9#8] [(0xFFFC#16, 0x03#8), (0xFFFD#16, 0x80#8)]) =
    some [0x0000#16, 0x0000#16, 0x0000#16, 0x0000#16, 0xFFFE#16, 0x8003#16] := by decide

/-- R230, example. -/
theorem test_rst_sp_wraps :
    byteAfter (at_ 0x0000#16 0x0000#16 0x0000#16 0x0000#16 0x0000#16 0x4000#16 [0xEF#8]) 0xFFFF#16 = some 0x40#8 ∧
    byteAfter (at_ 0x0000#16 0x0000#16 0x0000#16 0x0000#16 0x0000#16 0x4000#16 [0xEF#8]) 0xFFFE#16 = some 0x01#8 := by decide

/-- R243, example. -/
theorem test_add_sp_negative : pairsAfter (at_ 0x0000#16 0x0000#16 0x0000#16 0x0000#16 0xD080#16 0x0100#16 [0xE8#8, 0x80#8]) =
    some [0x0010#16, 0x0000#16, 0x0000#16, 0x0000#16, 0xD000#16, 0x0102#16] := by decide

/-- R248, example. -/
theorem test_ld_hl_sp : pairsAfter (at_ 0x0000#16 0x0000#16 0x0000#16 0x0000#16 0xD00F#16 0x0100#16 [0xF8#8, 0xF1#8]) =
    some [0x0030#16, 0x0000#16, 0x0000#16, 0xD000#16, 0xD00F#16, 0x0102#16] := by decide

/-- R247, example. -/
theorem test_ld_n16_sp_wraps :
    byteAfter (at_ 0x0000#16 0x0000#16 0x0000#16 0x0000#16 0x1234#16 0x0100#16 [0x08#8, 0xFF#8, 0xFF#8]) 0xFFFF#16 = some 0x34#8 ∧
    byteAfter (at_ 0x0000#16 0x0000#16 0x0000#16 0x0000#16 0x1234#16 0x0100#16 [0x08#8, 0xFF#8, 0xFF#8]) 0x0000#16 = some 0x12#8 := by decide

/-- R250, example: the low four bits are discarded. -/
theorem test_pop_af : pairsAfter (at_ 0x00F0#16 0x0000#16 0x0000#16 0x0000#16 0xFFFC#16 0x0100#16 [0xF1#8] [(0xFFFC#16, 0x0F#8), (0xFFFD#16, 0x00#8)]) =
    some [0x0000#16, 0x0000#16, 0x0000#16, 0x0000#16, 0xFFFE#16, 0x0101#16] := by decide

/-- R253, example. -/
theorem test_push_de_wraps :
    byteAfter (at_ 0x0000#16 0x0000#16 0xABCD#16 0x0000#16 0x0001#16 0x0100#16 [0xD5#8]) 0x0000#16 = some 0xAB#8 ∧
    byteAfter (at_ 0x0000#16 0x0000#16 0xABCD#16 0x0000#16 0x0001#16 0x0100#16 [0xD5#8]) 0xFFFF#16 = some 0xCD#8 := by decide

/-- R260, example. -/
theorem test_ccf : pairsAfter (at_ 0x00E0#16 0x0000#16 0x0000#16 0x0000#16 0x0000#16 0x0100#16 [0x3F#8]) =
    some [0x0090#16, 0x0000#16, 0x0000#16, 0x0000#16, 0x0000#16, 0x0101#16] := by decide

/-- R261, example. -/
theorem test_cpl : pairsAfter (at_ 0x0090#16 0x0000#16 0x0000#16 0x0000#16 0x0000#16 0x0100#16 [0x2F#8]) =
    some [0xFFF0#16, 0x0000#16, 0x0000#16, 0x0000#16, 0x0000#16, 0x0101#16] := by decide

/-- R262, example. -/
theorem test_daa_add : pairsAfter (at_ 0x9A00#16 0x0000#16 0x0000#16 0x0000#16 0x0000#16 0x0100#16 [0x27#8]) =
    some [0x0090#16, 0x0000#16, 0x0000#16, 0x0000#16, 0x0000#16, 0x0101#16] := by decide

/-- R262, example. -/
theorem test_daa_sub : pairsAfter (at_ 0xFF70#16 0x0000#16 0x0000#16 0x0000#16 0x0000#16 0x0100#16 [0x27#8]) =
    some [0x9950#16, 0x0000#16, 0x0000#16, 0x0000#16, 0x0000#16, 0x0101#16] := by decide

/-- R267, example. -/
theorem test_scf : pairsAfter (at_ 0x00F0#16 0x0000#16 0x0000#16 0x0000#16 0x0000#16 0x0100#16 [0x37#8]) =
    some [0x0090#16, 0x0000#16, 0x0000#16, 0x0000#16, 0x0000#16, 0x0101#16] := by decide

/-- R263: `DI` with `IME` set. -/
theorem test_di : controlAfter { at_ 0 0 0 0 0 0x0100 [0xF3#8] with ime := true, eiPending := true } =
    some (false, false, false, .running) := by decide

/-- R264: `IME` itself is not written by `EI`. -/
theorem test_ei : controlAfter (at_ 0 0 0 0 0 0x0100 [0xFB#8]) = some (false, true, false, .running) := by decide

/-- R264, example: the first `NOP` after an `EI` runs and then `IME` is set. -/
theorem test_ei_lands : controlAfter { at_ 0 0 0 0 0 0x0100 [0x00#8] with eiPending := true } =
    some (true, false, false, .running) := by decide

/-- R265, example: nothing enabled, so the CPU halts. -/
theorem test_halt : controlAfter (at_ 0 0 0 0 0 0x0100 [0x76#8] [(0xFF0F#16, 0x1F#8)]) =
    some (false, false, false, .halted) := by decide

/-- R265, example: the HALT bug. -/
theorem test_halt_bug :
    controlAfter (at_ 0 0 0 0 0 0x0100 [0x76#8] [(0xFF0F#16, 0x01#8), (0xFFFF#16, 0x01#8)]) =
      some (false, false, true, .running) := by decide

/-- R265 (c): `LD A,$14` after the bug is `LD A,$3E`, and `PC` is at the byte `$14`. -/
theorem test_halt_bug_repeats_byte :
    pairsAfter { at_ 0 0 0 0 0 0x0100 [0x3E#8, 0x14#8] with haltBug := true } =
      some [0x3E00#16, 0, 0, 0, 0, 0x0101#16] := by decide

/-- R268, example. -/
theorem test_stop : controlAfter (at_ 0 0 0 0 0 0x0100 [0x10#8, 0x00#8]) = some (false, false, false, .stopped) ∧
    pairsAfter (at_ 0 0 0 0 0 0x0100 [0x10#8, 0x00#8]) = some [0, 0, 0, 0, 0, 0x0102#16] := by decide

/-- The fault a step ends in: its byte, and the mode and `PC` of the state it leaves. -/
def illegalAfter (s : State) : Option (Byte × Mode × Word) :=
  match step s with
  | .fault (.illegalOpcode b t) => some (b, t.mode, t.pc)
  | _ => none

/-- R100, R281: the byte's own step raises `Fault(IllegalOpcode b)`, in mode `Faulted`, with `PC` past the byte. -/
theorem test_illegal : illegalAfter (at_ 0 0 0 0 0 0x0100 [0xD3#8]) = some (0xD3#8, .faulted, 0x0101#16) := by decide

/-- R300: in mode `Faulted` the step changes nothing, where `IllegalOpcode` is `stuck`. -/
theorem test_illegal_stuck :
    let s := at_ 0 0 0 0 0 0x0100 [0xFC#8]
    let s := { s with params := { s.params with illegalOpcode := .stuck } }
    controlAfter s = some (false, false, false, .faulted) ∧
      step { s with mode := .faulted } = .next { s with mode := .faulted } := ⟨by decide, rfl⟩

/-- R7, R282: the defaults of `IntVector` and of the two addresses. -/
theorem test_default_params : (∀ i : Fin 8, Config.params.intVectors.get i = BitVec.ofNat 16 (0x40 + 8 * i.val)) ∧
    Config.params.numIntSources = 5 ∧ Bus.flat.ieAddr = 0xFFFF#16 ∧ Bus.flat.ifAddr = 0xFF0F#16 := by decide

/-- A machine whose address space has a ROM, a second name for `$C000` to `$DFFF`, a device and a hole, and whose
sources and vectors are other ones; `HL` and `A` are given, a load or a store of `A` through `HL` is next. -/
def platform (opcode : Byte) (a : Byte) (hl : Word) : State :=
  let s := at_ (joinBytes a 0x00#8) 0 0 hl 0xD000 0xC100 [opcode] [(0x0100#16, 0x11#8), (0xC000#16, 0x22#8)]
  { s with
    bus := { s.bus with regions :=
      [⟨0x0000#16, 0x7FFF#16, .rom⟩, ⟨0xE000#16, 0xFDFF#16, .echo 0xC000#16⟩, ⟨0xFF40#16, 0xFF4F#16, .device⟩,
        ⟨0xFEA0#16, 0xFEFF#16, .absent 0xFF#8⟩] }
    params := { s.params with numIntSources := 8, intVectors := Vector.replicate 8 0x1234#16 } }

/-- R51: a store to ROM is ignored; a store through the second name of a byte changes it. -/
theorem test_bus_rom_and_echo : byteAfter (platform 0x77#8 0x99#8 0x0100#16) 0x0100#16 = some 0x11#8 ∧
    byteAfter (platform 0x77#8 0x99#8 0xE000#16) 0xC000#16 = some 0x99#8 := by decide

/-- R51: a device sees a read and a store; a hole reads as it is given. -/
theorem test_bus_device_and_absent :
    (match step (platform 0x7E#8 0#8 0xFF44#16) with | .next t => t.bus.past | _ => []) = [.read 0xFF44#16] ∧
    (match step (platform 0x77#8 0x99#8 0xFF44#16) with | .next t => t.bus.past | _ => []) =
      [.write 0xFF44#16 0x99#8] ∧
    pairsAfter (platform 0x7E#8 0#8 0xFEA0#16) = some [0xFF00#16, 0, 0, 0xFEA0#16, 0xD000#16, 0xC101#16] := by decide

/-- R283, R282: a request of the platform is dispatched by the very next step, to the vector of its source. -/
theorem test_arrival_dispatch :
    let s := { platform 0x00#8 0#8 0#16 with ime := true, arrivals := [⟨0xC0#8, [], false⟩] }
    let s := s.write 0xFFFF#16 0xC0#8
    pairsAfter s = some [0, 0, 0, 0, 0xCFFE#16, 0x1234#16] ∧ byteAfter s 0xFF0F#16 = some 0x80#8 := by decide

/-- R35, R284: an `[IF]` whose bits 7 to 5 are not implemented reads them as 1, whatever is stored, and they do not count;
a `[IE]` in ROM ignores the store. -/
theorem test_bus_partly_implemented :
    let s := platform 0x77#8 0x02#8 0xFF0F#16
    let s := { s with bus := { s.bus with regions :=
      [⟨0xFF0F#16, 0xFF0F#16, .partly 0x1F#8 0xE0#8 0xE0#8⟩, ⟨0xFFFF#16, 0xFFFF#16, .rom⟩] } }
    byteAfter s 0xFF0F#16 = some 0xE2#8 ∧ (s.write 0xFFFF#16 0x02#8).read 0xFFFF#16 = 0x00#8 ∧
      { s with params := Config.params }.pending = false := by decide

/-- U4: a look at `[IF]` has no side effect where a device stands there either; a store to it is seen. -/
theorem test_bus_if_device :
    let b := { Bus.flat with regions := [⟨0xFF0F#16, 0xFF0F#16, .device⟩] }
    b.touch 0xFF0F#16 = b ∧ (b.write 0xFF0F#16 0x01#8).past = [.write 0xFF0F#16 0x01#8] ∧
      (b.ifClear 3).past = [.ack 3] := ⟨rfl, rfl, rfl⟩

/-- R300: a turn of the platform stores to memory, but not to `[IE]` and `[IF]` (R283). -/
theorem test_arrival_stores :
    let s := { platform 0x00#8 0#8 0#16 with
      arrivals := [⟨0x02#8, [(0xC000#16, 0x55#8), (0xFF0F#16, 0xFF#8), (0xFFFF#16, 0xFF#8)], false⟩] }
    byteAfter s 0xC000#16 = some 0x55#8 ∧ byteAfter s 0xFF0F#16 = some 0x02#8 ∧ byteAfter s 0xFFFF#16 = some 0x00#8 := by
  decide

/-- D13: where the platform may end a `STOP`, the CPU runs on after the turn that does. -/
theorem test_stop_wakes :
    let s := platform 0x00#8 0#8 0#16
    let s := { s with mode := .stopped, params := { s.params with stopBehaviour := .wakes } }
    controlAfter s = some (false, false, false, .stopped) ∧
    pairsAfter { s with arrivals := [⟨0#8, [], true⟩] } = some [0, 0, 0, 0, 0xD000#16, 0xC101#16] := by decide

/-- A running state at `$0150` with `IME` set and the Timer and Joypad interrupts requested and enabled. -/
def interrupted : State :=
  { at_ 0x1230#16 0 0 0 0xD000#16 0x0150#16 [0xD3#8] [(0xFF0F#16, 0x14#8), (0xFFFF#16, 0x1F#8)] with ime := true }

/-- R285, R287, R288: the lower source is taken, and the illegal byte at `PC` is not fetched. -/
theorem test_dispatch : pairsAfter interrupted = some [0x1230#16, 0, 0, 0, 0xCFFE#16, 0x0050#16] ∧
    byteAfter interrupted 0xCFFF#16 = some 0x01#8 ∧ byteAfter interrupted 0xCFFE#16 = some 0x50#8 ∧
    byteAfter interrupted 0xFF0F#16 = some 0x10#8 ∧
    controlAfter interrupted = some (false, false, false, .running) := by decide

/-- R331: the cycles of a taken and an untaken `CALL cc,n16`. -/
theorem test_cycles : cycles (.callCcN16 .nz 0x1234#16) = .branch 6 3 := by decide

/-- The word of a table row is the instruction that the next step runs (log entry 20). -/
theorem test_fetch_word : pairsAfter (State.reset.withFetchWord 16 0xCB37) = some [0x0080#16, 0, 0, 0, 0, 0x0002#16] := by
  decide

/-! ## Every statement with hypotheses has states that meet them

A statement without hypotheses, or whose only hypotheses are operands, needs none. `wf` of the memory of a state that
lists bytes is the hypothesis of every statement about a store; the boundaries of `SP` and of an address are met too. -/

/-- A running state with `SP` at the bottom of the address space and `HL` at its top. -/
def edge : State := at_ 0x9940#16 0x1234#16 0x00FF#16 0xFFFF#16 0x0000#16 0xFFFE#16 [0x31#8, 0xFE#8, 0xFF#8]

/-- `edge` with `SP` one higher, so that a push straddles the ends of the address space. -/
def edge1 : State := { edge with sp := 0x0001#16 }

theorem witness_DecodeOfEncode : (Instr.rst 0x0000#16).wellFormed = true ∧ (Instr.rst 0x0038#16).wellFormed = true ∧
    (Instr.ldR16A .de).wellFormed = true := by decide

theorem witness_EncodeOfDecode : decode [0xCB#8, 0x65#8, 0xAA#8] = .ok (.bitR8 4 .l, [0xAA#8]) := rfl

theorem witness_IllegalFirstBytes_illegal : decode [0xFD#8, 0x00#8, 0x00#8] = .ok (.illegalFD, [0x00#8, 0x00#8]) := rfl

/-- The three bytes lie over the end of the address space. -/
theorem witness_StepRunsDecodedInstruction :
    let u := edge.arrive
    u.mode = .running ∧ ¬ (u.ime = true ∧ u.pending = true) ∧ decode u.nextBytes = .ok (.ldSpN16 0xFFFE#16, []) :=
  ⟨rfl, by decide, rfl⟩

/-- With the HALT bug armed the opcode is its own operand. -/
theorem witness_StepRunsDecodedInstruction_haltBug :
    let s := { at_ 0 0 0 0 0 0x0100#16 [0x3E#8, 0x14#8] with haltBug := true }
    s.arrive.mode = .running ∧ ¬ (s.arrive.ime = true ∧ s.arrive.pending = true) ∧
      decode s.arrive.nextBytes = .ok (.ldR8N8 .a 0x3E#8, [0x14#8]) :=
  ⟨rfl, by decide, rfl⟩

theorem witness_StepKeepsInv_run : edge.Inv ∧ ∃ t, step edge = .next t := ⟨by unfold State.Inv; decide, _, rfl⟩

theorem witness_StepKeepsInv_dispatch : interrupted.Inv ∧ ∃ t, step interrupted = .next t :=
  ⟨by unfold State.Inv; decide, _, rfl⟩

/-- The HALT bug armed, as its invariant allows, at a `NOP`. -/
theorem witness_StepKeepsInv_haltBug :
    let s := { interrupted with ime := false, haltBug := true, pc := 0x0200#16 }
    s.Inv ∧ ∃ t, step s = .next t := ⟨by unfold State.Inv; decide, _, rfl⟩

/-- The memory of `ResetMeetsInv` and every other `wf`: one that lists bytes. -/
theorem witness_ResetMeetsInv : interrupted.bus.mem.wf = true ∧ interrupted.bus.mem ≠ [] := by decide

/-- Each way to stop: an illegal byte (at `PC` of `interrupted`, `IME` clear) and a lock-up under the three treatments,
a `STOP` under the three. -/
theorem witness_StepStopsExactlyWhenStuck :
    let s := { interrupted with ime := false }
    let refuses := { s with params := { s.params with illegalOpcode := .refuse } }
    let wakes := { (at_ 0 0 0 0 0 0x0100 [0x10#8, 0x01#8]) with params := { s.params with stopBehaviour := .wakes } }
    (∃ r, step s = .fault r) ∧ (∃ r, step { s with mode := .faulted } = .fault r) ∧
    (∃ r, step refuses = .refused r) ∧ (∃ r, step { refuses with mode := .faulted } = .refused r) ∧
    (∃ r, step { s with mode := .stopped } = .refused r) ∧ (∃ r, step wakes = .refused r) ∧
    decode wakes.arrive.nextBytes = .ok (.stop 0x01#8, [0x00#8]) :=
  ⟨⟨_, rfl⟩, ⟨_, rfl⟩, ⟨_, rfl⟩, ⟨_, rfl⟩, ⟨_, rfl⟩, ⟨_, rfl⟩, rfl⟩

/-- A turn that is due, the byte `[IF]`, and a byte that is neither that nor stored to. -/
theorem witness_RequestSetsBitsOnly :
    let s := { interrupted with
      ime := false, haltBug := true, arrivals := [⟨0x09#8, [(0xC000#16, 0x55#8)], true⟩, ⟨0x00#8, [], false⟩] }
    s.Inv ∧ s.bus.place s.bus.ifAddr = .cell 0xFF0F#16 Wiring.ram ∧ s.bus.place s.bus.ieAddr = .cell 0xFFFF#16 Wiring.ram ∧
      s.bus.place 0xFF0E#16 = .cell 0xFF0E#16 Wiring.ram ∧ s.bus.isCellOf 0xFF0E#16 s.bus.ifAddr = false ∧
      0xFF0E#16 ∉ [(0xC000#16, 0x55#8)].map Prod.fst ∧ s.arrive.bus.intf = 0x1D#8 := by
  unfold State.Inv; decide

theorem witness_CanonicalMemoryIsUnique : interrupted.bus.mem.wf = true ∧ interrupted.bus.mem ≠ [] ∧
    ∀ a, a < 65536 → interrupted.bus.mem.read a = interrupted.bus.mem.read a := ⟨by decide, by decide, fun _ _ => rfl⟩

/-- `wf` for the statements on stores: a store at `HL = $FFFF`, pushes at `SP = $0000` and `SP = $0001`, the address
`n16 = $FFFF`. -/
theorem witness_IncDecMemory : edge.bus.mem.wf = true ∧ edge.hl = 0xFFFF#16 := by decide
theorem witness_ResSetMemoryBit : edge.bus.mem.wf = true ∧ (7 : Fin 8).val = 7 := by decide
theorem witness_SwapRotatesByFour : edge.bus.mem.wf = true := by decide
theorem witness_ShiftsOfMemory : edge.bus.mem.wf = true ∧ edge.hl = 0xFFFF#16 := by decide
theorem witness_StoresWriteOneByte : edge.bus.mem.wf = true ∧ edge.r16 .de = 0x00FF#16 := by decide
theorem witness_PostIncrementLoadsAndStores : edge.bus.mem.wf = true ∧ edge.hl = 0xFFFF#16 := by decide
theorem witness_StoreSpLittleEndian : edge1.bus.mem.wf = true ∧ edge1.sp = 0x0001#16 := by decide
theorem witness_PushStoresHighThenLow : edge.bus.mem.wf = true ∧ edge1.bus.mem.wf = true := by decide

/-- On the flat bus, over the ends of the address space; and on a bus with a ROM and a device. -/
theorem witness_PopAfterPushRestores :
    (edge1.bus.mem.wf = true ∧ edge1.isRam (edge1.sp - 1) ∧ edge1.isRam (edge1.sp - 2)) ∧
    (let s := platform 0#8 0#8 0#16
     s.bus.mem.wf = true ∧ s.isRam (s.sp - 1) ∧ s.isRam (s.sp - 2)) := by
  unfold State.isRam; decide

/-- Both outcomes of a condition, on one state: `Z` is clear and `N` is set. -/
theorem witness_CallsPushReturnAddress : edge.bus.mem.wf = true ∧ edge.f.holds .nz = true ∧ edge.f.holds .z = false := by
  decide

theorem witness_ReturnsPopPc : edge.f.holds .nc = true ∧ edge.f.holds .c = false := by decide

/-- 99 is the largest decimal number of a byte. -/
theorem witness_DaaAfterAddIsDecimal : 99 < 100 ∧ edge.acc = bcd 99 := by decide
theorem witness_DaaAfterSubIsDecimal : 0 < 100 ∧ 99 < 100 ∧ State.reset.acc = bcd 0 := by decide

theorem witness_HalfCarryIsCarryIntoBit4 : Instr.sbcAN8 0xFF#8 ∈
    [Instr.addAN8 0xFF#8, .adcAN8 0xFF#8, .subAN8 0xFF#8, .sbcAN8 0xFF#8] := by decide

theorem witness_HaltThreeCases :
    interrupted.ime = true ∧
    (edge.ime = false ∧ edge.read edge.bus.ieAddr &&& edge.read edge.bus.ifAddr &&&
      BitVec.ofNat 8 (2 ^ edge.params.numIntSources.val - 1) = 0#8) ∧
    (let s := { interrupted with ime := false }
     s.ime = false ∧ ¬ s.read s.bus.ieAddr &&& s.read s.bus.ifAddr &&&
      BitVec.ofNat 8 (2 ^ s.params.numIntSources.val - 1) = 0#8) := by decide

/-- A stopped CPU under each treatment; where the platform may end a `STOP`, a turn that does and one that does not. -/
theorem witness_StopEntersStoppedMode :
    let s := { edge with mode := .stopped }
    let stuck := { s with params := { s.params with stopBehaviour := .stuck } }
    let wakes := { s with params := { s.params with stopBehaviour := .wakes } }
    s.mode = .stopped ∧ s.params.stopBehaviour = .refuse ∧ stuck.params.stopBehaviour = .stuck ∧
    wakes.params.stopBehaviour = .wakes ∧ (0x01#8 : Byte) ≠ 0x00#8 ∧
    (∀ t ∈ ({ wakes with arrivals := [⟨0#8, [], false⟩] }).arrivals.head?, t.endsStop = false) ∧
    (∃ t ∈ ({ wakes with arrivals := [⟨0#8, [], true⟩] }).arrivals.head?, t.endsStop = true) :=
  ⟨rfl, rfl, rfl, rfl, by decide, by simp, by simp⟩

/-- A `NOP` and then `$D3`: after one step the illegal byte comes to be executed, and no longer run is safe. -/
theorem witness_IllegalByteLocksUp : (0xD3#8, Instr.illegalD3) ∈ illegalBytes ∧ (0xFD#8, Instr.illegalFD) ∈ illegalBytes ∧
    ∃ u, Sys2Proof.core.run 1 (at_ 0 0 0 0 0 0x0100 [0x00#8, 0xD3#8]) = .next u ∧ u.arrive.runsInstr ∧
      u.arrive.read u.arrive.pc ∈ illegalBytes.map Prod.fst ∧ 1 < 2 :=
  ⟨by decide, by decide, _, rfl, ⟨.inl rfl, by decide, nofun⟩, by decide, by decide⟩

/-- The Timer interrupt, with the Joypad one pending too and the two lower ones not. -/
theorem witness_InterruptDispatch : interrupted.arrive.live ∧ interrupted.arrive.ime = true ∧
    interrupted.arrive.bus.mem.wf = true ∧ (2 : Fin 8).val < interrupted.arrive.params.numIntSources.val ∧
    (interrupted.read 0xFFFF#16 &&& interrupted.read 0xFF0F#16).getLsbD (2 : Fin 8).val = true ∧
    (∀ j : Nat, j < (2 : Fin 8).val → (interrupted.read 0xFFFF#16 &&& interrupted.read 0xFF0F#16).getLsbD j = false) ∧
    (let u := interrupted.arrive
     u.isRam u.bus.ifAddr ∧ u.isRam (u.sp - 1) ∧ u.isRam (u.sp - 2) ∧ u.sp - 1 ≠ u.bus.ifAddr ∧
       u.sp - 2 ≠ u.bus.ifAddr) :=
  ⟨.inl rfl, by decide, by decide, by decide, by decide, by decide, by unfold State.isRam; decide⟩

/-- The last source, requested by the platform's turn before the step, from a halted state whose stack lies over
`[IF]`. -/
theorem witness_InterruptDispatch_last :
    let s := { at_ 0 0 0 0 0xFF10#16 0x0150#16 [] [(0xFF0F#16, 0xE0#8), (0xFFFF#16, 0xFF#8)] with
      ime := true, mode := .halted, arrivals := [⟨0x10#8, [], false⟩] }
    let u := s.arrive
    u.live ∧ u.ime = true ∧ u.bus.mem.wf = true ∧ (4 : Fin 8).val < u.params.numIntSources.val ∧
      (u.read u.bus.ieAddr &&& u.read u.bus.ifAddr).getLsbD (4 : Fin 8).val = true ∧
      ∀ j : Nat, j < (4 : Fin 8).val → (u.read u.bus.ieAddr &&& u.read u.bus.ifAddr).getLsbD j = false :=
  ⟨.inr rfl, by decide, by decide, by decide, by decide, by decide⟩

theorem witness_HaltedIdlesThenWakes :
    ({ edge with mode := .halted }.mode = .halted ∧ { edge with mode := .halted }.arrive.pending = false) ∧
    ({ interrupted with mode := .halted }.mode = .halted ∧
      { interrupted with mode := .halted }.arrive.pending = true) := by
  decide

/-- An `EI` at `$0100`, and after it a `DI` and another instruction, with interrupts pending throughout. -/
theorem witness_EiLandsAfterNextInstruction :
    (let s := { interrupted with ime := false, pc := 0x0200#16 }.write 0x0200#16 0xFB#8
     s.arrive.mode = .running ∧ s.arrive.ime = false ∧ s.arrive.eiPending = false ∧
       decode s.arrive.nextBytes = .ok (.ei, [0x00#8, 0x00#8])) ∧
    (let s := { interrupted with ime := false, eiPending := true, pc := 0x0200#16 }.write 0x0200#16 0xF3#8
     s.arrive.mode = .running ∧ s.arrive.ime = false ∧ s.arrive.eiPending = true ∧
       decode s.arrive.nextBytes = .ok (.di, [0x00#8, 0x00#8]) ∧ Instr.di ∉ illegalInstrs ∧
       ∃ t, exec .di (s.arrive.fetched [0x00#8, 0x00#8]) = .next t) ∧
    (let s := { interrupted with ime := false, eiPending := true, pc := 0x0200#16 }
     s.arrive.mode = .running ∧ s.arrive.ime = false ∧ s.arrive.eiPending = true ∧
       decode s.arrive.nextBytes = .ok (.nop, [0x00#8, 0x00#8]) ∧ Instr.nop ∉ illegalInstrs ∧
       ∃ t, exec .nop (s.arrive.fetched [0x00#8, 0x00#8]) = .next t) :=
  ⟨⟨rfl, rfl, rfl, rfl⟩, ⟨rfl, rfl, rfl, rfl, by decide, _, rfl⟩, ⟨rfl, rfl, rfl, rfl, by decide, _, rfl⟩⟩

/-- The handler has changed `A` and nothing that matters. -/
theorem witness_RetiReturnsFromInterrupt :
    let r := interrupted.arrive
    let t := r.takeInterrupt 2
    let u := t.setR8 .a 0x77#8
    r.live ∧ r.ime = true ∧ r.pending = true ∧ r.bus.mem.wf = true ∧ r.isRam (r.sp - 1) ∧ r.isRam (r.sp - 2) ∧
      step interrupted = .next t ∧ u.sp = t.sp ∧ u.top = t.top :=
  ⟨.inl rfl, by decide, by decide, by decide, by unfold State.isRam; decide, by unfold State.isRam; decide, rfl, rfl,
    rfl⟩

theorem witness_FlagTableHolds : ∃ t, exec .scf edge = .next t := ⟨_, rfl⟩
theorem witness_ControlStateFrames : (∃ t, exec .nop edge = .next t) ∧ Instr.nop ≠ .di ∧ Instr.nop ≠ .reti ∧
    Instr.nop ≠ .ei ∧ Instr.nop ≠ .halt ∧ (∀ pad, Instr.nop ≠ .stop pad) ∧ Instr.nop ∉ illegalInstrs :=
  ⟨⟨_, rfl⟩, by decide, by decide, by decide, by decide, fun _ => nofun, by decide⟩
theorem witness_SpAndPcFrames : (∃ t, exec .cpl edge = .next t) ∧ writesSp .cpl = false ∧ writesPc .cpl = false :=
  ⟨⟨_, rfl⟩, rfl, rfl⟩
theorem witness_RegisterFrames : (∃ t, exec (.popR16 .bc) edge = .next t) ∧ Reg8.d ∉ writtenRegs (.popR16 .bc) :=
  ⟨⟨_, rfl⟩, by decide⟩

/-- A push that straddles the ends of the address space, and a byte that none of its stores changes. -/
theorem witness_MemoryFrames : edge1.bus.mem.wf = true ∧ (∃ t, exec .pushAf edge1 = .next t) ∧
    touchesDevice edge1 .pushAf = false ∧ edge1.bus.place 0x0001#16 ≠ .device ∧ storesTo edge1 .pushAf = [0x0000#16, 0xFFFF#16] ∧
    edge1.hits 0x0000#16 0x0001#16 = false ∧ edge1.hits 0xFFFF#16 0x0001#16 = false :=
  ⟨by decide, ⟨_, rfl⟩, rfl, by decide, rfl, by decide, by decide⟩

end Sys2Proof.Tests
end

section
/-! The 8-bit arithmetic and logic instructions (40_alu8.md): the bytes and the flags that the helpers of
Machine/Flags.lean compute, what the shapes of Machine/Operands.lean write, then the obligations. -/

namespace Sys2Proof.Machine

/-! ### What the helpers compute, as arithmetic of bytes -/

@[simp] theorem carryByte_false : carryByte false = 0#8 := rfl

theorem toNat_carryByte (c : Bool) : (carryByte c).toNat = c.toNat := by cases c <;> rfl

/-- The sum of `Add8` is taken modulo 256 (R120). -/
theorem add8_res (a x : Byte) (cin : Bool) : (add8 a x cin).res = a + x + carryByte cin := by
  have hc := toNat_carryByte cin
  apply BitVec.eq_of_toNat_eq
  simp only [add8, BitVec.toNat_ofNat, BitVec.toNat_add, hc]
  omega

/-- The difference of `Sub8` is taken modulo 256 (R121). -/
theorem sub8_res (a x : Byte) (cin : Bool) : (sub8 a x cin).res = a - x - carryByte cin := by
  have hc := toNat_carryByte cin
  apply BitVec.eq_of_toNat_eq
  simp only [sub8, BitVec.toNat_ofInt, BitVec.toNat_sub, hc]
  omega

theorem inc8_eq (x : Byte) : inc8 x = x + 1 := by
  apply BitVec.eq_of_toNat_eq
  simp [inc8]

theorem dec8_eq (x : Byte) : dec8 x = x - 1 := by
  have h1 : (1 : Byte).toNat = 1 := rfl
  apply BitVec.eq_of_toNat_eq
  simp only [dec8, BitVec.toNat_ofInt, BitVec.toNat_sub, h1]
  omega

/-- The flags of an addition with carry-in (R120, R122). -/
theorem addFlags_add8 (a x : Byte) (cin : Bool) :
    addFlags (add8 a x cin) =
      { z := decide (a + x + carryByte cin = 0), n := false
        h := decide (a.toNat % 16 + x.toNat % 16 + cin.toNat > 15)
        c := decide (a.toNat + x.toNat + cin.toNat > 255) } := by
  simp only [addFlags, add8_res]
  rfl

/-- The flags of a subtraction with borrow-in (R121, R141). -/
theorem subFlags_sub8 (a x : Byte) (cin : Bool) :
    subFlags (sub8 a x cin) =
      { z := decide (a - x - carryByte cin = 0), n := true
        h := decide (a.toNat % 16 < x.toNat % 16 + cin.toNat)
        c := decide (a.toNat < x.toNat + cin.toNat) } := by
  simp only [subFlags, sub8_res]
  rfl

/-- The flags of a comparison: without a borrow-in, `Z` says that the bytes are equal and `C` which is less (R131). -/
theorem subFlags_sub8_false (a x : Byte) :
    subFlags (sub8 a x false) =
      { z := decide (a = x), n := true, h := decide (a.toNat % 16 < x.toNat % 16), c := decide (a < x) } := by
  have hz : a - x - carryByte false = 0 ↔ a = x := by
    rw [carryByte_false, BitVec.sub_zero]
    bv_omega
  rw [subFlags_sub8, decide_eq_decide.2 hz]
  rfl

theorem incFlags_eq (x : Byte) (old : Flags) :
    incFlags x old = { z := decide (x + 1 = 0), n := false, h := decide (x.toNat % 16 = 15), c := old.c } := by
  rw [incFlags, inc8_eq]

theorem decFlags_eq (x : Byte) (old : Flags) :
    decFlags x old = { z := decide (x - 1 = 0), n := true, h := decide (x.toNat % 16 = 0), c := old.c } := by
  rw [decFlags, dec8_eq]

/-! ### What the shapes of meanings write, and that they write nothing else -/

/-- A register written, then the flags: the one shape in which a register form gives its result. -/
theorem State.writesR8_setR8_setFlags (s : State) (r : Reg8) (v : Byte) (f : Flags) :
    WritesR8 s ((s.setR8 r v).setFlags f) r v f := by
  refine ⟨fun q => ?_, rfl⟩
  show (s.regs.set r v).get q = if q = r then v else s.regs.get q
  by_cases h : q = r
  · rw [if_pos h, h, Regs.get_set_self]
  · rw [if_neg h, Regs.get_set_ne _ _ h]

/-- The byte at `HL` read and written back, then the flags: the one shape in which an `[HL]` form gives its result. -/
theorem State.accessesWithFlags_setAtHl {s : State} (hw : s.bus.mem.wf = true) (v : Byte) (f : Flags) :
    AccessesWithFlags s ((s.touchHl.setAtHl v).setFlags f) [.read s.hl, .write s.hl v] f :=
  ⟨Accesses.of_bus hw rfl, rfl⟩

theorem State.writesR8_addA (s : State) (x : Byte) (cin : Bool) :
    WritesR8 s (s.addA x cin) .a (s.acc + x + carryByte cin)
      { z := decide (s.acc + x + carryByte cin = 0), n := false
        h := decide (s.acc.toNat % 16 + x.toNat % 16 + cin.toNat > 15)
        c := decide (s.acc.toNat + x.toNat + cin.toNat > 255) } := by
  rw [State.addA, addFlags_add8, add8_res]
  exact s.writesR8_setR8_setFlags ..

/-- `ADD A,x`: the addition without a carry-in (R125). -/
theorem State.writesR8_addA_false (s : State) (x : Byte) :
    WritesR8 s (s.addA x false) .a (s.acc + x)
      { z := decide (s.acc + x = 0), n := false
        h := decide (s.acc.toNat % 16 + x.toNat % 16 > 15), c := decide (s.acc.toNat + x.toNat > 255) } := by
  have h := s.writesR8_addA x false
  rwa [carryByte_false, BitVec.add_zero] at h

/-- `SUB A,x`: the subtraction without a borrow-in (R144). -/
theorem State.writesR8_subA_false (s : State) (x : Byte) :
    WritesR8 s (s.subA x false) .a (s.acc - x)
      { z := decide (s.acc = x), n := true
        h := decide (s.acc.toNat % 16 < x.toNat % 16), c := decide (s.acc < x) } := by
  rw [State.subA, subFlags_sub8_false, sub8_res, carryByte_false, BitVec.sub_zero]
  exact s.writesR8_setR8_setFlags ..

/-- `CP A,x` writes the flags of `SUB A,x` and no register (R131). -/
theorem State.cpA_eq (s : State) (x : Byte) :
    s.cpA x = { s with f :=
      { z := decide (s.acc = x), n := true
        h := decide (s.acc.toNat % 16 < x.toNat % 16), c := decide (s.acc < x) } } := by
  rw [State.cpA, subFlags_sub8_false]
  rfl

theorem State.writesR8_andA (s : State) (x : Byte) :
    WritesR8 s (s.andA x) .a (s.acc &&& x)
      { z := decide (s.acc &&& x = 0), n := false, h := true, c := false } :=
  s.writesR8_setR8_setFlags ..

theorem State.writesR8_orA (s : State) (x : Byte) :
    WritesR8 s (s.orA x) .a (s.acc ||| x)
      { z := decide (s.acc ||| x = 0), n := false, h := false, c := false } :=
  s.writesR8_setR8_setFlags ..

theorem State.writesR8_xorA (s : State) (x : Byte) :
    WritesR8 s (s.xorA x) .a (s.acc ^^^ x)
      { z := decide (s.acc ^^^ x = 0), n := false, h := false, c := false } :=
  s.writesR8_setR8_setFlags ..

/-! ### The obligations

An `[HL]` form is the register form's shape in the state after the read of the byte at `HL`, a state that differs from
the one before in its bus alone. -/

/-- Settles O13: every form is `State.addA` without a carry-in. -/
theorem addWritesSumAndCarries : Obligations.AddWritesSumAndCarries := by
  intro s adds
  have adds_of {i : Instr} {es : List Access} {x : Byte}
      (h : exec i s = .next ((s.seen es).addA x false)) : adds i es x :=
    ⟨_, h, (s.seen es).writesR8_addA_false x⟩
  exact ⟨fun _ => adds_of rfl, adds_of rfl, fun _ => adds_of rfl⟩

/-- Settles O15: every form is `State.subA` without a borrow-in, or `State.cpA`. -/
theorem subWritesDifferenceCpOnlyFlags : Obligations.SubWritesDifferenceCpOnlyFlags := by
  intro s flags subtracts compares
  have subtracts_of {i : Instr} {es : List Access} {x : Byte}
      (h : exec i s = .next ((s.seen es).subA x false)) : subtracts i es x :=
    ⟨_, h, (s.seen es).writesR8_subA_false x⟩
  have compares_of {i : Instr} {es : List Access} {x : Byte}
      (h : exec i s = .next ((s.seen es).cpA x)) : compares i es x :=
    h.trans (congrArg _ ((s.seen es).cpA_eq x))
  exact ⟨⟨fun _ => subtracts_of rfl, subtracts_of rfl, fun _ => subtracts_of rfl⟩,
    fun _ => compares_of rfl, compares_of rfl, fun _ => compares_of rfl⟩

/-- Settles O16: every form is `State.andA`, `State.orA` or `State.xorA`. -/
theorem logicWritesBitwiseResult : Obligations.LogicWritesBitwiseResult := by
  intro s writes
  have and_of {i : Instr} {es : List Access} {x : Byte}
      (h : exec i s = .next ((s.seen es).andA x)) : writes i es (s.acc &&& x) true :=
    ⟨_, h, (s.seen es).writesR8_andA x⟩
  have or_of {i : Instr} {es : List Access} {x : Byte}
      (h : exec i s = .next ((s.seen es).orA x)) : writes i es (s.acc ||| x) false :=
    ⟨_, h, (s.seen es).writesR8_orA x⟩
  have xor_of {i : Instr} {es : List Access} {x : Byte}
      (h : exec i s = .next ((s.seen es).xorA x)) : writes i es (s.acc ^^^ x) false :=
    ⟨_, h, (s.seen es).writesR8_xorA x⟩
  exact ⟨⟨fun _ => and_of rfl, and_of rfl, fun _ => and_of rfl⟩,
    ⟨fun _ => or_of rfl, or_of rfl, fun _ => or_of rfl⟩,
    fun _ => xor_of rfl, xor_of rfl, fun _ => xor_of rfl⟩

/-- Settles O17: the register is written with `inc8` or `dec8` of it, then the flags. -/
theorem incDecRegister : Obligations.IncDecRegister := by
  intro s r
  rw [← incFlags_eq, ← decFlags_eq, ← inc8_eq, ← dec8_eq]
  exact ⟨⟨_, rfl, s.writesR8_setR8_setFlags ..⟩, ⟨_, rfl, s.writesR8_setR8_setFlags ..⟩⟩

/-- Settles O18: the byte at `HL` is read, `inc8` or `dec8` of it written back, then the flags written. -/
theorem incDecMemory : Obligations.IncDecMemory := by
  intro s hw
  rw [← incFlags_eq, ← decFlags_eq, ← inc8_eq, ← dec8_eq]
  exact ⟨⟨_, rfl, State.accessesWithFlags_setAtHl hw ..⟩, ⟨_, rfl, State.accessesWithFlags_setAtHl hw ..⟩⟩

end Sys2Proof.Machine
end

section
/-! The 16-bit arithmetic instructions (41_alu16.md, and `ADD HL,SP` of 46_stack.md): the words that the helpers of
Machine/Flags.lean compute, what a write of a pair changes, then the obligations. -/

namespace Sys2Proof.Machine

/-! ### What the helpers compute, as arithmetic of words -/

/-- The sum of `ADD HL,x` is taken modulo 65536 (R160). -/
theorem addHl16_res (hl x : Word) : (addHl16 hl x).res = hl + x := by
  apply BitVec.eq_of_toNat_eq
  simp [addHl16]

theorem inc16_eq (x : Word) : inc16 x = x + 1 := by
  apply BitVec.eq_of_toNat_eq
  simp [inc16]

theorem dec16_eq (x : Word) : dec16 x = x - 1 := by
  have h1 : (1 : Word).toNat = 1 := rfl
  apply BitVec.eq_of_toNat_eq
  simp only [dec16, BitVec.toNat_ofInt, BitVec.toNat_sub, h1]
  omega

/-! ### What a write of a pair changes -/

/-- A write of a pair is a write of its two halves, high byte first (10_state.md R22). -/
theorem Regs.set16_eq_set_halves (g : Regs) (p : Reg16) (v : Word) :
    ∃ hi lo, halves p = [hi, lo] ∧ g.set16 p v = (g.set hi (hiByte v)).set lo (loByte v) := by
  cases p with
  | bc => exact ⟨.b, .c, rfl, rfl⟩
  | de => exact ⟨.d, .e, rfl, rfl⟩
  | hl => exact ⟨.h, .l, rfl, rfl⟩

theorem Regs.get_set16_of_not_mem_halves (g : Regs) {p : Reg16} {q : Reg8} (v : Word) (h : q ∉ halves p) :
    (g.set16 p v).get q = g.get q := by
  obtain ⟨hi, lo, hp, hset⟩ := g.set16_eq_set_halves p v
  obtain ⟨hhi, hlo⟩ : q ≠ hi ∧ q ≠ lo := by simpa [hp] using h
  rw [hset, Regs.get_set_ne _ _ hlo, Regs.get_set_ne _ _ hhi]

/-- A pair written, then the flags. -/
theorem State.writesR16_setR16_setFlags (s : State) (p : Reg16) (v : Word) (f : Flags) :
    WritesR16 s ((s.setR16 p v).setFlags f) p v f :=
  ⟨s.regs.get16_set16_self p v, fun _ h => s.regs.get_set16_of_not_mem_halves v h, rfl⟩

/-- A pair written, and no flag: the same as with the old flags written back. -/
theorem State.writesR16_setR16 (s : State) (p : Reg16) (v : Word) : WritesR16 s (s.setR16 p v) p v s.f :=
  s.writesR16_setR16_setFlags p v s.f

/-- `ADD HL,x`: the flags need no equation, as `addHlFlags` takes them from the sum of naturals (R160). -/
theorem State.writesR16_addHl (s : State) (x : Word) :
    WritesR16 s (s.addHl x) .hl (s.hl + x)
      { z := s.f.z, n := false, h := decide (s.hl.toNat % 4096 + x.toNat % 4096 > 4095)
        c := decide (s.hl.toNat + x.toNat > 65535) } := by
  rw [State.addHl, addHl16_res]
  exact s.writesR16_setR16_setFlags ..

/-! ### The obligations -/

/-- Settles O21: all four forms are `State.addHl`, of a pair or of `SP`. -/
theorem addHlWritesSum : Obligations.AddHlWritesSum := by
  intro s adds
  have adds_of {i : Instr} {x : Word} (h : exec i s = .next (s.addHl x)) : adds i x :=
    ⟨_, h, s.writesR16_addHl x⟩
  exact ⟨fun _ => adds_of rfl, adds_of rfl⟩

/-- Settles O22: the pair is written with `inc16` or `dec16` of it, and the flags are not. -/
theorem incDecPair : Obligations.IncDecPair := by
  intro s p
  rw [← inc16_eq, ← dec16_eq]
  exact ⟨⟨_, rfl, s.writesR16_setR16 ..⟩, ⟨_, rfl, s.writesR16_setR16 ..⟩⟩

end Sys2Proof.Machine
end

section
/-! The bit operations (42_bitops.md): the bits of the bytes that the helpers of Machine/Flags.lean compute, what a
write of a register alone changes, then the obligations. -/

namespace Sys2Proof.Machine

/-! ### What the helpers compute, bit by bit -/

/-- The mask of `RES u3` is the complement of the one bit (R172). -/
theorem resetMask_eq (u : Fin 8) : BitVec.ofNat 8 (255 - 2 ^ u.val) = ~~~BitVec.twoPow 8 u.val := by
  revert u
  decide

/-- The mask of `SET u3` is the one bit (R174). -/
theorem setMask_eq (u : Fin 8) : BitVec.ofNat 8 (2 ^ u.val) = BitVec.twoPow 8 u.val := by
  revert u
  decide

theorem getLsbD_twoPow_fin (u j : Fin 8) : (BitVec.twoPow 8 u.val).getLsbD j.val = decide (j = u) := by
  simp [Fin.ext_iff, eq_comm]

theorem getLsbD_resetBit (u j : Fin 8) (x : Byte) :
    (resetBit u x).getLsbD j.val = if j = u then false else x.getLsbD j.val := by
  rw [resetBit, resetMask_eq, BitVec.getLsbD_and, BitVec.getLsbD_not, getLsbD_twoPow_fin]
  by_cases h : j = u <;> simp [h]

theorem getLsbD_setBit (u j : Fin 8) (x : Byte) :
    (setBit u x).getLsbD j.val = if j = u then true else x.getLsbD j.val := by
  rw [setBit, setMask_eq, BitVec.getLsbD_or, getLsbD_twoPow_fin]
  by_cases h : j = u <;> simp [h]

/-- The nibbles exchanged are the byte rotated by four bits: the low nibble comes to stand in multiples of 16, so that
adding the high nibble is `OR` (R176). -/
theorem swapNibbles_eq (x : Byte) : swapNibbles x = x.rotateLeft 4 := by
  have hx : x.toNat < 256 := x.isLt
  have hhigh : x.toNat / 2 ^ 4 < 2 ^ 4 := by omega
  have hlow : x.toNat * 2 ^ 4 % 2 ^ 8 = 2 ^ 4 * (x.toNat % 2 ^ 4) := by omega
  apply BitVec.eq_of_toNat_eq
  calc (swapNibbles x).toNat
      = 2 ^ 4 * (x.toNat % 2 ^ 4) + x.toNat / 2 ^ 4 := by
        rw [swapNibbles, BitVec.toNat_ofNat]
        omega
    _ = x.toNat * 2 ^ 4 % 2 ^ 8 ||| x.toNat / 2 ^ 4 := by
        rw [hlow, Nat.two_pow_add_eq_or_of_lt hhigh]
    _ = (x.rotateLeft 4).toNat := by
        rw [BitVec.toNat_rotateLeft, Nat.shiftLeft_eq, Nat.shiftRight_eq_div_pow]

/-! ### What a write of a register changes -/

/-- A register written, and no flag: the same as with the old flags written back. -/
theorem State.writesR8_setR8 (s : State) (r : Reg8) (v : Byte) : WritesR8 s (s.setR8 r v) r v s.f :=
  s.writesR8_setR8_setFlags r v s.f

@[simp] theorem State.r8_setR8_self (s : State) (r : Reg8) (v : Byte) : (s.setR8 r v).r8 r = v :=
  s.regs.get_set_self r v

/-! ### The obligations -/

/-- Settles O23: both forms write `bitFlags` of the byte alone, the `[HL]` form in the state after the read of it. -/
theorem bitTestsIntoZ : Obligations.BitTestsIntoZ := by
  intro s u tests
  have tests_of {i : Instr} {es : List Access} {x : Byte}
      (h : exec i s = .next ((s.seen es).setFlags (bitFlags u x s.f))) : tests i es x := h
  exact ⟨fun _ => tests_of rfl, tests_of rfl⟩

/-- Settles O24: the register is written with `resetBit` or `setBit` of it, and the flags are not. -/
theorem resSetRegisterBit : Obligations.ResSetRegisterBit := by
  intro s u r
  refine ⟨⟨_, rfl, ?_⟩, ⟨_, rfl, ?_⟩⟩
  · rw [State.r8_setR8_self]
    exact ⟨s.writesR8_setR8 .., fun j => getLsbD_resetBit u j _⟩
  · rw [State.r8_setR8_self]
    exact ⟨s.writesR8_setR8 .., fun j => getLsbD_setBit u j _⟩

/-- Settles O26: the register, or the byte at `HL` that was read, is written with `swapNibbles` of it, then the
flags. -/
theorem swapRotatesByFour : Obligations.SwapRotatesByFour := by
  intro s flags
  refine ⟨fun r => ?_, fun hw => ?_⟩
  · rw [← swapNibbles_eq]
    exact ⟨_, rfl, s.writesR8_setR8_setFlags ..⟩
  · rw [← swapNibbles_eq]
    exact ⟨_, rfl, State.accessesWithFlags_setAtHl hw ..⟩

end Sys2Proof.Machine
end

section
/-! The shifts and rotates (43_shifts.md): the bytes that the diagrams of R180 give, as shifts and rotations of bit
vectors, what the shapes of Machine/Operands.lean write, then the obligations. -/

namespace Sys2Proof.Machine

/-! ### The bit that enters, as a byte -/

/-- Bit 7, moved into bit 0: what a rotation to the left brings round. -/
theorem carryByte_getLsbD_seven (x : Byte) : carryByte (x.getLsbD 7) = x >>> 7 := by
  have hx : x.toNat < 256 := x.isLt
  apply BitVec.eq_of_toNat_eq
  rw [toNat_carryByte, BitVec.getLsbD, Nat.toNat_testBit, BitVec.toNat_ushiftRight, Nat.shiftRight_eq_div_pow]
  omega

/-- Bit 0, moved into bit 7: what a rotation to the right brings round. -/
theorem carryByte_getLsbD_zero_shiftLeft (x : Byte) : carryByte (x.getLsbD 0) <<< 7 = x <<< 7 := by
  apply BitVec.eq_of_toNat_eq
  simp only [BitVec.toNat_shiftLeft, toNat_carryByte, BitVec.getLsbD, Nat.toNat_testBit, Nat.shiftLeft_eq]
  omega

/-! ### The diagrams of R180, as shifts and rotations of bit vectors -/

/-- The left moves: twice the byte is even, so that adding the bit that enters is `OR`. -/
theorem shiftLeft_eq (x : Byte) (cin : Bool) : shiftLeft x cin = ⟨x <<< 1 ||| carryByte cin, x.getLsbD 7⟩ := by
  have hc : cin.toNat < 2 ^ 1 := cin.toNat_lt
  have hx : x.toNat * 2 % 2 ^ 8 = 2 ^ 1 * (x.toNat % 2 ^ 7) := by omega
  refine congrArg (Shifted.mk · (x.getLsbD 7)) (BitVec.eq_of_toNat_eq ?_)
  calc (x.toNat * 2 + cin.toNat) % 2 ^ 8
      = 2 ^ 1 * (x.toNat % 2 ^ 7) + cin.toNat := by omega
    _ = x.toNat * 2 % 2 ^ 8 ||| cin.toNat := by rw [hx, Nat.two_pow_add_eq_or_of_lt hc]
    _ = (x <<< 1 ||| carryByte cin).toNat := by
        rw [BitVec.toNat_or, BitVec.toNat_shiftLeft, Nat.shiftLeft_eq, toNat_carryByte, Nat.pow_one]

/-- The right moves: half the byte is below 128, so that adding it to the bit that enters is `OR`. -/
theorem shiftRight_eq (x : Byte) (cin : Bool) : shiftRight x cin = ⟨x >>> 1 ||| carryByte cin <<< 7, x.getLsbD 0⟩ := by
  have hx : x.toNat < 256 := x.isLt
  have hc : cin.toNat < 2 := cin.toNat_lt
  have hhalf : x.toNat / 2 < 2 ^ 7 := by omega
  have hcarry : cin.toNat * 2 ^ 7 % 2 ^ 8 = 2 ^ 7 * cin.toNat := by omega
  refine congrArg (Shifted.mk · (x.getLsbD 0)) (BitVec.eq_of_toNat_eq ?_)
  calc (cin.toNat * 128 + x.toNat / 2) % 2 ^ 8
      = 2 ^ 7 * cin.toNat + x.toNat / 2 := by omega
    _ = x.toNat / 2 ||| cin.toNat * 2 ^ 7 % 2 ^ 8 := by
        rw [hcarry, Nat.two_pow_add_eq_or_of_lt hhalf, Nat.or_comm]
    _ = (x >>> 1 ||| carryByte cin <<< 7).toNat := by
        rw [BitVec.toNat_or, BitVec.toNat_ushiftRight, BitVec.toNat_shiftLeft, Nat.shiftRight_eq_div_pow,
          Nat.shiftLeft_eq, toNat_carryByte, Nat.pow_one]

theorem rotLeftCarry_eq (x : Byte) (c : Bool) : rotLeftCarry x c = ⟨x <<< 1 ||| carryByte c, x.getLsbD 7⟩ :=
  shiftLeft_eq x c

theorem rotRightCarry_eq (x : Byte) (c : Bool) : rotRightCarry x c = ⟨x >>> 1 ||| carryByte c <<< 7, x.getLsbD 0⟩ :=
  shiftRight_eq x c

theorem rotLeft_eq (x : Byte) : rotLeft x = ⟨x.rotateLeft 1, x.getLsbD 7⟩ := by
  rw [rotLeft, shiftLeft_eq, carryByte_getLsbD_seven, BitVec.rotateLeft_def]

theorem rotRight_eq (x : Byte) : rotRight x = ⟨x.rotateRight 1, x.getLsbD 0⟩ := by
  rw [rotRight, shiftRight_eq, carryByte_getLsbD_zero_shiftLeft, BitVec.rotateRight_def]

theorem shiftLeftArith_eq (x : Byte) : shiftLeftArith x = ⟨x <<< 1, x.getLsbD 7⟩ := by
  rw [shiftLeftArith, shiftLeft_eq, carryByte_false, BitVec.or_zero]

theorem shiftRightLogic_eq (x : Byte) : shiftRightLogic x = ⟨x >>> 1, x.getLsbD 0⟩ := by
  rw [shiftRightLogic, shiftRight_eq, carryByte_false, BitVec.zero_shiftLeft, BitVec.or_zero]

/-- The byte shifted right with bit 7 kept is the shift of the signed number: below 128 nothing enters, and from 128 on
what enters is the 1 of bit 7. -/
theorem shiftRightArith_eq (x : Byte) : shiftRightArith x = ⟨x.sshiftRight 1, x.getLsbD 0⟩ := by
  have hsign : x.getLsbD 7 = x.msb := x.msb_eq_getLsbD_last.symm
  rw [shiftRightArith, hsign]
  cases h : x.msb with
  | false => rw [BitVec.sshiftRight_eq_of_msb_false h, ← shiftRightLogic_eq, shiftRightLogic]
  | true =>
    have hx : 128 ≤ x.toNat := BitVec.le_toNat_of_msb_true h
    refine congrArg (Shifted.mk · (x.getLsbD 0)) (BitVec.eq_of_toNat_eq ?_)
    rw [BitVec.toNat_sshiftRight_of_msb_true h, BitVec.toNat_ofNat, Nat.shiftRight_eq_div_pow, Bool.toNat_true]
    omega

/-! ### What the shapes of meanings write, and that they write nothing else -/

theorem State.writesR8_shiftR8 (s : State) (r : Reg8) (q : Shifted) :
    WritesR8 s (s.shiftR8 r q) r q.res { z := decide (q.res = 0), n := false, h := false, c := q.c } :=
  s.writesR8_setR8_setFlags ..

theorem State.accessesWithFlags_shiftAtHl {s : State} (hw : s.bus.mem.wf = true) (q : Shifted) :
    AccessesWithFlags s (s.shiftAtHl q) [.read s.hl, .write s.hl q.res]
      { z := decide (q.res = 0), n := false, h := false, c := q.c } :=
  State.accessesWithFlags_setAtHl hw ..

theorem State.writesR8_shiftAcc (s : State) (q : Shifted) :
    WritesR8 s (s.shiftAcc q) .a q.res { z := false, n := false, h := false, c := q.c } :=
  s.writesR8_setR8_setFlags ..

/-! ### The obligations

Each form is one shape of meaning, of a diagram whose result and carry the equations above name. -/

/-- Settles O27: every form is `State.shiftR8` of its diagram. -/
theorem shiftsOfRegister : Obligations.ShiftsOfRegister := by
  intro s r x shifts
  have shifts_of {i : Instr} {q : Shifted} {v : Byte} {c : Bool} (hq : q = ⟨v, c⟩)
      (h : exec i s = .next (s.shiftR8 r q)) : shifts i v c := by
    subst hq
    exact ⟨_, h, s.writesR8_shiftR8 ..⟩
  exact ⟨shifts_of (rotLeftCarry_eq x s.f.c) rfl, shifts_of (rotLeft_eq x) rfl,
    shifts_of (rotRightCarry_eq x s.f.c) rfl, shifts_of (rotRight_eq x) rfl,
    shifts_of (shiftLeftArith_eq x) rfl, shifts_of (shiftRightArith_eq x) rfl, shifts_of (shiftRightLogic_eq x) rfl⟩

/-- Settles O28: every form is `State.shiftAtHl` of its diagram. -/
theorem shiftsOfMemory : Obligations.ShiftsOfMemory := by
  intro s hw x shifts
  have shifts_of {i : Instr} {q : Shifted} {v : Byte} {c : Bool} (hq : q = ⟨v, c⟩)
      (h : exec i s = .next (s.shiftAtHl q)) : shifts i v c := by
    subst hq
    exact ⟨_, h, State.accessesWithFlags_shiftAtHl hw _⟩
  exact ⟨shifts_of (rotLeftCarry_eq x s.f.c) rfl, shifts_of (rotLeft_eq x) rfl,
    shifts_of (rotRightCarry_eq x s.f.c) rfl, shifts_of (rotRight_eq x) rfl,
    shifts_of (shiftLeftArith_eq x) rfl, shifts_of (shiftRightArith_eq x) rfl, shifts_of (shiftRightLogic_eq x) rfl⟩

/-- Settles O29: every form is `State.shiftAcc` of its diagram, whose flags do not look at the result for `Z`. -/
theorem accumulatorRotatesClearZ : Obligations.AccumulatorRotatesClearZ := by
  intro s rotates
  have rotates_of {i : Instr} {q : Shifted} {v : Byte} {c : Bool} (hq : q = ⟨v, c⟩)
      (h : exec i s = .next (s.shiftAcc q)) : rotates i v c := by
    subst hq
    exact ⟨_, h, s.writesR8_shiftAcc _⟩
  exact ⟨rotates_of (rotLeftCarry_eq s.acc s.f.c) rfl, rotates_of (rotLeft_eq s.acc) rfl,
    rotates_of (rotRightCarry_eq s.acc s.f.c) rfl, rotates_of (rotRight_eq s.acc) rfl⟩

end Sys2Proof.Machine
end

section
/-! The loads and stores of one byte, and of a register or a pair from a register or an immediate (44_loads.md): what
a store alone changes, then the obligations. -/

namespace Sys2Proof.Machine

/-! ### What a store changes -/

/-- A byte stored, and no flag: the same as with the old flags written back. -/
theorem State.accessesWithFlags_write {s : State} (hw : s.bus.mem.wf = true) (a : Word) (v : Byte) :
    AccessesWithFlags s (s.write a v) [.write a v] s.f :=
  ⟨Accesses.of_bus hw rfl, rfl⟩

/-! ### The obligations -/

/-- Settles O30: the register or the pair is written, and the flags are not. -/
theorem registerLoadsCopy : Obligations.RegisterLoadsCopy := by
  intro s
  exact ⟨fun _ _ => ⟨_, rfl, s.writesR8_setR8 ..⟩, fun _ _ => ⟨_, rfl, s.writesR8_setR8 ..⟩,
    fun _ _ => ⟨_, rfl, s.writesR16_setR16 ..⟩⟩

/-- Settles O31: every form writes a register alone, in the state after the read of the byte that it writes; the
address of the `LDH` forms is `highPage` of their byte. -/
theorem memoryLoadsReadByte : Obligations.MemoryLoadsReadByte := by
  intro s loads
  have loads_of {i : Instr} {r : Reg8} {a : Word}
      (h : exec i s = .next ((s.seen [.read a]).setR8 r (s.read a))) : loads i r a :=
    ⟨_, h, (s.seen [.read a]).writesR8_setR8 ..⟩
  exact ⟨fun _ => loads_of rfl, fun _ => loads_of rfl, fun _ => loads_of rfl, fun _ => loads_of rfl, loads_of rfl⟩

/-- Settles O32: every form is `State.write` at its address, which is `highPage` of the byte of the `LDH` forms. -/
theorem storesWriteOneByte : Obligations.StoresWriteOneByte := by
  intro s hw stores
  have stores_of {i : Instr} {a : Word} {v : Byte} (h : exec i s = .next (s.write a v)) : stores i a v :=
    ⟨_, h, State.accessesWithFlags_write hw a v⟩
  exact ⟨fun _ => stores_of rfl, fun _ => stores_of rfl, fun _ => stores_of rfl, fun _ => stores_of rfl,
    fun _ => stores_of rfl, stores_of rfl⟩

end Sys2Proof.Machine
end

section
/-! The jumps (45_jumps.md): a jump under a condition as one write of `PC`, then the obligation. -/

namespace Sys2Proof.Machine

/-! ### A jump under a condition -/

/-- Untaken, `PC` is written back as it was: so a conditional jump writes `PC`, and nothing else, either way. -/
theorem State.ite_jump (s : State) (taken : Bool) (n : Word) :
    (if taken then s.jump n else s) = { s with pc := if taken then n else s.pc } := by
  cases taken with
  | true => rfl
  | false => rfl

/-! ### The obligation -/

/-- Settles O34: `JP n16` and `JP HL` are `State.jump`; so is `JP cc,n16` where `Flags.holds` of its condition, which
is the flag or its negation, says so. -/
theorem jumpsWritePc : Obligations.JumpsWritePc := by
  intro s n jumpsIf
  have jumps_of {cc : Cond} {taken : Bool} (hcc : s.f.holds cc = taken) : jumpsIf cc taken := by
    subst hcc
    exact congrArg Host.Outcome.next (s.ite_jump (s.f.holds cc) n)
  exact ⟨rfl, rfl, jumps_of rfl, jumps_of rfl, jumps_of rfl, jumps_of rfl⟩

end Sys2Proof.Machine
end

section
/-! The arithmetic on `SP` and the loads of it (46_stack.md): the obligation. -/

namespace Sys2Proof.Machine

/-- Settles O39: `INC SP` and `DEC SP` write `SP` with `inc16` and `dec16` of it; the loads write it with their
operand as it is. -/
theorem spArithmeticAndLoads : Obligations.SpArithmeticAndLoads := by
  intro s
  rw [← inc16_eq, ← dec16_eq]
  exact ⟨rfl, rfl, fun _ => rfl, rfl⟩

end Sys2Proof.Machine
end

section
/-! The carry operations, `CPL` and `NOP` (47_misc.md): the complement as R261 writes it, then the obligation. -/

namespace Sys2Proof.Machine

/-! ### What the helper computes, as arithmetic of bytes -/

/-- R261 writes the complement as a subtraction from 255. -/
theorem not_eq_ofNat_sub (x : Byte) : ~~~x = BitVec.ofNat 8 (255 - x.toNat) := by
  have toNat_compl : (~~~x).toNat = 255 - x.toNat := BitVec.toNat_not
  rw [← toNat_compl, BitVec.ofNat_toNat, BitVec.setWidth_eq]

/-! ### The obligation -/

/-- Settles O44: `CCF` and `SCF` are `State.setFlags`, `CPL` is one write of `A` and of the flags, and `NOP` answers
the state it was given. -/
theorem carryOpsComplementAndNop : Obligations.CarryOpsComplementAndNop := by
  intro s
  rw [← not_eq_ofNat_sub]
  exact ⟨rfl, rfl, ⟨_, rfl, s.writesR8_setR8_setFlags ..⟩, rfl⟩

end Sys2Proof.Machine
end

section
/-! The whole-machine tables of 10_state.md and 20_memory.md (R40, R41, R59): what each instruction may write, by one
case split over the instructions for each table. The cases are grouped as the tables' own rows are. -/

namespace Sys2Proof.Machine

/-! ### Where an instruction that may stop goes on -/

/-- An illegal byte answers a next state only where `IllegalOpcode` is `stuck`: the locked-up one (R100). -/
theorem State.illegal_eq_next {s t : State} {b : Byte} (h : s.illegal b = .next t) : t = s.lockUp := by
  unfold State.illegal at h
  split at h <;> cases h
  rfl

theorem execStop_eq_next {s t : State} {pad : Byte} (h : execStop pad s = .next t) :
    t = { s with mode := .stopped } := by
  unfold execStop at h
  split at h <;> cases h
  rfl

/-! ### Flags -/

theorem FlagEffect.kept_allows (b : Bool) : FlagEffect.kept.allows b b = true := beq_self_eq_true b

theorem FlagEffect.complemented_allows (b : Bool) : FlagEffect.complemented.allows b (!b) = true :=
  beq_self_eq_true (!b)

/-- Settles O56: by the rows of the flag table. -/
theorem flagTableHolds : Obligations.FlagTableHolds := by
  intro i s t h
  have kept := FlagEffect.kept_allows
  have all_kept (hf : t.f = s.f) : FlagEffect.kept.allows s.f.z t.f.z = true ∧
      FlagEffect.kept.allows s.f.n t.f.n = true ∧ FlagEffect.kept.allows s.f.h t.f.h = true ∧
      FlagEffect.kept.allows s.f.c t.f.c = true := by
    rw [hf]
    exact ⟨kept _, kept _, kept _, kept _⟩
  cases i with
  | adcAR8 | adcAHl | adcAN8 | addAR8 | addAHl | addAN8 | subAR8 | subAHl | subAN8 | sbcAR8 | sbcAHl | sbcAN8
  | cpAR8 | cpAHl | cpAN8 | andAR8 | andAHl | andAN8 | orAR8 | orAHl | orAN8 | xorAR8 | xorAHl | xorAN8
  | addSpE8 | ldHlSpE8 | swapR8 | swapHl | rlR8 | rlHl | rlcR8 | rlcHl | rrR8 | rrHl | rrcR8 | rrcHl | slaR8 | slaHl
  | sraR8 | sraHl | srlR8 | srlHl | rla | rlca | rra | rrca | popAf => cases h; exact ⟨rfl, rfl, rfl, rfl⟩
  | incR8 | incHlInd | decR8 | decHlInd | bitR8 | bitHl => cases h; exact ⟨rfl, rfl, rfl, kept _⟩
  | addHlR16 | addHlSp | scf => cases h; exact ⟨kept _, rfl, rfl, rfl⟩
  | ccf => cases h; exact ⟨kept _, rfl, rfl, FlagEffect.complemented_allows _⟩
  | cpl => cases h; exact ⟨kept _, rfl, rfl, kept _⟩
  | daa => cases h; exact ⟨rfl, kept _, rfl, rfl⟩
  | callCcN16 cc | jpCcN16 cc | jrCcE8 cc | retCc cc | halt => cases h; apply all_kept; split <;> rfl
  | stop => exact all_kept (by rw [execStop_eq_next h])
  | illegalD3 | illegalDB | illegalDD | illegalE3 | illegalE4 | illegalEB | illegalEC | illegalED | illegalF4
  | illegalFC | illegalFD => exact all_kept (by rw [State.illegal_eq_next h, State.lockUp_f])
  | _ => cases h; exact all_kept rfl

/-! ### Hidden bits, modes and parameters -/

theorem mem_illegalInstrs_iff (i : Instr) : i ∈ illegalInstrs ↔
    i = .illegalD3 ∨ i = .illegalDB ∨ i = .illegalDD ∨ i = .illegalE3 ∨ i = .illegalE4 ∨ i = .illegalEB ∨
      i = .illegalEC ∨ i = .illegalED ∨ i = .illegalF4 ∨ i = .illegalFC ∨ i = .illegalFD := by
  simp [illegalInstrs, illegalBytes]

/-- Settles O57: the five instructions that are named, the illegal bytes, and the rest, which write none of these. -/
theorem controlStateFrames : Obligations.ControlStateFrames := by
  intro i s t h
  cases i with
  | di | reti | ei => cases h; simp
  | halt => cases h; simp; split <;> simp
  | stop pad => simp [execStop_eq_next h]
  | illegalD3 | illegalDB | illegalDD | illegalE3 | illegalE4 | illegalEB | illegalEC | illegalED | illegalF4
  | illegalFC | illegalFD => simp [State.illegal_eq_next h, mem_illegalInstrs_iff]
  | callCcN16 cc | jpCcN16 cc | jrCcE8 cc | retCc cc =>
    cases h
    split <;> exact ⟨fun _ _ => rfl, fun _ _ => rfl, fun _ _ _ => rfl, fun _ => rfl, rfl, rfl⟩
  | _ => cases h; exact ⟨fun _ _ => rfl, fun _ _ => rfl, fun _ _ _ => rfl, fun _ => rfl, rfl, rfl⟩

/-! ### `SP`, `PC` and the registers -/

/-- Settles O58: the instructions that write `SP`, those that write `PC`, and the rest, which write neither. -/
theorem spAndPcFrames : Obligations.SpAndPcFrames := by
  intro i s t h
  cases i with
  | callN16 | rst | ret | reti | callCcN16 | retCc => exact ⟨nofun, nofun⟩
  | jpN16 | jpHl | jrE8 => cases h; exact ⟨fun _ => rfl, nofun⟩
  | jpCcN16 cc | jrCcE8 cc => cases h; exact ⟨fun _ => by split <;> rfl, nofun⟩
  | addSpE8 | decSp | incSp | ldSpN16 | ldSpHl | popAf | popR16 | pushAf | pushR16 =>
    cases h; exact ⟨nofun, fun _ => rfl⟩
  | halt => cases h; split <;> exact ⟨fun _ => rfl, fun _ => rfl⟩
  | stop pad => simp [execStop_eq_next h]
  | illegalD3 | illegalDB | illegalDD | illegalE3 | illegalE4 | illegalEB | illegalEC | illegalED | illegalF4
  | illegalFC | illegalFD => simp [State.illegal_eq_next h]
  | _ => cases h; exact ⟨fun _ => rfl, fun _ => rfl⟩

theorem Regs.get_set_of_notMem (g : Regs) {r q : Reg8} (v : Byte) (h : q ∉ [r]) : (g.set r v).get q = g.get q :=
  g.get_set_ne v (by simpa using h)

/-- Settles O59: a destination is one register, a pair, or `A` and `HL`; the rest write none. -/
theorem registerFrames : Obligations.RegisterFrames := by
  intro i s t h q hq
  cases i with
  | adcAR8 | adcAHl | adcAN8 | addAR8 | addAHl | addAN8 | subAR8 | subAHl | subAN8 | sbcAR8 | sbcAHl | sbcAN8
  | andAR8 | andAHl | andAN8 | orAR8 | orAHl | orAN8 | xorAR8 | xorAHl | xorAN8 | rla | rlca | rra | rrca
  | daa | cpl | ldAR16 | ldAN16 | ldhAN8 | ldhAC | popAf | incR8 | decR8 | resR8 | setR8 | swapR8 | rlR8 | rlcR8
  | rrR8 | rrcR8 | slaR8 | sraR8 | srlR8 | ldR8R8 | ldR8N8 | ldR8Hl =>
    cases h; exact s.regs.get_set_of_notMem _ hq
  | incR16 | decR16 | ldR16N16 | popR16 => cases h; exact s.regs.get_set16_of_not_mem_halves _ hq
  | addHlR16 | addHlSp | ldHlSpE8 | ldHliA | ldHldA =>
    cases h; exact s.regs.get_set16_of_not_mem_halves (p := .hl) _ hq
  | ldAHli | ldAHld =>
    cases h
    have ha : q ≠ .a := List.ne_of_not_mem_cons hq
    have hhl : q ∉ halves .hl := List.not_mem_of_not_mem_cons hq
    exact ((s.regs.set .a s.atHl).get_set16_of_not_mem_halves (p := .hl) _ hhl).trans (s.regs.get_set_ne _ ha)
  | callCcN16 cc | jpCcN16 cc | jrCcE8 cc | retCc cc | halt => cases h; split <;> rfl
  | stop => rw [execStop_eq_next h]; rfl
  | illegalD3 | illegalDB | illegalDD | illegalE3 | illegalE4 | illegalEB | illegalEC | illegalED | illegalF4
  | illegalFC | illegalFD => rw [State.illegal_eq_next h]; rfl
  | _ => cases h; rfl

end Sys2Proof.Machine
end

section
/-! The data accesses of every instruction (20_memory.md R59): by one case split the bus after an instruction is the bus
after its listed accesses, and what such accesses leave unchanged is the same for all instructions. -/

namespace Sys2Proof.Machine

/-! ### The stack, with `SP` moved by two -/

theorem sub_one_sub_one (v : Word) : v - 1 - 1 = v - 2 := by bv_omega

theorem State.push16_bus_eq (s : State) (v : Word) :
    (s.push16 v).bus = s.bus.after [.write (s.sp - 1) (hiByte v), .write (s.sp - 2) (loByte v)] := by
  rw [State.push16_bus, sub_one_sub_one]

theorem State.popPc_bus (s : State) : s.popPc.bus = s.bus.after [.read s.sp, .read (s.sp + 1)] := by
  rw [State.popPc_eq]
  rfl

/-! ### Every instruction -/

/-- The bus after an instruction is the bus after the accesses that R59 lists for it. -/
theorem exec_bus {i : Instr} {s t : State} (h : exec i s = .next t) :
    ∃ es : List Access, es.map dataAccess = (accesses s i).map some ∧ t.bus = s.bus.after es := by
  cases i with
  | adcAHl | addAHl | andAHl | cpAHl | orAHl | sbcAHl | subAHl | xorAHl | bitHl | ldR8Hl | ldAHli | ldAHld =>
    cases h; exact ⟨[.read s.hl], rfl, rfl⟩
  | incHlInd | decHlInd | resHl | setHl | swapHl | rlHl | rlcHl | rrHl | rrcHl | slaHl | sraHl | srlHl =>
    cases h; exact ⟨[.read s.hl, .write s.hl _], rfl, rfl⟩
  | ldHlR8 | ldHlN8 | ldHliA | ldHldA | ldR16A | ldN16A | ldhN8A | ldhCA => cases h; exact ⟨[.write _ _], rfl, rfl⟩
  | ldAR16 | ldAN16 | ldhAN8 | ldhAC => cases h; exact ⟨[.read _], rfl, rfl⟩
  | ldN16Sp n => cases h; exact ⟨[.write n (loByte s.sp), .write (n + 1) (hiByte s.sp)], rfl, rfl⟩
  | pushAf | pushR16 | callN16 | rst => cases h; exact ⟨_, rfl, s.push16_bus_eq _⟩
  | popAf | popR16 | ret | reti => cases h; exact ⟨_, rfl, s.popPc_bus⟩
  | callCcN16 cc =>
    cases h
    simp only [accesses]
    split
    · exact ⟨_, rfl, s.push16_bus_eq _⟩
    · exact ⟨[], rfl, rfl⟩
  | retCc cc =>
    cases h
    simp only [accesses]
    split
    · exact ⟨_, rfl, s.popPc_bus⟩
    · exact ⟨[], rfl, rfl⟩
  | jpCcN16 cc | jrCcE8 cc | halt => cases h; exact ⟨[], rfl, by split <;> rfl⟩
  | stop => exact ⟨[], rfl, by rw [execStop_eq_next h]; rfl⟩
  | illegalD3 | illegalDB | illegalDD | illegalE3 | illegalE4 | illegalEB | illegalEC | illegalED | illegalF4
  | illegalFC | illegalFD => exact ⟨[], rfl, by rw [State.illegal_eq_next h]; rfl⟩
  | _ => cases h; exact ⟨[], rfl, rfl⟩

/-! ### What the listed accesses leave unchanged -/

/-- A store that does not hit an address leaves the byte of memory that the address shows. -/
theorem Bus.cellStep_write_of_not_hits {s : State} {a b d : Word} {k : Wiring} (hb : s.bus.place b = .cell d k)
    (ha : s.bus.place a ≠ .device) (h : s.hits a b = false) (past : List Access) (v w : Byte) :
    s.bus.cellStep d past v (.write a w) = v := by
  cases hp : s.bus.place a with
  | device => exact absurd hp ha
  | cell c l =>
    simp only [Bus.cellStep, hp]
    split
    · have hl : l.writable = 0#8 := by simpa [State.hits, hp, hb, ‹c = d›] using h
      exact Wiring.stores_none hl v w
    · rfl

/-- Where no data access of an instruction goes to a device, none of them is seen by one or changes a byte of memory that
no store hits. -/
theorem dataAccess_keeps_cell {i : Instr} {s : State} {es : List Access} {b d : Word} {k : Wiring}
    (hes : es.map dataAccess = (accesses s i).map some) (hdev : touchesDevice s i = false)
    (hb : s.bus.place b = .cell d k) (hhits : ∀ a ∈ storesTo s i, s.hits a b = false) {e : Access} (he : e ∈ es) :
    s.bus.onDevice e = false ∧ ∀ past v, s.bus.cellStep d past v e = v := by
  have hmem : dataAccess e ∈ (accesses s i).map some := hes ▸ List.mem_map_of_mem he
  obtain ⟨x, hx, hxe⟩ := List.mem_map.1 hmem
  have not_device := List.any_eq_false.1 hdev x hx
  cases e with
  | read a =>
    cases hxe
    have ha : s.bus.place a ≠ .device := by simpa using not_device
    have hseen : s.bus.onDevice (.read a) = false := by simp [Bus.onDevice, ha]
    exact ⟨hseen, fun _ _ => by simp [Bus.cellStep, hseen]⟩
  | write a w =>
    cases hxe
    have ha : s.bus.place a ≠ .device := by simpa using not_device
    have hstore : a ∈ storesTo s i := List.mem_filterMap.2 ⟨_, hx, rfl⟩
    exact ⟨by simp [Bus.onDevice, ha], fun _ _ => Bus.cellStep_write_of_not_hits hb ha (hhits a hstore) ..⟩
  | ack | turn => cases hxe

/-- Settles O60: what the bus comes to is `exec_bus`; that a byte stays is then a fact about accesses alone. -/
theorem memoryFrames : Obligations.MemoryFrames := by
  intro i s t hw h
  obtain ⟨es, hes, hbus⟩ := exec_bus h
  have hacc : Accesses s t es := Accesses.of_bus hw hbus
  refine ⟨⟨es, hes, hacc⟩, fun hdev b hb hhits => ?_⟩
  cases hp : s.bus.place b with
  | device => exact absurd hp hb
  | cell d k =>
    obtain ⟨-, hread, -⟩ := hacc
    rw [hread b d k hp, Bus.cellAfter_same _ _ _ _ _ fun e he => dataAccess_keeps_cell hes hdev hp hhits he]
    exact (Bus.read_cell hp).symm

end Sys2Proof.Machine
end

section
/-! The invariant of the machine: at reset, along every instruction and along every step. -/

namespace Sys2Proof.Machine

/-- Settles O1: every field is the one that `ResetState`, or `State.afterReset` itself, gives. -/
theorem resetLeavesRunningAtResetPc : Obligations.ResetLeavesRunningAtResetPc :=
  ⟨⟨rfl, rfl, rfl, rfl, rfl⟩, fun _ _ _ _ => ⟨rfl, rfl, rfl, rfl, rfl, rfl, rfl, rfl⟩⟩

/-- Settles O8: the reset memory lists nothing, and no reset arms the HALT bug. -/
theorem resetMeetsInv : Obligations.ResetMeetsInv :=
  ⟨⟨rfl, nofun⟩, fun _ _ _ _ hw => ⟨hw, nofun⟩⟩

/-! ### Instructions -/

/-- Every instruction keeps memory canonical: all that it does to the bus is its accesses. -/
theorem wf_exec {i : Instr} {s t : State} (h : exec i s = .next t) (hw : s.bus.mem.wf = true) :
    t.bus.mem.wf = true := by
  obtain ⟨es, -, hbus⟩ := exec_bus h
  rw [hbus]
  exact Bus.wf_after es hw

/-- `HALT` in its two outcomes (47_misc.md R265): the CPU halts, or, with an interrupt pending, the HALT bug is armed. -/
theorem execHalt_cases (s : State) :
    ((s.ime = true ∨ s.pending = false) ∧ exec .halt s = .next { s with mode := .halted }) ∨
    (s.ime = false ∧ s.pending = true ∧ exec .halt s = .next { s with haltBug := true }) := by
  simp only [exec, execHalt]
  cases s.ime <;> cases s.pending <;> simp

/-- The instruction of a running CPU whose HALT bug was disarmed at the fetch keeps the invariant: only `HALT` arms the
bug, and it does so only with an interrupt pending. -/
theorem exec_keeps_inv {i : Instr} {s t : State} (h : exec i s = .next t) (hw : s.bus.mem.wf = true)
    (hmode : s.mode = .running) (hbug : s.haltBug = false) : t.Inv := by
  refine ⟨wf_exec h hw, fun harmed => ?_⟩
  by_cases hi : i = .halt
  · subst hi
    obtain ⟨-, he⟩ | ⟨-, hp, he⟩ := execHalt_cases s
    · cases he.symm.trans h
      exact absurd (hbug.symm.trans harmed) Bool.false_ne_true
    · cases he.symm.trans h
      exact ⟨hmode, hp⟩
  · obtain ⟨-, -, -, hkept, -⟩ := controlStateFrames i s t h
    exact absurd (hbug.symm.trans ((hkept hi).symm.trans harmed)) Bool.false_ne_true

/-! ### Steps -/

theorem State.Inv.landEi {t : State} (h : t.Inv) (eip : Bool) : (t.landEi eip).Inv := by
  obtain ⟨hw, hbug⟩ := h
  have hp : (t.landEi eip).pending = t.pending := State.pending_congr (t.landEi_bus eip) (t.landEi_params eip)
  simp only [State.Inv, State.landEi_bus, State.landEi_haltBug, State.landEi_mode, hp]
  exact ⟨hw, hbug⟩

/-- A turn of the platform arms no HALT bug. -/
theorem State.arrive_haltBug (s : State) : s.arrive.haltBug = s.haltBug := by rw [State.arrive_frame]

/-- In a mode other than running, the HALT bug is not armed: nor is it after a turn of the platform, which changes no
mode but that of a stopped CPU. -/
theorem State.Inv.arrive_haltBug_eq_false {s : State} (h : s.Inv) (hm : s.arrive.mode ≠ .running) :
    s.arrive.haltBug = false := by
  rw [State.arrive_haltBug, Bool.eq_false_iff]
  intro hbug
  obtain ⟨hrun, -⟩ := h.2 hbug
  exact hm ((State.arrive_mode (by simp [hrun])).trans hrun)

theorem State.faultedStep_eq_next {s t : State} (h : s.faultedStep = .next t) : t = s := by
  unfold State.faultedStep at h
  split at h <;> cases h
  rfl

theorem State.stoppedStep_eq_next {s t : State} (h : s.stoppedStep = .next t) : t = s := by
  unfold State.stoppedStep at h
  split at h <;> cases h <;> rfl

/-- Settles O7: a step answers the state after the platform's turn in a mode other than running, a dispatch, which
disarms the HALT bug, or what an instruction leaves, whose fetch has disarmed it. -/
theorem stepKeepsInv : Obligations.StepKeepsInv := by
  intro s t hinv h
  have hw : s.arrive.bus.mem.wf = true := State.wf_arrive hinv.1
  have idle_inv (hm : s.arrive.mode ≠ .running) : s.arrive.Inv :=
    ⟨hw, by simp [hinv.arrive_haltBug_eq_false hm]⟩
  obtain ⟨hm, he⟩ | ⟨hm, he⟩ | ⟨hm, -, he⟩ | ⟨-, i, -, -, he⟩ | ⟨-, i, rest, -, he⟩ := step_cases s
  case inl =>
    rw [State.faultedStep_eq_next (he.symm.trans h)]
    exact idle_inv (by simp [hm])
  case inr.inl =>
    rw [State.stoppedStep_eq_next (he.symm.trans h)]
    exact idle_inv (by simp [hm])
  case inr.inr.inl =>
    cases he.symm.trans h
    exact idle_inv (by simp [hm])
  case inr.inr.inr.inl =>
    cases he.symm.trans h
    exact ⟨State.wf_takeInterrupt i hw, by simp⟩
  case inr.inr.inr.inr =>
    obtain ⟨u, hu, rfl⟩ := afterInstr_eq_next.1 (he.symm.trans h)
    exact (exec_keeps_inv hu (State.wf_fetched rest hw) rfl rfl).landEi _

end Sys2Proof.Machine
end

section
/-! The decoder and the encoder are each other's inverse (30_encoding.md sections 3 to 5). From instructions to bytes by
a case split over the instructions; from bytes to instructions by the fields of the opcode map. -/

namespace Sys2Proof

/-! ### What the decoder reads back of each form of encoding -/

theorem decode_enc16 {op : Nat} {k : Word → Instr} (h : decodeFirst (BitVec.ofNat 8 op) = .imm16 k) (n : Word)
    (rest : List Byte) : decode (enc16 op n ++ rest) = .ok (k n, rest) := by
  simp only [enc16, List.cons_append, List.nil_append, decode, h, Machine.joinBytes_hi_lo]

theorem decode_encCb {op2 : Nat} {i : Instr} (h : decodeCb (BitVec.ofNat 8 op2) = i) (rest : List Byte) :
    decode (encCb op2 ++ rest) = .ok (i, rest) := by
  subst h
  rfl

/-- A restart target is eight times the number in its opcode (R87). -/
theorem exists_rst_vector {vec : Word} (h : isRstVector vec = true) :
    ∃ k : Fin 8, vec = BitVec.ofNat 16 (8 * k.val) := by
  simp only [isRstVector, decide_eq_true_eq] at h
  obtain ⟨h8, h64⟩ := h
  refine ⟨⟨vec.toNat / 8, by omega⟩, ?_⟩
  rw [show 8 * (vec.toNat / 8) = vec.toNat by omega, BitVec.ofNat_toNat, BitVec.setWidth_eq]

/-- Settles O3: by the operands. An immediate is read back as it stands, the word of an `enc16` joined again; the other
operands have finitely many values, and the opcode map sends each back. -/
theorem decodeOfEncode : Obligations.DecodeOfEncode := by
  intro i rest hwf
  cases i with
  | adcAR8 r | addAR8 r | andAR8 r | cpAR8 r | decR8 r | incR8 r | orAR8 r | sbcAR8 r | subAR8 r | xorAR8 r
  | swapR8 r | rlR8 r | rlcR8 r | rrR8 r | rrcR8 r | slaR8 r | sraR8 r | srlR8 r | ldR8N8 r | ldHlR8 r | ldR8Hl r =>
    cases r <;> rfl
  | addHlR16 p | decR16 p | incR16 p | popR16 p | pushR16 p => cases p <;> rfl
  | jrCcE8 cc | retCc cc => cases cc <;> rfl
  | ldR8R8 dst src => cases dst <;> cases src <;> rfl
  | ldR16A p | ldAR16 p =>
    cases p with
    | bc | de => rfl
    | hl => cases hwf
  | bitR8 u r | resR8 u r | setR8 u r => exact decode_encCb (by cases r <;> revert u <;> decide) rest
  | bitHl u | resHl u | setHl u => exact decode_encCb (by revert u; decide) rest
  | ldR16N16 p n => cases p <;> exact decode_enc16 rfl n rest
  | callCcN16 cc n | jpCcN16 cc n => cases cc <;> exact decode_enc16 rfl n rest
  | ldN16A n | ldAN16 n | callN16 n | jpN16 n | ldSpN16 n | ldN16Sp n => exact decode_enc16 rfl n rest
  | rst vec =>
    obtain ⟨k, rfl⟩ := exists_rst_vector hwf
    match k with
    | 0 | 1 | 2 | 3 | 4 | 5 | 6 | 7 => rfl
  | _ => rfl

/-! ### The rows of the opcode map -/

/-- The opcode byte with the fields `xx yyy zzz` (R91, R94). -/
def opcode (x y z : Nat) : Byte := BitVec.ofNat 8 (64 * x + 8 * y + z)

theorem opcode_fields (b : Byte) : opcode (byteField b 6 2) (byteField b 3 3) (byteField b 0 3) = b := by
  apply BitVec.eq_of_toNat_eq
  simp only [opcode, byteField, BitVec.toNat_ofNat]
  omega

/-- The three bits of an opcode from `lo` on, as one of the eight values they can have. -/
def octal (b : Byte) (lo : Nat) : Fin 8 := ⟨byteField b lo 3, Nat.mod_lt _ (by decide)⟩

/-- What a first byte and the word of the two bytes after it come to: the instruction, and the bytes of the word that it
takes. -/
def Shape.reading (n : Word) : Shape → Instr × List Byte
  | .plain i => (i, [])
  | .imm8 k => (k (loByte n), [loByte n])
  | .imm16 k => (k n, [loByte n, hiByte n])
  | .prefixed => (decodeCb (loByte n), [loByte n])

/-- The byte `b` of shape `sh` is the first byte of an encoding, whatever bytes follow it. -/
def Shape.EncodedBy (b : Byte) (sh : Shape) : Prop :=
  ∀ n, (sh.reading n).1.wellFormed = true ∧ encode (sh.reading n).1 = b :: (sh.reading n).2

/-- All 256 second bytes after $CB (R94). -/
theorem decodeCb_encoded : ∀ b : Byte, (decodeCb b).wellFormed = true ∧ encode (decodeCb b) = [0xCB#8, b] := by
  decide +kernel

theorem decodeBlock0_encoded {b : Byte} (y z : Fin 8) (hb : opcode 0 y z = b) : (decodeBlock0 y z).EncodedBy b := by
  subst hb
  match z with
  | 0 | 1 | 2 | 3 | 4 | 5 | 6 | 7 =>
    match y with
    | 0 | 1 | 2 | 3 | 4 | 5 | 6 | 7 => exact fun _ => ⟨rfl, rfl⟩

theorem decodeBlock1_encoded {b : Byte} (y z : Fin 8) (hb : opcode 1 y z = b) : (decodeBlock1 y z).EncodedBy b := by
  subst hb
  match z with
  | 0 | 1 | 2 | 3 | 4 | 5 | 6 | 7 =>
    match y with
    | 0 | 1 | 2 | 3 | 4 | 5 | 6 | 7 => exact fun _ => ⟨rfl, rfl⟩

theorem decodeBlock2_encoded {b : Byte} (y z : Fin 8) (hb : opcode 2 y z = b) : (decodeBlock2 y z).EncodedBy b := by
  subst hb
  match z with
  | 0 | 1 | 2 | 3 | 4 | 5 | 6 | 7 =>
    match y with
    | 0 | 1 | 2 | 3 | 4 | 5 | 6 | 7 => exact fun _ => ⟨rfl, rfl⟩

/-- Block 3 has the one byte, $CB, whose instruction is told by the next. -/
theorem decodeBlock3_encoded {b : Byte} (y z : Fin 8) (hb : opcode 3 y z = b) : (decodeBlock3 y z).EncodedBy b := by
  subst hb
  match z with
  | 3 =>
    match y with
    | 1 => exact fun n => decodeCb_encoded (loByte n)
    | 0 | 2 | 3 | 4 | 5 | 6 | 7 => exact fun _ => ⟨rfl, rfl⟩
  | 0 | 1 | 2 | 4 | 5 | 6 | 7 =>
    match y with
    | 0 | 1 | 2 | 3 | 4 | 5 | 6 | 7 => exact fun _ => ⟨rfl, rfl⟩

/-- Every first byte is that of an encoding (R92, R96). -/
theorem decodeFirst_encoded (b : Byte) : (decodeFirst b).EncodedBy b := by
  have hb := opcode_fields b
  have hblock : byteField b 6 2 < 4 := Nat.mod_lt _ (by decide)
  unfold decodeFirst
  obtain h | h | h | h : byteField b 6 2 = 0 ∨ byteField b 6 2 = 1 ∨ byteField b 6 2 = 2 ∨ byteField b 6 2 = 3 := by
    omega
  all_goals rw [h] at hb ⊢
  · exact decodeBlock0_encoded (octal b 3) (octal b 0) hb
  · exact decodeBlock1_encoded (octal b 3) (octal b 0) hb
  · exact decodeBlock2_encoded (octal b 3) (octal b 0) hb
  · exact decodeBlock3_encoded (octal b 3) (octal b 0) hb

/-- The decoder's answer is the reading of the first byte's shape, for some word. -/
theorem decode_cons_eq_ok {b : Byte} {more rest : List Byte} {i : Instr} (h : decode (b :: more) = .ok (i, rest)) :
    ∃ n, i = ((decodeFirst b).reading n).1 ∧ more = ((decodeFirst b).reading n).2 ++ rest := by
  cases hs : decodeFirst b <;> simp only [decode, hs] at h
  case plain => cases h; exact ⟨0, rfl, rfl⟩
  case imm8 =>
    match more with
    | [] => cases h
    | lo :: _ => cases h; exact ⟨joinBytes 0 lo, by simp [Shape.reading], by simp [Shape.reading]⟩
  case imm16 =>
    match more with
    | [] | [_] => cases h
    | lo :: hi :: _ => cases h; exact ⟨joinBytes hi lo, by simp [Shape.reading], by simp [Shape.reading]⟩
  case prefixed =>
    match more with
    | [] => cases h
    | op2 :: _ => cases h; exact ⟨joinBytes 0 op2, by simp [Shape.reading], by simp [Shape.reading]⟩

/-- Settles O4: what the decoder answers is a reading of the first byte's shape, and every reading is an encoding. -/
theorem encodeOfDecode : Obligations.EncodeOfDecode := by
  intro bs i rest h
  cases bs with
  | nil => cases h
  | cons b more =>
    obtain ⟨n, rfl, rfl⟩ := decode_cons_eq_ok h
    obtain ⟨hwf, henc⟩ := decodeFirst_encoded b n
    exact ⟨hwf, by rw [henc]; rfl⟩

/-! ### The illegal bytes -/

theorem decode_total (b x y : Byte) (more : List Byte) : ∃ i rest, decode (b :: x :: y :: more) = .ok (i, rest) := by
  simp only [decode]
  cases decodeFirst b <;> exact ⟨_, _, rfl⟩

theorem encode_illegal : ∀ p ∈ Machine.illegalBytes, p.2.wellFormed = true ∧ encode p.2 = [p.1] := by decide

/-- The decoder answers one of the illegal bytes exactly where the first byte is one (R100): from the one to the other
by its encoding, and back by decoding that. -/
theorem decode_illegal_iff {b : Byte} {more rest : List Byte} {i : Instr} (h : decode (b :: more) = .ok (i, rest)) :
    i ∈ Machine.illegalInstrs ↔ b ∈ Machine.illegalBytes.map Prod.fst := by
  constructor
  · intro hi
    obtain ⟨p, hp, rfl⟩ := List.mem_map.1 hi
    obtain ⟨-, hbytes⟩ := encodeOfDecode _ _ _ h
    obtain ⟨-, henc⟩ := encode_illegal p hp
    rw [henc] at hbytes
    exact List.mem_map.2 ⟨p, hp, (List.head_eq_of_cons_eq hbytes).symm⟩
  · intro hb
    obtain ⟨p, hp, rfl⟩ := List.mem_map.1 hb
    obtain ⟨hwf, henc⟩ := encode_illegal p hp
    have hd : decode (p.1 :: more) = .ok (p.2, more) := by simpa [henc] using decodeOfEncode p.2 more hwf
    cases hd.symm.trans h
    exact List.mem_map_of_mem hp

/-- Settles O5: the list of the statement is that of `illegalBytes`. -/
theorem illegalFirstBytes : Obligations.IllegalFirstBytes := by
  intro b x y more
  obtain ⟨i, rest, h⟩ := decode_total b x y more
  exact ⟨i, rest, h, decode_illegal_iff h⟩

/-- Settles O2: each word is decoded by evaluation. -/
theorem specWordsDecode : Obligations.SpecWordsDecode :=
  ⟨rfl, rfl, rfl, rfl, rfl, rfl, rfl, rfl, rfl, rfl, rfl, rfl⟩

end Sys2Proof
end

section
/-! Steps (60_exceptions.md R300): the run modes, the step that executes an instruction, where a step stops, and the
illegal bytes. -/

namespace Sys2Proof.Machine

/-! ### The state after the platform's turn -/

theorem State.setMode_self {s : State} {m : Mode} (h : s.mode = m) : { s with mode := m } = s := by
  subst h
  rfl

/-- A step sees its state after the platform's turn only. -/
theorem step_congr {s t : State} (h : s.arrive = t.arrive) : step s = step t := by
  simp only [step, h]

theorem State.arrive_params (s : State) : s.arrive.params = s.params := by rw [State.arrive_frame]

/-- A turn of the platform does the same to a CPU in any mode and to a running one, but for the mode. -/
theorem State.arrive_setRunning (s : State) : { s with mode := .running }.arrive = { s.arrive with mode := .running } := by
  by_cases ha : s.arrivals = []
  · rw [State.arrive_nil ha, State.arrive_nil (s := { s with mode := .running }) ha]
  · obtain ⟨t, rest, ha⟩ := List.exists_cons_of_ne_nil ha
    rw [State.arrive_cons ha, State.arrive_cons (s := { s with mode := .running }) ha]
    simp [State.platformTurn]

/-- A turn that does not end a `STOP` leaves the CPU stopped (log entry 9). -/
theorem State.arrive_mode_stopped {s : State} (hm : s.mode = .stopped)
    (h : s.params.stopBehaviour = .wakes → ∀ t ∈ s.arrivals.head?, t.endsStop = false) : s.arrive.mode = .stopped := by
  simp only [State.arrive]
  cases ha : s.arrivals with
  | nil => exact hm
  | cons t rest =>
    have hends (hw : s.params.stopBehaviour = .wakes) : t.endsStop = false := h hw t (by simp [ha])
    simp only [State.platformTurn]
    rw [if_neg (fun ⟨_, hw, he⟩ => absurd (he.symm.trans (hends hw)) Bool.noConfusion)]
    exact hm

/-- A turn that ends a `STOP` leaves the state that the same turn leaves of the running CPU. -/
theorem State.arrive_of_endsStop {s : State} (hm : s.mode = .stopped) (hw : s.params.stopBehaviour = .wakes)
    (he : ∃ t ∈ s.arrivals.head?, t.endsStop = true) : s.arrive = { s with mode := .running }.arrive := by
  obtain ⟨t, ht, hends⟩ := he
  obtain ⟨rest, ha⟩ := List.head?_eq_some_iff.1 ht
  have hrun : s.arrive.mode = .running := by
    rw [State.arrive_cons ha]
    exact if_pos ⟨hm, hw, hends⟩
  rw [State.arrive_setRunning, State.setMode_self hrun]

/-! ### Modes in which no instruction is executed -/

theorem step_of_stopped {s : State} (h : s.arrive.mode = .stopped) : step s = s.arrive.stoppedStep := by
  simp only [step, State.beforeInstr, h]

theorem step_of_faulted {s : State} (h : s.arrive.mode = .faulted) : step s = s.arrive.faultedStep := by
  simp only [step, State.beforeInstr, h]

/-- Settles O53: waking is the interrupt test of the running CPU (R291). -/
theorem haltedIdlesThenWakes : Obligations.HaltedIdlesThenWakes := by
  intro s hm
  have harrive : s.arrive.mode = .halted := (State.arrive_mode (by simp [hm])).trans hm
  constructor
  · intro hp
    simp [step, State.beforeInstr, harrive, hp]
  · intro hp
    have hwake : s.arrive.beforeInstr = { s.arrive with mode := .running }.beforeInstr := by
      simp [State.beforeInstr, harrive, hp]
    simp only [step, hwake, State.arrive_setRunning]

/-- Settles O48: both meanings are the record updates of the statement. -/
theorem diAtOnceEiDelayed : Obligations.DiAtOnceEiDelayed := fun _ => ⟨rfl, rfl⟩

/-- Settles O49: `none_pending` is the negation of `State.pending`. -/
theorem haltThreeCases : Obligations.HaltThreeCases := by
  intro s none_pending
  have hpending : s.pending = false ↔ none_pending := bne_eq_false_iff_eq
  obtain ⟨hidle, he⟩ | ⟨hime, hp, he⟩ := execHalt_cases s
  · refine ⟨fun _ => he, fun _ _ => he, fun hime hp => ?_⟩
    rcases hidle with h | h
    · exact absurd (h.symm.trans hime) Bool.noConfusion
    · exact absurd (hpending.1 h) hp
  · refine ⟨fun h => absurd (h.symm.trans hime) Bool.noConfusion, fun _ h => ?_, fun _ _ => he⟩
    exact absurd (hp.symm.trans (hpending.2 h)) Bool.noConfusion

theorem execStop_of_accepted {s : State} {pad : Byte} (h : s.params.stopBehaviour ≠ .wakes ∨ pad = 0x00#8) :
    execStop pad s = .next { s with mode := .stopped } :=
  if_neg fun ⟨hw, hpad⟩ => h.elim (fun hnot => hnot hw) hpad

/-- Settles O50: in mode Stopped a step is `State.stoppedStep`, unless the platform's turn has ended the `STOP`; then it is
that of the running CPU. -/
theorem stopEntersStoppedMode : Obligations.StopEntersStoppedMode := by
  intro s
  refine ⟨fun _ h => execStop_of_accepted h, fun _ hw hpad => if_pos ⟨hw, hpad⟩, fun hm => ?_⟩
  have step_eq (h : s.params.stopBehaviour = .wakes → ∀ t ∈ s.arrivals.head?, t.endsStop = false) :
      step s = s.arrive.stoppedStep := step_of_stopped (State.arrive_mode_stopped hm h)
  refine ⟨fun hb => ?_, fun hb => ?_, fun hb => ⟨fun hsleep => ?_, fun hends => ?_⟩⟩
  · rw [step_eq (by simp [hb]), State.stoppedStep, State.arrive_params, hb]
  · rw [step_eq (by simp [hb]), State.stoppedStep, State.arrive_params, hb]
  · rw [step_eq fun _ => hsleep, State.stoppedStep, State.arrive_params, hb]
  · exact step_congr (State.arrive_of_endsStop hm hb hends)

/-! ### The step that executes an instruction -/

theorem State.landEi_eq (eip : Bool) (t : State) :
    t.landEi eip =
      if eip ∧ t.eiPending ∧ t.mode ≠ .faulted then { t with ime := true, eiPending := false } else t := by
  obtain ⟨he, h⟩ | ⟨he, h⟩ := State.landEi_cases eip t
  · rw [he, if_pos h]
  · rw [he, if_neg h]

/-- A running CPU with no interrupt to dispatch executes its next instruction, in the state that has fetched it. -/
theorem step_of_running {s : State} {i : Instr} {rest : List Byte} (hm : s.arrive.mode = .running)
    (hno : ¬ (s.arrive.ime = true ∧ s.arrive.pending = true)) (hd : decode s.arrive.nextBytes = .ok (i, rest)) :
    step s = afterInstr s.arrive.eiPending (exec i (s.arrive.fetched rest)) := by
  have hruns : s.arrive.runsInstr := ⟨.inl hm, hno, by simp [hm]⟩
  rw [step_runsInstr hruns hd, State.setMode_self hm]

/-- Settles O6: a fault or a refusal of the instruction passes through `afterInstr`, and after a next state `EI` lands by
`State.landEi`. -/
theorem stepRunsDecodedInstruction : Obligations.StepRunsDecodedInstruction := by
  intro s i rest u hm hno hd
  rw [step_of_running hm hno hd]
  cases exec i (u.fetched rest) with
  | next t => exact congrArg _ (t.landEi_eq u.eiPending)
  | fault | refused => rfl

/-- Only an illegal byte locks the CPU up. -/
theorem exec_mode_ne_faulted {i : Instr} {s t : State} (h : exec i s = .next t) (hi : i ∉ illegalInstrs)
    (hm : s.mode ≠ .faulted) : t.mode ≠ .faulted := by
  by_cases hhalt : i = .halt
  · subst hhalt
    obtain ⟨-, he⟩ | ⟨-, -, he⟩ := execHalt_cases s
    · cases he.symm.trans h; simp
    · cases he.symm.trans h; exact hm
  by_cases hstop : ∃ pad, i = .stop pad
  · obtain ⟨pad, rfl⟩ := hstop
    rw [execStop_eq_next h]
    simp
  · obtain ⟨-, -, hmode, -⟩ := controlStateFrames i s t h
    rwa [hmode hhalt (fun pad hp => hstop ⟨pad, hp⟩) hi]

/-- A pending `EI` is still pending after every instruction but `DI` (R263). -/
theorem exec_keeps_eiPending {i : Instr} {s t : State} (h : exec i s = .next t) (hi : i ≠ .di)
    (he : s.eiPending = true) : t.eiPending = true := by
  by_cases hei : i = .ei
  · subst hei
    cases h
    rfl
  · obtain ⟨-, hkept, -⟩ := controlStateFrames i s t h
    exact (hkept hi hei).trans he

/-- Settles O54: while an `EI` is pending `IME` is clear, so that no interrupt is dispatched, and the `EI` lands unless
the instruction cleared it. -/
theorem eiLandsAfterNextInstruction : Obligations.EiLandsAfterNextInstruction := by
  intro s i rest u hm hime hd
  have hstep : step s = afterInstr u.eiPending (exec i (u.fetched rest)) :=
    step_of_running hm (fun ⟨h, _⟩ => absurd (hime.symm.trans h) Bool.noConfusion) hd
  constructor
  · rintro hei rfl
    rw [hstep, hei]
    rfl
  · intro hei hi t ht
    rw [hstep, ht, afterInstr_next, hei, State.landEi_eq]
    by_cases hdi : i = .di
    · subst hdi
      cases ht
      rfl
    · have hpending : t.eiPending = true := exec_keeps_eiPending ht hdi hei
      have hlive : t.mode ≠ .faulted := exec_mode_ne_faulted ht hi (by rw [State.fetched_mode, hm]; simp)
      rw [if_pos ⟨rfl, hpending, hlive⟩, decide_eq_true hdi]

end Sys2Proof.Machine
end

section
/-! Where a step stops (60_exceptions.md R281, R300): the instructions that may answer no next state, then the steps that
do not, and the runs that meet an illegal byte. -/

namespace Sys2Proof.Machine

/-! ### Instructions -/

theorem exec_illegal {p : Byte × Instr} (hp : p ∈ illegalBytes) (s : State) : exec p.2 s = s.illegal p.1 := by
  simp only [illegalBytes, List.mem_cons, List.not_mem_nil, or_false] at hp
  rcases hp with rfl | rfl | rfl | rfl | rfl | rfl | rfl | rfl | rfl | rfl | rfl <;> rfl

/-- An instruction other than an illegal byte or a `STOP` has a next state. -/
theorem exec_total {i : Instr} (hi : i ∉ illegalInstrs) (hstop : ∀ pad, i ≠ .stop pad) (s : State) :
    ∃ t, exec i s = .next t := by
  cases i with
  | stop pad => exact absurd rfl (hstop pad)
  | illegalD3 | illegalDB | illegalDD | illegalE3 | illegalE4 | illegalEB | illegalEC | illegalED | illegalF4
  | illegalFC | illegalFD => exact absurd (by decide) hi
  | _ => exact ⟨_, rfl⟩

theorem stop_notMem_illegalInstrs (pad : Byte) : Instr.stop pad ∉ illegalInstrs := by
  simp [mem_illegalInstrs_iff]

/-- What instructions fault (log entry 8). -/
theorem exec_fault_iff (i : Instr) (s : State) :
    (∃ r, exec i s = .fault r) ↔ s.params.illegalOpcode = .fault ∧ i ∈ illegalInstrs := by
  by_cases hi : i ∈ illegalInstrs
  · obtain ⟨p, hp, rfl⟩ := List.mem_map.1 hi
    rw [exec_illegal hp, State.illegal]
    cases s.params.illegalOpcode <;> simp [hi]
  by_cases hstop : ∃ pad, i = .stop pad
  · obtain ⟨pad, rfl⟩ := hstop
    simp only [exec, execStop]
    split <;> simp [hi]
  · obtain ⟨t, ht⟩ := exec_total hi (fun pad hp => hstop ⟨pad, hp⟩) s
    simp [ht, hi]

/-- What instructions are refused (log entries 8 and 10). -/
theorem exec_refused_iff (i : Instr) (s : State) :
    (∃ r, exec i s = .refused r) ↔ (s.params.illegalOpcode = .refuse ∧ i ∈ illegalInstrs) ∨
      (s.params.stopBehaviour = .wakes ∧ ∃ pad, i = .stop pad ∧ pad ≠ 0x00#8) := by
  by_cases hi : i ∈ illegalInstrs
  · have hstop (pad : Byte) : i ≠ .stop pad := fun h => stop_notMem_illegalInstrs pad (h ▸ hi)
    obtain ⟨p, hp, rfl⟩ := List.mem_map.1 hi
    rw [exec_illegal hp, State.illegal]
    cases s.params.illegalOpcode <;> simp [hi, hstop]
  by_cases hstop : ∃ pad, i = .stop pad
  · obtain ⟨pad, rfl⟩ := hstop
    simp only [exec, execStop]
    split <;> simp_all
  · obtain ⟨t, ht⟩ := exec_total hi (fun pad hp => hstop ⟨pad, hp⟩) s
    have hno (pad : Byte) : i ≠ .stop pad := fun h => hstop ⟨pad, h⟩
    simp [ht, hi, hno]

theorem afterInstr_fault_iff {eip : Bool} {r : Result} : (∃ x, afterInstr eip r = .fault x) ↔ ∃ x, r = .fault x := by
  cases r <;> simp [afterInstr]

theorem afterInstr_refused_iff {eip : Bool} {r : Result} :
    (∃ x, afterInstr eip r = .refused x) ↔ ∃ x, r = .refused x := by
  cases r <;> simp [afterInstr]

/-! ### Steps -/

/-- The bytes of an instruction to be executed begin with the byte at `PC`. -/
theorem illegalInstrs_iff_read_pc {s : State} {i : Instr} {rest : List Byte} (h : decode s.nextBytes = .ok (i, rest)) :
    i ∈ illegalInstrs ↔ s.read s.pc ∈ illegalBytes.map Prod.fst := decode_illegal_iff h

theorem State.live.mode_ne_stopped {s : State} (h : s.live) : s.mode ≠ .stopped := by
  rcases h with h | h <;> simp [h]

theorem State.live.mode_ne_faulted {s : State} (h : s.live) : s.mode ≠ .faulted := by
  rcases h with h | h <;> simp [h]

/-- Settles O9: case by case of what a step can do. Where no instruction is executed, only the mode decides; where one is,
the instruction does, and it is an illegal byte exactly if its first byte is. -/
theorem stepStopsExactlyWhenStuck : Obligations.StepStopsExactlyWhenStuck := by
  intro s u illegal
  have hparams : u.params = s.params := s.arrive_params
  obtain ⟨hm, he⟩ | ⟨hm, he⟩ | ⟨hm, hp, he⟩ | ⟨hlive, i, hi, hime, he⟩ | ⟨hruns, i, rest, hd, he⟩ := step_cases s
  case inl =>
    have hillegal : illegal := .inl hm
    have hno : ¬ u.runsInstr := fun ⟨hlive, _⟩ => hlive.mode_ne_faulted hm
    have hns : u.mode ≠ .stopped := by simp [u, hm]
    rw [he, State.faultedStep, hparams]
    cases s.params.illegalOpcode <;> simp [hillegal, hno, hns]
  case inr.inl =>
    have hs : u.mode = .stopped := hm
    have hno : ¬ u.runsInstr := fun ⟨hlive, _⟩ => hlive.mode_ne_stopped hm
    have hlegal : ¬ illegal := by simp [illegal, hno, hs]
    rw [he, State.stoppedStep, hparams]
    cases s.params.stopBehaviour <;> simp [hlegal, hno, hs]
  case inr.inr.inl =>
    have hhalted : u.mode = .halted := hm
    have hno : ¬ u.runsInstr := fun ⟨_, _, hwakes⟩ => absurd (hp.symm.trans (hwakes hm)) Bool.noConfusion
    have hlegal : ¬ illegal := by simp [illegal, hno, hhalted]
    simp [he, hlegal, hno, hhalted]
  case inr.inr.inr.inl =>
    have hpending : u.pending = true := by rw [← State.nextSource_isSome, hi]; rfl
    have hno : ¬ u.runsInstr := fun ⟨_, hnot, _⟩ => hnot ⟨hime, hpending⟩
    have hns : u.mode ≠ .stopped := hlive.mode_ne_stopped
    have hlegal : ¬ illegal := fun h => h.elim hlive.mode_ne_faulted fun ⟨hr, _⟩ => hno hr
    simp [he, hlegal, hno, hns]
  case inr.inr.inr.inr =>
    have hr : u.runsInstr := hruns
    have hlive : u.live := hr.1
    have hns : u.mode ≠ .stopped := hlive.mode_ne_stopped
    have hillegal : illegal ↔ i ∈ illegalInstrs := by
      rw [illegalInstrs_iff_read_pc hd]
      exact ⟨fun h => (h.resolve_left hlive.mode_ne_faulted).2, fun h => .inr ⟨hr, h⟩⟩
    have hfetched : ({ u with mode := .running }.fetched rest).params = s.params := hparams
    have hstop : (∃ pad rest, decode u.nextBytes = .ok (.stop pad, rest) ∧ pad ≠ 0x00#8) ↔
        ∃ pad, i = .stop pad ∧ pad ≠ 0x00#8 := by
      simp [show decode u.nextBytes = _ from hd]
    rw [he, afterInstr_fault_iff, afterInstr_refused_iff, exec_fault_iff, exec_refused_iff, hfetched, hillegal, hstop]
    simp [hns, hr]

/-! ### Runs that meet an illegal byte -/

/-- A CPU that has locked up stays so (60_exceptions.md R281). -/
theorem step_faulted {s t : State} (hm : s.mode = .faulted) (h : step s = .next t) : t.mode = .faulted := by
  have ha : s.arrive.mode = .faulted := (State.arrive_mode (by simp [hm])).trans hm
  rw [step_of_faulted ha] at h
  rw [State.faultedStep_eq_next h, ha]

/-- Executing an illegal byte leaves the CPU locked up, if it answers a next state at all. -/
theorem step_illegal {s t : State} (hruns : s.arrive.runsInstr)
    (hb : s.arrive.read s.arrive.pc ∈ illegalBytes.map Prod.fst) (h : step s = .next t) : t.mode = .faulted := by
  obtain ⟨i, rest, hd, -⟩ := Laws.fetch_never_refuses s.arrive
  rw [step_runsInstr hruns hd] at h
  obtain ⟨v, hv, rfl⟩ := afterInstr_eq_next.1 h
  obtain ⟨p, hp, rfl⟩ := List.mem_map.1 ((illegalInstrs_iff_read_pc hd).2 hb)
  rw [exec_illegal hp] at hv
  rw [State.landEi_mode, State.illegal_eq_next hv, State.lockUp_mode]

/-- The last step of a run that answers a state. -/
theorem run_succ_eq_next {M : Host.Core} {k : Nat} {s t : M.State} (h : M.run (k + 1) s = .next t) :
    ∃ u, M.run k s = .next u ∧ M.step u = .next t := by
  rw [run_succ_last] at h
  split at h
  · exact ⟨_, ‹_›, h⟩
  · cases h
  · cases h

/-- Settles O51: from the step that executes the byte on, a run that answers a state answers a locked-up one. -/
theorem illegalByteLocksUp : Obligations.IllegalByteLocksUp := by
  constructor
  · intro s p hp locked
    rw [exec_illegal hp, State.illegal]
    cases s.params.illegalOpcode <;> simp [locked, State.lockUp]
  · rintro s u k n hrun hruns hb hn ⟨t, ht, hsafe⟩
    refine hsafe ?_
    clear hsafe
    induction hn generalizing t with
    | refl =>
      obtain ⟨v, hv, hstep⟩ := run_succ_eq_next (M := core) ht
      cases hrun.symm.trans hv
      exact step_illegal hruns hb hstep
    | step _ ih =>
      obtain ⟨v, hv, hstep⟩ := run_succ_eq_next (M := core) ht
      exact step_faulted (ih v hv) hstep

end Sys2Proof.Machine
end

section
/-! Calls, returns and the stack (45_jumps.md, 46_stack.md), the remaining loads and jumps, and the pairs as words: what
the helpers compute, what a push and a pop come to, then the obligations. -/

namespace Sys2Proof.Machine

/-! ### Words as bytes -/

theorem toNat_joinBytes (hi lo : Byte) : (joinBytes hi lo).toNat = hi.toNat * 256 + lo.toNat := by
  have hlo : lo.toNat < 2 ^ 8 := lo.isLt
  rw [joinBytes, BitVec.toNat_append, ← Nat.shiftLeft_add_eq_or_of_lt hlo, Nat.shiftLeft_eq]

theorem toNat_flagsByte (f : Flags) :
    (flagsByte f).toNat = f.z.toNat * 128 + f.n.toNat * 64 + f.h.toNat * 32 + f.c.toNat * 16 := by
  have hz := f.z.toNat_lt
  have hn := f.n.toNat_lt
  have hh := f.h.toNat_lt
  have hc := f.c.toNat_lt
  rw [flagsByte, BitVec.toNat_ofNat]
  omega

/-- Settles O12: every pair, and `AF`, is `joinBytes` of its two bytes. -/
theorem pairsAliasHalves : Obligations.PairsAliasHalves := by
  intro s
  rw [← toNat_flagsByte]
  exact ⟨toNat_joinBytes .., toNat_joinBytes .., toNat_joinBytes .., toNat_joinBytes ..⟩

theorem loByte_eq (v : Word) : loByte v = BitVec.ofNat 8 (v.toNat % 256) := by
  apply BitVec.eq_of_toNat_eq
  simp [loByte, BitVec.extractLsb'_toNat]

theorem hiByte_eq (v : Word) : hiByte v = BitVec.ofNat 8 (v.toNat / 256) := by
  apply BitVec.eq_of_toNat_eq
  simp [hiByte, BitVec.extractLsb'_toNat, Nat.shiftRight_eq_div_pow]

/-- The flags byte as R23 lays it out, bit by bit. -/
theorem flagsByte_eq (f : Flags) : flagsByte f =
    (carryByte f.z <<< 7 ||| carryByte f.n <<< 6 ||| carryByte f.h <<< 5 ||| carryByte f.c <<< 4) := by
  obtain ⟨z, n, h, c⟩ := f
  revert z n h c
  decide

/-! ### Signed offsets -/

/-- A word plus a sign-extended byte is the signed sum mod 65536 (R225, R243). -/
theorem add_sext16 (v : Word) (e : Byte) : v + sext16 e = BitVec.ofInt 16 ((v.toNat : Int) + e.toInt) := by
  rw [BitVec.ofInt_add, BitVec.ofInt_natCast, BitVec.ofNat_toNat, BitVec.setWidth_eq]
  rfl

theorem addSpOffset_res (sp : Word) (e : Byte) :
    (addSpOffset sp e).res = BitVec.ofInt 16 ((sp.toNat : Int) + e.toInt) := by
  rw [← add_sext16]
  apply BitVec.eq_of_toNat_eq
  simp [addSpOffset]

/-- Settles O35: both forms are a jump to `relTarget`. -/
theorem relativeJumpAddsSignedOffset : Obligations.RelativeJumpAddsSignedOffset := by
  intro s e target
  have htarget : relTarget s.pc e = target := add_sext16 s.pc e
  rw [← htarget]
  exact ⟨rfl, fun cc => congrArg Host.Outcome.next (s.ite_jump (s.f.holds cc) _)⟩

/-- Settles O38: both forms write `addSpOffset` of the offset and its flags. -/
theorem spPlusOffset : Obligations.SpPlusOffset := by
  intro s e sum flags
  have hsum : (addSpOffset s.sp e).res = sum := addSpOffset_res s.sp e
  rw [← hsum]
  exact ⟨rfl, _, rfl, s.writesR16_setR16_setFlags ..⟩

/-! ### Loads, stores and bit operations at `HL` -/

/-- Settles O25: the byte at `HL` is read and written back, and the flags are not. -/
theorem resSetMemoryBit : Obligations.ResSetMemoryBit := by
  intro s u hw
  exact ⟨⟨_, _, rfl, State.accessesWithFlags_setAtHl hw _ s.f, fun j => getLsbD_resetBit u j _⟩,
    ⟨_, _, rfl, State.accessesWithFlags_setAtHl hw _ s.f, fun j => getLsbD_setBit u j _⟩⟩

/-- Settles O33: the access is made before `HL` is written. -/
theorem postIncrementLoadsAndStores : Obligations.PostIncrementLoadsAndStores := by
  intro s stores loads
  have stores_of {i : Instr} {hl : Word} (hw : s.bus.mem.wf = true)
      (h : exec i s = .next ((s.setAtHl s.acc).setR16 .hl hl)) : stores i hl := by
    obtain ⟨hhl, hregs, -⟩ := (s.setAtHl s.acc).writesR16_setR16 .hl hl
    exact ⟨_, h, hhl, fun q hh hl => hregs q (by simp [halves, hh, hl]), Accesses.of_bus hw rfl, rfl⟩
  have loads_of {i : Instr} {hl : Word}
      (h : exec i s = .next ((s.touchHl.setR8 .a s.atHl).setR16 .hl hl)) : loads i hl := by
    obtain ⟨hhl, hregs, -⟩ := (s.touchHl.setR8 .a s.atHl).writesR16_setR16 .hl hl
    refine ⟨_, h, hhl, hregs .a (by decide), fun q ha hh hl => ?_, rfl⟩
    exact (hregs q (by simp [halves, hh, hl])).trans (s.regs.get_set_ne _ ha)
  rw [← inc16_eq, ← dec16_eq]
  exact ⟨fun hw => ⟨stores_of hw rfl, stores_of hw rfl⟩, loads_of rfl, loads_of rfl⟩

/-- Settles O40: the two stores of `State.write16`, of the halves of `SP` as its quotient and remainder by 256. -/
theorem storeSpLittleEndian : Obligations.StoreSpLittleEndian := by
  intro s n hw
  rw [← loByte_eq, ← hiByte_eq]
  exact ⟨_, rfl, Accesses.of_bus hw rfl, rfl⟩

/-! ### Pushes -/

/-- A push lowers `SP` by two, and changes nothing else but the bus (R240). -/
theorem State.push16_frame (s : State) (v : Word) : { s.push16 v with bus := s.bus } = { s with sp := s.sp - 2 } := by
  rw [← sub_one_sub_one]
  rfl

theorem State.call_frame (s : State) (n : Word) :
    { s.call n with bus := s.bus } = { s with sp := s.sp - 2, pc := n } := by
  rw [← sub_one_sub_one]
  rfl

/-- Settles O36: every call, taken, is `State.call`. -/
theorem callsPushReturnAddress : Obligations.CallsPushReturnAddress := by
  intro s hw calls
  have calls_of {i : Instr} {n : Word} (h : exec i s = .next (s.call n)) : calls i n :=
    ⟨_, h, Accesses.of_bus hw (s.push16_bus_eq s.pc), s.call_frame n⟩
  exact ⟨fun _ => calls_of rfl, fun _ => calls_of rfl, fun cc n =>
    ⟨fun hcc => calls_of (congrArg Host.Outcome.next (if_pos hcc)),
      fun hcc => congrArg Host.Outcome.next (if_neg (by simp [hcc]))⟩⟩

/-- Settles O41: all four forms are `State.push16` of a pair. -/
theorem pushStoresHighThenLow : Obligations.PushStoresHighThenLow := by
  intro s hw pushes
  have pushes_of {i : Instr} {hi lo : Byte} (h : exec i s = .next (s.push16 (joinBytes hi lo))) : pushes i hi lo := by
    have hbus := s.push16_bus_eq (joinBytes hi lo)
    rw [hiByte_joinBytes, loByte_joinBytes] at hbus
    exact ⟨_, h, Accesses.of_bus hw hbus, s.push16_frame _⟩
  rw [← flagsByte_eq]
  exact ⟨pushes_of rfl, pushes_of rfl, pushes_of rfl, pushes_of rfl⟩

/-! ### Pops -/

/-- Settles O37: every return, taken, is `State.popPc`. -/
theorem returnsPopPc : Obligations.ReturnsPopPc := by
  intro s
  rw [← State.popPc_eq]
  refine ⟨rfl, fun cc hcc => congrArg Host.Outcome.next (if_pos hcc),
    fun cc hcc => congrArg Host.Outcome.next (if_neg (by simp [hcc])), ?_⟩
  exact congrArg (fun t : State => Host.Outcome.next { t with ime := true }) s.popPc_eq

theorem exec_popR16 (p : Reg16) (s : State) : exec (.popR16 p) s = .next (s.popped.setR16 p s.top) := by
  rw [← State.pop16_fst, ← State.pop16_snd]
  rfl

theorem exec_popAf (s : State) : exec .popAf s = .next (s.popped.setAf s.top) := by
  rw [← State.pop16_fst, ← State.pop16_snd]
  rfl

/-- Settles O42: the two halves are those of the word on top of the stack. -/
theorem popLoadsLowThenHigh : Obligations.PopLoadsLowThenHigh := by
  intro s lo hi pops
  have hhi : hiByte s.top = hi := hiByte_joinBytes ..
  have hlo : loByte s.top = lo := loByte_joinBytes ..
  have pops_of {p : Reg16} {high low : Reg8} (hne : high ≠ low)
      (hset : ∀ g : Regs, g.set16 p s.top = (g.set high (hiByte s.top)).set low (loByte s.top)) : pops p high low := by
    refine ⟨_, exec_popR16 p s, ?_⟩
    simp only [State.r8, State.setR16_regs, hset, hhi, hlo]
    refine ⟨?_, Regs.get_set_self .., fun q hh hl => ?_, rfl⟩
    · rw [Regs.get_set_ne _ _ hne, Regs.get_set_self]
    · rw [Regs.get_set_ne _ _ hl, Regs.get_set_ne _ _ hh]
      rfl
  refine ⟨pops_of (by decide) fun _ => rfl, pops_of (by decide) fun _ => rfl, pops_of (by decide) fun _ => rfl,
    _, exec_popAf s, ?_⟩
  rw [← hhi, ← hlo]
  exact s.popped.writesR8_setR8_setFlags ..

/-! ### A pop after a push -/

/-- The word on top of the stack depends on the bus and `SP` alone. -/
theorem State.top_congr {s t : State} (hbus : s.bus = t.bus) (hsp : s.sp = t.sp) : s.top = t.top := by
  simp only [State.top, State.read, State.seen, hbus, hsp]

/-- A push in the order of its stores (R240). -/
theorem State.push16_read (s : State) (v a : Word) :
    (s.push16 v).read a = ((s.write (s.sp - 1) (hiByte v)).write (s.sp - 2) (loByte v)).read a := by
  rw [← sub_one_sub_one]
  rfl

/-- The two stores of a push to plain memory are what the top of the stack then reads as: the later store, the low byte,
does not meet the other. -/
theorem State.top_push16 {s : State} (hw : s.bus.mem.wf = true) (h1 : s.isRam (s.sp - 1)) (h2 : s.isRam (s.sp - 2))
    (v : Word) : (s.push16 v).top = v := by
  have hsp : (s.push16 v).sp = s.sp - 2 := sub_one_sub_one s.sp
  have hw1 := State.wf_write (s.sp - 1) (hiByte v) hw
  have h1' := h1.write (s.sp - 1) (hiByte v)
  have h2' := h2.write (s.sp - 1) (hiByte v)
  have hplace : (s.push16 v).bus.place (s.sp - 2) = .cell (s.sp - 2) Wiring.ram := by
    rw [State.push16_bus_eq, Bus.after_place]
    exact h2
  have hne : s.sp - 1 ≠ s.sp - 2 := by bv_omega
  have hlo : (s.push16 v).read (s.sp - 2) = loByte v := by
    rw [State.push16_read, State.isRam.read_write hw1 h2' h2', if_pos rfl]
  have hhi : (s.push16 v).read (s.sp - 1) = hiByte v := by
    rw [State.push16_read, State.isRam.read_write hw1 h2' h1', if_neg hne, State.isRam.read_write hw h1 h1, if_pos rfl]
  have hnext : s.sp - 2 + 1 = s.sp - 1 := by bv_omega
  rw [State.top, hsp, State.seen_read_cell hplace, hnext, hlo, hhi, joinBytes_hi_lo]

theorem sub_two_add_two (v : Word) : v - 2 + 2 = v := by bv_omega

/-- Settles O43: the pop finds on top of the stack what was pushed. -/
theorem popAfterPushRestores : Obligations.PopAfterPushRestores := by
  intro s hw h1 h2
  have hsp (v : Word) : (s.push16 v).sp + 2 = s.sp := by
    rw [State.push16_sp, sub_one_sub_one, sub_two_add_two]
  have htop (v : Word) (g : Regs) (f : Flags) : { s.push16 v with regs := g, f := f }.top = v :=
    (State.top_congr rfl rfl).trans (State.top_push16 hw h1 h2 v)
  constructor
  · intro p q
    refine ⟨_, _, rfl, exec_popR16 q _, ?_, hsp _, rfl⟩
    rw [State.top_push16 hw h1 h2]
    exact Regs.get16_set16_self ..
  · refine ⟨_, rfl, fun a f => ⟨_, exec_popAf _, ?_⟩⟩
    rw [htop, State.af]
    refine ⟨hiByte_joinBytes .., ?_, hsp _, ?_⟩
    · rw [State.setAf_f, loByte_joinBytes, flagsOfByte_flagsByte]
    · rw [State.setAf_regs, hiByte_joinBytes]
      rfl

end Sys2Proof.Machine
end

section
/-! Memory as data, the platform's turn and the interrupts (20_memory.md R50, 60_exceptions.md R283 to R289). -/

namespace Sys2Proof.Machine

/-! ### Canonical memory -/

/-- A listed byte is not what an unlisted address reads as: so a canonical memory that starts beyond it reads
differently there. -/
theorem Memory.read_ne_of_beyond {b : Nat} {w : Byte} {m k : Memory} (hm : Memory.wfFrom b ((b, w) :: m) = true)
    (hk : Memory.wfFrom (b + 1) k = true) : Memory.read ((b, w) :: m) b ≠ k.read b := by
  obtain ⟨-, -, hw, -⟩ := Memory.wfFrom_cons.1 hm
  have hread : Memory.read ((b, w) :: m) b = w := if_pos rfl
  rwa [hread, Memory.read_below hk (Nat.lt_succ_self b)]

/-- A canonical memory starts where its first listed byte is. -/
theorem Memory.wfFrom_head {lo b : Nat} {w : Byte} {m : Memory} (h : Memory.wfFrom lo ((b, w) :: m) = true) :
    Memory.wfFrom b ((b, w) :: m) = true := by
  obtain ⟨-, hrest⟩ := Memory.wfFrom_cons.1 h
  exact Memory.wfFrom_cons.2 ⟨Nat.le_refl b, hrest⟩

theorem Memory.wfFrom_of_lt_head {lo c b : Nat} {w : Byte} {m : Memory} (h : Memory.wfFrom lo ((b, w) :: m) = true)
    (hc : c < b) : Memory.wfFrom (c + 1) ((b, w) :: m) = true :=
  Memory.wfFrom_mono hc (Memory.wfFrom_head h)

theorem Memory.read_cons_of_ne {a b : Nat} (w : Byte) (m : Memory) (h : a ≠ b) :
    Memory.read ((b, w) :: m) a = m.read a := if_neg h

theorem Memory.eq_of_read_eq {lo : Nat} {m k : Memory} (hm : Memory.wfFrom lo m = true) (hk : Memory.wfFrom lo k = true)
    (h : ∀ a, a < 65536 → m.read a = k.read a) : m = k := by
  induction m generalizing lo k with
  | nil =>
    cases k with
    | nil => rfl
    | cons q k =>
      obtain ⟨c, v⟩ := q
      obtain ⟨-, hc, -⟩ := Memory.wfFrom_cons.1 hk
      exact absurd (h c hc).symm (Memory.read_ne_of_beyond (Memory.wfFrom_head hk) rfl)
  | cons p m ih =>
    obtain ⟨b, w⟩ := p
    obtain ⟨-, hb, -, hm'⟩ := Memory.wfFrom_cons.1 hm
    cases k with
    | nil => exact absurd (h b hb) (Memory.read_ne_of_beyond (Memory.wfFrom_head hm) rfl)
    | cons q k =>
      obtain ⟨c, v⟩ := q
      obtain ⟨-, hc, -, hk'⟩ := Memory.wfFrom_cons.1 hk
      obtain hlt | heq | hgt := Nat.lt_trichotomy b c
      · exact absurd (h b hb) (Memory.read_ne_of_beyond (Memory.wfFrom_head hm) (Memory.wfFrom_of_lt_head hk hlt))
      · subst heq
        have hwv : w = v := by simpa [Memory.read] using h b hb
        have hrest (a : Nat) (ha : a < 65536) : Memory.read m a = Memory.read k a := by
          by_cases hab : a = b
          · rw [Memory.read_below hm' (by omega), Memory.read_below hk' (by omega)]
          · rw [← Memory.read_cons_of_ne w m hab, h a ha, Memory.read_cons_of_ne v k hab]
        rw [hwv, ih hm' hk' hrest]
      · exact absurd (h c hc).symm (Memory.read_ne_of_beyond (Memory.wfFrom_head hk) (Memory.wfFrom_of_lt_head hm hgt))

/-- Settles O11: by induction on the list, the first listed address being the lowest one that does not read as
unlisted. -/
theorem canonicalMemoryIsUnique : Obligations.CanonicalMemoryIsUnique :=
  fun _ _ hm hk h => Memory.eq_of_read_eq hm hk h

/-! ### The platform's turn -/

/-- What bits set in a byte of memory come to where an address shows it: those of them that are implemented. -/
theorem wiring_reads_or (k : Wiring) (v r : Byte) : k.reads (v ||| r) = k.reads v ||| (r &&& ~~~k.fixed) := by
  apply BitVec.eq_of_getLsbD_eq
  intro i hi
  simp only [Wiring.reads, BitVec.getLsbD_or, BitVec.getLsbD_and, BitVec.getLsbD_not, hi]
  cases v.getLsbD i <;> cases r.getLsbD i <;> cases k.fixed.getLsbD i <;> simp

/-- What an address that shows the byte of `[IE]` or `[IF]` reads as after a turn: that of `[IF]` with bits set, as far
as they are implemented (R283). -/
theorem Bus.turn_read_holdsInt {b : Bus} (hw : b.mem.wf = true) (t : Arrival) {a d : Word} {k : Wiring}
    (ha : b.place a = .cell d k) (hd : b.holdsInt d = true) :
    (b.turn t).read a = b.read a ||| if b.isCellOf d b.ifAddr then t.requests &&& ~~~k.fixed else 0#8 := by
  have hplace : (b.turn t).place a = .cell d k := ((b.sameMap_turn t).place a).trans ha
  rw [Bus.read_cell hplace, Bus.read_cell ha, Bus.turn_holdsInt hw t hd]
  split
  · exact wiring_reads_or ..
  · rw [BitVec.or_zero]

theorem Bus.isCellOf_self {b : Bus} {a d : Word} {k : Wiring} (h : b.place a = .cell d k) : b.isCellOf d a = true := by
  simp [Bus.isCellOf, h]

/-- Bits set in `[IE]` or `[IF]` leave pending what was (R284). -/
theorem State.pending_mono {s t : State} {x y : Byte} (hie : t.bus.ie = s.bus.ie ||| x)
    (hif : t.bus.intf = s.bus.intf ||| y) (hparams : t.params = s.params) (h : s.pending = true) : t.pending = true := by
  have hsub : s.pendingSet = t.pendingSet &&& s.pendingSet := by
    apply BitVec.eq_of_getLsbD_eq
    intro i _
    simp only [State.pendingSet, hie, hif, hparams, BitVec.getLsbD_and, BitVec.getLsbD_or]
    cases s.bus.ie.getLsbD i <;> cases s.bus.intf.getLsbD i <;> simp
  simp only [State.pending, bne_iff_ne] at h ⊢
  intro h0
  rw [h0, BitVec.zero_and] at hsub
  exact h hsub

theorem Bus.turn_ie {b : Bus} (hw : b.mem.wf = true) (t : Arrival) {d : Word} {k : Wiring}
    (h : b.place b.ieAddr = .cell d k) :
    (b.turn t).ie = b.ie ||| if b.isCellOf d b.ifAddr then t.requests &&& ~~~k.fixed else 0#8 := by
  obtain ⟨-, hie, -⟩ := b.sameMap_turn t
  rw [Bus.ie, hie]
  exact Bus.turn_read_holdsInt hw t h (by simp [Bus.holdsInt, Bus.isCellOf_self h])

theorem Bus.turn_intf {b : Bus} (hw : b.mem.wf = true) (t : Arrival) {c : Word} {k : Wiring}
    (h : b.place b.ifAddr = .cell c k) : (b.turn t).intf = b.intf ||| (t.requests &&& ~~~k.fixed) := by
  have hcell := Bus.isCellOf_self h
  obtain ⟨-, -, hif⟩ := b.sameMap_turn t
  rw [Bus.intf, hif, Bus.turn_read_holdsInt hw t h (by simp [Bus.holdsInt, hcell]), if_pos hcell]
  rfl

/-- What an address shows that the turn neither requests in nor stores to. -/
theorem Bus.turn_read_other {b : Bus} (hw : b.mem.wf = true) (t : Arrival) {a d : Word} {k : Wiring}
    (ha : b.place a = .cell d k) (hif : b.isCellOf d b.ifAddr = false) (hd : d ∉ t.stores.map Prod.fst) :
    (b.turn t).read a = b.read a := by
  have hplace : (b.turn t).place a = .cell d k := ((b.sameMap_turn t).place a).trans ha
  have hcell : (b.turn t).mem.read d.toNat = b.cellStep d b.past (b.mem.read d.toNat) (.turn t) :=
    Bus.read_access hw d (.turn t)
  rw [Bus.read_cell hplace, Bus.read_cell ha, hcell, Bus.cellStep, if_neg (by simp [hif]), Bus.stored_notMem hd]

/-- Settles O10: a turn only adds bits to `[IE]` and `[IF]`, so that what was pending stays so; and it changes the mode of
a stopped CPU alone, whose HALT bug is not armed. -/
theorem requestSetsBitsOnly : Obligations.RequestSetsBitsOnly := by
  rintro s ⟨hw, hbug⟩
  refine ⟨State.arrive_nil, fun t rest hs => ?_⟩
  have hbus : s.arrive.bus = s.bus.turn t := State.arrive_bus hs
  have hwf : s.arrive.bus.mem.wf = true := State.wf_arrive hw
  refine ⟨Accesses.of_bus hw hbus, hwf, fun c k hc => ⟨?_, fun d l hd hdc => ?_, fun hdev => ⟨hwf, fun harmed => ?_⟩⟩,
    fun a d k ha hif hd => ?_, ?_⟩
  · rw [hbus, Bus.turn_intf hw t hc]
  · have hother : s.bus.isCellOf d s.bus.ifAddr = false := by simpa [Bus.isCellOf, hc] using hdc.symm
    rw [hbus, Bus.turn_ie hw t hd, hother, if_neg Bool.false_ne_true, BitVec.or_zero]
  · obtain ⟨hrun, hpending⟩ := hbug (s.arrive_haltBug ▸ harmed)
    refine ⟨(State.arrive_mode (by simp [hrun])).trans hrun, ?_⟩
    cases hie : s.bus.place s.bus.ieAddr with
    | device => exact absurd hie hdev
    | cell d l =>
      exact State.pending_mono (hbus ▸ Bus.turn_ie hw t hie) (hbus ▸ Bus.turn_intf hw t hc) s.arrive_params hpending
  · simp only [State.read, hbus]
    exact Bus.turn_read_other hw t ha hif hd
  · rw [State.arrive_cons hs]
    rfl

/-! ### Dispatch and return -/

/-- A live CPU with `IME` set dispatches the source that `State.nextSource` names. -/
theorem step_of_dispatch {s : State} {i : Fin 8} (hlive : s.arrive.live) (hime : s.arrive.ime = true)
    (hi : s.arrive.nextSource = some i) : step s = .next (s.arrive.takeInterrupt i) := by
  have hp : s.arrive.pending = true := by rw [← State.nextSource_isSome, hi]; rfl
  obtain ⟨hm, -⟩ | ⟨hm, -⟩ | ⟨-, hidle, -⟩ | ⟨-, j, hj, -, he⟩ | ⟨⟨-, hno, -⟩, -⟩ := step_cases s
  · exact absurd hm hlive.mode_ne_faulted
  · exact absurd hm hlive.mode_ne_stopped
  · cases hidle.symm.trans hp
  · cases hi.symm.trans hj
    exact he
  · exact absurd ⟨hime, hp⟩ hno

theorem getLsbD_intMask (n : Fin 9) (i : Fin 8) : (intMask n).getLsbD i.val = decide (i.val < n.val) := by
  revert n i
  decide

/-- The lowest source that is requested and enabled and counts is the one dispatched (R284, R285). -/
theorem State.nextSource_of_lowest {s : State} {i : Fin 8} (hn : i.val < s.params.numIntSources.val)
    (hi : (s.bus.ie &&& s.bus.intf).getLsbD i.val = true)
    (hlow : ∀ j : Nat, j < i.val → (s.bus.ie &&& s.bus.intf).getLsbD j = false) : s.nextSource = some i := by
  refine State.nextSource_eq_some.2 ⟨?_, fun j hj => ?_⟩
  · rw [State.pendingSet, BitVec.getLsbD_and, hi, getLsbD_intMask, decide_eq_true hn, Bool.and_self]
  · rw [State.pendingSet, BitVec.getLsbD_and, hlow j hj, Bool.false_and]

/-- The state in which a dispatch pushes `PC`: its request acknowledged and its hidden bits cleared (R288). -/
def State.acknowledged (s : State) (i : Fin 8) : State :=
  { s with ime := false, eiPending := false, haltBug := false, bus := s.bus.ifClear i }

theorem State.wf_acknowledged {s : State} (hw : s.bus.mem.wf = true) (i : Fin 8) :
    (s.acknowledged i).bus.mem.wf = true := Bus.wf_ifClear i hw

theorem State.isRam.acknowledged {s : State} {a : Word} (h : s.isRam a) (i : Fin 8) : (s.acknowledged i).isRam a :=
  ((s.bus.sameMap_ifClear i).place a).trans h

/-- What a plain `[IF]` reads as after the acknowledge. -/
theorem State.read_acknowledged {s : State} (hw : s.bus.mem.wf = true) (h : s.isRam s.bus.ifAddr) (i : Fin 8) :
    (s.acknowledged i).read s.bus.ifAddr = s.read s.bus.ifAddr &&& ~~~(1#8 <<< i.val) := by
  have hram : (s.acknowledged i).isRam s.bus.ifAddr := h.acknowledged i
  simp only [State.read]
  rw [Bus.read_cell hram, Bus.read_cell h]
  simp only [State.acknowledged, Bus.ifClear, show s.bus.place s.bus.ifAddr = _ from h, Memory.read_write hw,
    Wiring.ram_reads, if_true]
  rw [resetMask_eq, BitVec.twoPow_eq]

/-- A push to plain memory leaves other plain memory. -/
theorem State.push16_read_of_ne {s : State} (hw : s.bus.mem.wf = true) {a : Word} (ha : s.isRam a)
    (h1 : s.isRam (s.sp - 1)) (h2 : s.isRam (s.sp - 2)) (hne1 : s.sp - 1 ≠ a) (hne2 : s.sp - 2 ≠ a) (v : Word) :
    (s.push16 v).read a = s.read a := by
  have hw1 := State.wf_write (s.sp - 1) (hiByte v) hw
  have h2' := h2.write (s.sp - 1) (hiByte v)
  have ha' := ha.write (s.sp - 1) (hiByte v)
  rw [State.push16_read, State.isRam.read_write hw1 h2' ha', if_neg hne2.symm, State.isRam.read_write hw h1 ha,
    if_neg hne1.symm]

/-- Settles O52: the acknowledge leaves `[IF]` with the one bit cleared, and the push does not reach it. -/
theorem interruptDispatch : Obligations.InterruptDispatch := by
  intro s i u hlive hime hw hn hi hlow
  have hbus : (u.takeInterrupt i).bus =
      u.bus.after [.ack i, .write (u.sp - 1) (hiByte u.pc), .write (u.sp - 2) (loByte u.pc)] := by
    rw [State.takeInterrupt_bus, sub_one_sub_one]
  refine ⟨_, step_of_dispatch hlive hime (State.nextSource_of_lowest hn hi hlow), Accesses.of_bus hw hbus,
    fun hif h1 h2 hne1 hne2 => ?_, ?_⟩
  · rw [← State.read_acknowledged hw hif i]
    exact State.push16_read_of_ne (State.wf_acknowledged hw i) (hif.acknowledged i) (h1.acknowledged i)
      (h2.acknowledged i) hne1 hne2 u.pc
  · rw [← sub_one_sub_one]
    rfl

/-- Settles O55: the word on top of the stack is the `PC` that the dispatch pushed. -/
theorem retiReturnsFromInterrupt : Obligations.RetiReturnsFromInterrupt := by
  intro s t u r hlive hime hp hw h1 h2 hstep hsp htop
  obtain ⟨i, hi⟩ := Option.isSome_iff_exists.1 (r.nextSource_isSome.trans hp)
  cases (step_of_dispatch hlive hime hi).symm.trans hstep
  have hpushed : (r.takeInterrupt i).top = ((r.acknowledged i).push16 r.pc).top := State.top_congr rfl rfl
  have hpc : u.top = r.pc := by
    rw [htop, hpushed]
    exact State.top_push16 (State.wf_acknowledged hw i) (h1.acknowledged i) (h2.acknowledged i) r.pc
  have hsp' : u.sp + 2 = r.sp := by
    rw [hsp, State.takeInterrupt_sp, sub_one_sub_one, sub_two_add_two]
  obtain ⟨-, -, -, hreti⟩ := returnsPopPc u
  rw [hreti, hpc, ← hsp']
  rfl

end Sys2Proof.Machine
end

section
/-! What remains of the 8-bit arithmetic (40_alu8.md), and `DAA` (47_misc.md R262). -/

namespace Sys2Proof.Machine

/-! ### The carry-in -/

theorem State.writesR8_subA (s : State) (x : Byte) (cin : Bool) :
    WritesR8 s (s.subA x cin) .a (s.acc - x - carryByte cin)
      { z := decide (s.acc - x - carryByte cin = 0), n := true
        h := decide (s.acc.toNat % 16 < x.toNat % 16 + cin.toNat)
        c := decide (s.acc.toNat < x.toNat + cin.toNat) } := by
  rw [State.subA, subFlags_sub8, sub8_res]
  exact s.writesR8_setR8_setFlags ..

/-- Settles O14: every form is `State.addA` or `State.subA` with the old carry. -/
theorem adcAndSbcUseOldCarry : Obligations.AdcAndSbcUseOldCarry := by
  intro s adds subtracts
  have adds_of {i : Instr} {es : List Access} {x : Byte}
      (h : exec i s = .next ((s.seen es).addA x s.f.c)) : adds i es x :=
    ⟨_, h, (s.seen es).writesR8_addA x s.f.c⟩
  have subtracts_of {i : Instr} {es : List Access} {x : Byte}
      (h : exec i s = .next ((s.seen es).subA x s.f.c)) : subtracts i es x :=
    ⟨_, h, (s.seen es).writesR8_subA x s.f.c⟩
  exact ⟨⟨fun _ => adds_of rfl, adds_of rfl, fun _ => adds_of rfl⟩,
    fun _ => subtracts_of rfl, subtracts_of rfl, fun _ => subtracts_of rfl⟩

/-- The identity of R150: to subtract is to add the complement, with the carry inverted before and after. -/
theorem sub8_eq_add8_not (a x : Byte) (cin : Bool) :
    sub8 a x cin = ⟨(add8 a (~~~x) (!cin)).res, !(add8 a (~~~x) (!cin)).h, !(add8 a (~~~x) (!cin)).c⟩ := by
  have hx : x.toNat < 256 := x.isLt
  have hnot : (~~~x).toNat = 255 - x.toNat := BitVec.toNat_not
  have hcin : (!cin).toNat = 1 - cin.toNat := by cases cin <;> rfl
  have hc : cin.toNat < 2 := cin.toNat_lt
  simp only [sub8, add8, hnot, hcin, Result8.mk.injEq, ← decide_not, decide_eq_decide]
  refine ⟨BitVec.eq_of_toNat_eq ?_, by omega, by omega⟩
  simp only [BitVec.toNat_ofInt, BitVec.toNat_ofNat]
  omega

/-- Settles O19: the identity of R150 at the accumulator. -/
theorem subtractionIsComplementAddition : Obligations.SubtractionIsComplementAddition := by
  intro s x
  rw [← not_eq_ofNat_sub]
  have h := sub8_eq_add8_not s.acc x s.f.c
  have hres : (sub8 s.acc x s.f.c).res = (add8 s.acc (~~~x) (!s.f.c)).res := by rw [h]
  have hcarry : (sub8 s.acc x s.f.c).c = !(add8 s.acc (~~~x) (!s.f.c)).c := by rw [h]
  have hhalf : (sub8 s.acc x s.f.c).h = !(add8 s.acc (~~~x) (!s.f.c)).h := by rw [h]
  exact ⟨_, _, rfl, rfl, hres, hcarry, hhalf⟩

theorem carryByte_eq_setWidth (c : Bool) : carryByte c = BitVec.setWidth 8 (BitVec.ofBool c) := by
  cases c <;> rfl

/-- The half carry of a sum is the carry into bit 4, which is where the sum's bit differs from the operands' (R120). -/
theorem add8_h_eq_xor (a x : Byte) (cin : Bool) : (add8 a x cin).h = (a ^^^ x ^^^ (add8 a x cin).res).getLsbD 4 := by
  have hcarry : (add8 a x cin).h = BitVec.carry 4 a x cin := by
    simp only [add8, BitVec.carry, decide_eq_decide]
    omega
  rw [hcarry, add8_res, carryByte_eq_setWidth, BitVec.getLsbD_xor, BitVec.getLsbD_xor,
    BitVec.getLsbD_add_add_bool (by decide)]
  cases a.getLsbD 4 <;> cases x.getLsbD 4 <;> simp

/-- The half borrow of a difference, by the sum with the complement (R121, R150). -/
theorem sub8_h_eq_xor (a x : Byte) (cin : Bool) : (sub8 a x cin).h = (a ^^^ x ^^^ (sub8 a x cin).res).getLsbD 4 := by
  rw [sub8_eq_add8_not, add8_h_eq_xor]
  simp only [BitVec.getLsbD_xor, BitVec.getLsbD_not]
  cases x.getLsbD 4 <;> simp

/-- Settles O20: each of the four forms is `add8` or `sub8`, with the old carry or none. -/
theorem halfCarryIsCarryIntoBit4 : Obligations.HalfCarryIsCarryIntoBit4 := by
  intro s x i hi
  simp only [List.mem_cons, List.not_mem_nil, or_false] at hi
  rcases hi with rfl | rfl | rfl | rfl
  · exact ⟨_, rfl, add8_h_eq_xor s.acc x false⟩
  · exact ⟨_, rfl, add8_h_eq_xor s.acc x s.f.c⟩
  · exact ⟨_, rfl, sub8_h_eq_xor s.acc x false⟩
  · exact ⟨_, rfl, sub8_h_eq_xor s.acc x s.f.c⟩

/-! ### The decimal adjustment -/

/-- Whether `DAA` corrects the high digit, and what it leaves in `C` (R262). -/
def daaHigh (a : Byte) (f : Flags) : Bool := f.c || (!f.n && decide (a.toNat > 0x99))

/-- Whether `DAA` corrects the low digit (R262). -/
def daaLow (a : Byte) (f : Flags) : Bool := f.h || (!f.n && decide (a.toNat % 16 > 9))

/-- What `DAA` adds or subtracts (R262). -/
def daaCorrection (a : Byte) (f : Flags) : Byte :=
  (if daaHigh a f then 0x60#8 else 0#8) + (if daaLow a f then 0x06#8 else 0#8)

/-- The two corrections of R262 are one: that of the high digit leaves the low digit, by which the second is decided. -/
theorem decimalAdjust_eq (a : Byte) (f : Flags) :
    decimalAdjust a f = (if f.n then a - daaCorrection a f else a + daaCorrection a f, daaHigh a f) := by
  have hlow : (a + 0x60#8).toNat % 16 = a.toNat % 16 := by
    rw [BitVec.toNat_add, BitVec.toNat_ofNat]
    omega
  cases hn : f.n with
  | true =>
    simp only [decimalAdjust, daaCorrection, daaHigh, daaLow, hn]
    cases f.c <;> cases f.h <;> simp [BitVec.sub_sub]
  | false =>
    have hhigh : daaHigh a f = (f.c || decide (a.toNat > 0x99)) := by simp [daaHigh, hn]
    have hlow' : daaLow a f = (f.h || decide (a.toNat % 16 > 9)) := by simp [daaLow, hn]
    simp only [decimalAdjust, daaCorrection, hn, Bool.false_eq_true, if_false, ← hhigh]
    cases daaHigh a f with
    | true => simp only [if_true, hlow, ← hlow']; cases daaLow a f <;> simp [BitVec.add_assoc]
    | false => simp only [Bool.false_eq_true, if_false, ← hlow']; cases daaLow a f <;> simp

/-- Settles O45: `high`, `low` and `k` of the statement are `daaHigh`, `daaLow` and `daaCorrection`. -/
theorem daaAdjusts : Obligations.DaaAdjusts := by
  intro s high low k v
  have h : decimalAdjust s.acc s.f = (v, high) := decimalAdjust_eq s.acc s.f
  refine ⟨_, rfl, ?_⟩
  rw [h]
  exact s.writesR8_setR8_setFlags ..

theorem toNat_bcd {n : Nat} (h : n < 100) : (bcd n).toNat = n / 10 * 16 + n % 10 := by
  rw [bcd, BitVec.toNat_ofNat]
  omega

theorem bcd_eq_zero_iff {n : Nat} (h : n < 100) : bcd n = 0 ↔ n = 0 := by
  rw [← BitVec.toNat_inj, toNat_bcd h]
  show n / 10 * 16 + n % 10 = 0 ↔ n = 0
  omega

/-- `DAA` after an addition, by the sums `t` of the high digits and `l` of the low ones, the carry-in counted: the two
decide every digit and every carry. -/
theorem decimalAdjust_digitSums {t l : Nat} (ht : t < 19) (hl : l < 20) (z : Bool) :
    decimalAdjust (BitVec.ofNat 8 (16 * t + l))
      { z := z, n := false, h := decide (l > 15), c := decide (16 * t + l > 255) } =
    (bcd ((10 * t + l) % 100), decide (10 * t + l > 99)) := by
  have table : ∀ (t : Fin 19) (l : Fin 20) (z : Bool),
      decimalAdjust (BitVec.ofNat 8 (16 * t.val + l.val))
        { z := z, n := false, h := decide (l.val > 15), c := decide (16 * t.val + l.val > 255) } =
      (bcd ((10 * t.val + l.val) % 100), decide (10 * t.val + l.val > 99)) := by decide
  exact table ⟨t, ht⟩ ⟨l, hl⟩ z

/-- `DAA` after a subtraction, by the differences `t - 9` of the high digits and `l - 10` of the low ones, the borrow-in
counted. -/
theorem decimalAdjust_digitDifferences {t l : Nat} (ht : t < 19) (hl : l < 20) (z : Bool) :
    decimalAdjust (BitVec.ofNat 8 (16 * t + l + 102))
      { z := z, n := true, h := decide (l < 10), c := decide (16 * t + l < 154) } =
    (bcd ((10 * t + l) % 100), decide (10 * t + l < 100)) := by
  have table : ∀ (t : Fin 19) (l : Fin 20) (z : Bool),
      decimalAdjust (BitVec.ofNat 8 (16 * t.val + l.val + 102))
        { z := z, n := true, h := decide (l.val < 10), c := decide (16 * t.val + l.val < 154) } =
      (bcd ((10 * t.val + l.val) % 100), decide (10 * t.val + l.val < 100)) := by decide
  exact table ⟨t, ht⟩ ⟨l, hl⟩ z

theorem decimalAdjust_add8_bcd {x y : Nat} (hx : x < 100) (hy : y < 100) (cin : Bool) :
    decimalAdjust (add8 (bcd x) (bcd y) cin).res (addFlags (add8 (bcd x) (bcd y) cin)) =
      (bcd ((x + y + cin.toNat) % 100), decide (x + y + cin.toNat > 99)) := by
  have hc : cin.toNat < 2 := cin.toNat_lt
  obtain ⟨t, ht⟩ : ∃ t, t = x / 10 + y / 10 := ⟨_, rfl⟩
  obtain ⟨l, hl⟩ : ∃ l, l = x % 10 + y % 10 + cin.toNat := ⟨_, rfl⟩
  have hsum : x + y + cin.toNat = 10 * t + l := by omega
  have hres : (add8 (bcd x) (bcd y) cin).res = BitVec.ofNat 8 (16 * t + l) := by
    simp only [add8, toNat_bcd hx, toNat_bcd hy]
    congr 1
    omega
  have hhalf : (add8 (bcd x) (bcd y) cin).h = decide (l > 15) := by
    simp only [add8, toNat_bcd hx, toNat_bcd hy, decide_eq_decide]
    omega
  have hcarry : (add8 (bcd x) (bcd y) cin).c = decide (16 * t + l > 255) := by
    simp only [add8, toNat_bcd hx, toNat_bcd hy, decide_eq_decide]
    omega
  rw [addFlags, hhalf, hcarry, hres, hsum]
  exact decimalAdjust_digitSums (by omega) (by omega) _

theorem decimalAdjust_sub8_bcd {x y : Nat} (hx : x < 100) (hy : y < 100) (cin : Bool) :
    decimalAdjust (sub8 (bcd x) (bcd y) cin).res (subFlags (sub8 (bcd x) (bcd y) cin)) =
      (bcd ((x + 200 - y - cin.toNat) % 100), decide (x < y + cin.toNat)) := by
  have hc : cin.toNat < 2 := cin.toNat_lt
  obtain ⟨t, ht⟩ : ∃ t, t = x / 10 + 9 - y / 10 := ⟨_, rfl⟩
  obtain ⟨l, hl⟩ : ∃ l, l = x % 10 + 10 - (y % 10 + cin.toNat) := ⟨_, rfl⟩
  have hdiff : (x + 200 - y - cin.toNat) % 100 = (10 * t + l) % 100 := by omega
  have hborrow : x < y + cin.toNat ↔ 10 * t + l < 100 := by omega
  have hres : (sub8 (bcd x) (bcd y) cin).res = BitVec.ofNat 8 (16 * t + l + 102) := by
    apply BitVec.eq_of_toNat_eq
    simp only [sub8, toNat_bcd hx, toNat_bcd hy, BitVec.toNat_ofInt, BitVec.toNat_ofNat]
    omega
  have hhalf : (sub8 (bcd x) (bcd y) cin).h = decide (l < 10) := by
    simp only [sub8, toNat_bcd hx, toNat_bcd hy, decide_eq_decide]
    omega
  have hcarry : (sub8 (bcd x) (bcd y) cin).c = decide (16 * t + l < 154) := by
    simp only [sub8, toNat_bcd hx, toNat_bcd hy, decide_eq_decide]
    omega
  rw [subFlags, hhalf, hcarry, hres, hdiff, decide_eq_decide.2 hborrow]
  exact decimalAdjust_digitDifferences (by omega) (by omega) _

/-- `DAA` that leaves the BCD of `n`, with the flags to match. -/
theorem exec_daa_of_bcd {t : State} {n : Nat} {c : Bool} (hn : n < 100) (h : decimalAdjust t.acc t.f = (bcd n, c)) :
    ∃ u, exec .daa t = .next u ∧ u.acc = bcd n ∧ u.f = { z := decide (n = 0), n := t.f.n, h := false, c := c } := by
  refine ⟨_, rfl, ?_⟩
  rw [h]
  refine ⟨t.r8_setR8_self .a (bcd n), ?_⟩
  rw [State.setFlags_f, daaFlags, decide_eq_decide.2 (bcd_eq_zero_iff hn)]

/-- Settles O46: both forms are `State.addA`, without a carry-in or with the old carry. -/
theorem daaAfterAddIsDecimal : Obligations.DaaAfterAddIsDecimal := by
  intro s x y hx hy hacc decimal
  have decimal_of {i : Instr} {cin : Bool} (h : exec i s = .next (s.addA (bcd y) cin)) : decimal i cin.toNat := by
    have hadjust := decimalAdjust_add8_bcd hx hy cin
    rw [← hacc] at hadjust
    obtain ⟨u, hu, ha, hf⟩ := exec_daa_of_bcd (t := s.addA (bcd y) cin) (Nat.mod_lt _ (by decide)) hadjust
    exact ⟨_, u, h, hu, ha, hf⟩
  exact ⟨decimal_of (cin := false) rfl, decimal_of rfl⟩

/-- Settles O47: both forms are `State.subA`, without a borrow-in or with the old carry. -/
theorem daaAfterSubIsDecimal : Obligations.DaaAfterSubIsDecimal := by
  intro s x y hx hy hacc decimal
  have decimal_of {i : Instr} {cin : Bool} (h : exec i s = .next (s.subA (bcd y) cin)) : decimal i cin.toNat := by
    have hadjust := decimalAdjust_sub8_bcd hx hy cin
    rw [← hacc] at hadjust
    obtain ⟨u, hu, ha, hf⟩ := exec_daa_of_bcd (t := s.subA (bcd y) cin) (Nat.mod_lt _ (by decide)) hadjust
    exact ⟨_, u, h, hu, ha, hf⟩
  exact ⟨decimal_of (cin := false) rfl, decimal_of rfl⟩

end Sys2Proof.Machine
end
